-- ==== Sys2Proof/Word.lean ====
section
/-! DEFINITION. The widths of the machine: bytes, 16-bit words, register indices and key indices. -/

namespace Sys2Proof

/-- An 8-bit value: a memory byte, a general register, a timer, an immediate `kk` (R9, R20, R25, R30). -/
abbrev Byte := BitVec 8

/-- A 16-bit value: an instruction word, `I`, `pc`, a stack entry (R8, R22, R23, R24). -/
abbrev Word := BitVec 16

/-- A general register index: a 4-bit field, so every index exists (R20). -/
abbrev Reg := Fin 16

/-- A keypad key index, 0 to 15 (R26, R182). -/
abbrev Key := Fin 16

/-- `VF`, the flag register (R21). -/
abbrev VF : Reg := 15

/-- `V0`, the offset register of `Bnnn` (R97). -/
abbrev V0 : Reg := 0

end Sys2Proof
end

