-- ==== Sys2Proof/Syntax.lean ====
section
/-! DEFINITION. The instruction set as syntax: one constructor per row of spec/opcode_table.json, in the table's order. -/

namespace Sys2Proof

/-- The 34 instructions of R76. `x`, `y` are register indices, `kk` an 8-bit immediate, `nnn` a 12-bit address held
zero-extended in a 16-bit word, `n` a row count of 0 to 15; the bounds on `nnn` and `n` are `Instr.wf` (R72). -/
inductive Instr where
  /-- `00E0` CLS (R152) -/
  | cls
  /-- `00EE` RET (R90) -/
  | ret
  /-- `1nnn` JP nnn (R91) -/
  | jp (nnn : Word)
  /-- `2nnn` CALL nnn (R92) -/
  | call (nnn : Word)
  /-- `3xkk` SE Vx, kk (R93) -/
  | seImm (x : Reg) (kk : Byte)
  /-- `4xkk` SNE Vx, kk (R94) -/
  | sneImm (x : Reg) (kk : Byte)
  /-- `5xy0` SE Vx, Vy (R95) -/
  | seReg (x y : Reg)
  /-- `6xkk` LD Vx, kk (R110) -/
  | ldImm (x : Reg) (kk : Byte)
  /-- `7xkk` ADD Vx, kk (R111) -/
  | addImm (x : Reg) (kk : Byte)
  /-- `8xy0` LD Vx, Vy (R113) -/
  | ldReg (x y : Reg)
  /-- `8xy1` OR Vx, Vy (R114) -/
  | orReg (x y : Reg)
  /-- `8xy2` AND Vx, Vy (R115) -/
  | andReg (x y : Reg)
  /-- `8xy3` XOR Vx, Vy (R116) -/
  | xorReg (x y : Reg)
  /-- `8xy4` ADD Vx, Vy (R117) -/
  | addReg (x y : Reg)
  /-- `8xy5` SUB Vx, Vy (R118) -/
  | subReg (x y : Reg)
  /-- `8xy6` SHR Vx, Vy (R119) -/
  | shrReg (x y : Reg)
  /-- `8xy7` SUBN Vx, Vy (R120) -/
  | subnReg (x y : Reg)
  /-- `8xyE` SHL Vx, Vy (R121) -/
  | shlReg (x y : Reg)
  /-- `9xy0` SNE Vx, Vy (R96) -/
  | sneReg (x y : Reg)
  /-- `Annn` LD I, nnn (R130) -/
  | ldI (nnn : Word)
  /-- `Bnnn` JP V0, nnn (R97) -/
  | jpV0 (nnn : Word)
  /-- `Cxkk` RND Vx, kk (R123) -/
  | rnd (x : Reg) (kk : Byte)
  /-- `Dxyn` DRW Vx, Vy, n (R157) -/
  | drw (x y : Reg) (n : Nat)
  /-- `Ex9E` SKP Vx (R170) -/
  | skp (x : Reg)
  /-- `ExA1` SKNP Vx (R171) -/
  | sknp (x : Reg)
  /-- `Fx07` LD Vx, DT (R173) -/
  | ldVxDT (x : Reg)
  /-- `Fx0A` LD Vx, K (R172) -/
  | ldVxK (x : Reg)
  /-- `Fx15` LD DT, Vx (R174) -/
  | ldDTVx (x : Reg)
  /-- `Fx18` LD ST, Vx (R175) -/
  | ldSTVx (x : Reg)
  /-- `Fx1E` ADD I, Vx (R131) -/
  | addI (x : Reg)
  /-- `Fx29` LD F, Vx (R132) -/
  | ldF (x : Reg)
  /-- `Fx33` LD B, Vx (R133) -/
  | ldB (x : Reg)
  /-- `Fx55` LD [I], Vx (R134) -/
  | storeRegs (x : Reg)
  /-- `Fx65` LD Vx, [I] (R135) -/
  | loadRegs (x : Reg)
deriving DecidableEq, Repr

end Sys2Proof
end

