-- ==== Sys2Proof/Decode.lean ====
section
/-! DEFINITION. Decoding a 16-bit word (R73 to R79), the opcode table of R76, and the encoder. -/

namespace Sys2Proof

/-- Why a word is no instruction: the row of R79 it falls under. -/
inductive Illegal where
  /-- `0nnn` other than `00E0` and `00EE` (zeroed memory and the machine-code call `0nnn` among them) -/
  | class0
  /-- `5xyN` with `N` not 0 -/
  | class5
  /-- `8xyN` with `N` in 8, 9, A, B, C, D, F -/
  | class8
  /-- `9xyN` with `N` not 0 -/
  | class9
  /-- `ExKK` with `KK` not 9E or A1 -/
  | classE
  /-- `FxKK` with `KK` none of the nine sub-opcodes -/
  | classF
deriving DecidableEq, Repr

/-- `v[hi:lo]`, bits `hi` down to `lo` of a word as an unsigned integer (R10). -/
def bits (v : Word) (hi lo : Nat) : Nat := v.toNat / 2 ^ lo % 2 ^ (hi - lo + 1)

/-- Field `class = op[15:12]` (R12). -/
def opClass (op : Word) : Nat := bits op 15 12

/-- Field `nnn = op[11:0]`, zero-extended (R12, R72). -/
def fieldNNN (op : Word) : Word := BitVec.ofNat 16 (bits op 11 0)

/-- Field `x = op[11:8]` (R12). -/
def fieldX (op : Word) : Reg := Fin.ofNat 16 (bits op 11 8)

/-- Field `y = op[7:4]` (R12). -/
def fieldY (op : Word) : Reg := Fin.ofNat 16 (bits op 7 4)

/-- Field `kk = op[7:0]` (R12). -/
def fieldKK (op : Word) : Byte := BitVec.ofNat 8 (bits op 7 0)

/-- Field `n = op[3:0]` (R12). -/
def fieldN (op : Word) : Nat := bits op 3 0

/-- Class 0: the whole of `op[11:0]` is compared (R75, R78). -/
def decodeClass0 (op : Word) : Except Illegal Instr :=
  match bits op 11 0 with
  | 0x0E0 => .ok .cls
  | 0x0EE => .ok .ret
  | _ => .error .class0

/-- Class 8: dispatch on the low nibble (R75). -/
def decodeClass8 (op : Word) : Except Illegal Instr :=
  match fieldN op with
  | 0x0 => .ok (.ldReg (fieldX op) (fieldY op))
  | 0x1 => .ok (.orReg (fieldX op) (fieldY op))
  | 0x2 => .ok (.andReg (fieldX op) (fieldY op))
  | 0x3 => .ok (.xorReg (fieldX op) (fieldY op))
  | 0x4 => .ok (.addReg (fieldX op) (fieldY op))
  | 0x5 => .ok (.subReg (fieldX op) (fieldY op))
  | 0x6 => .ok (.shrReg (fieldX op) (fieldY op))
  | 0x7 => .ok (.subnReg (fieldX op) (fieldY op))
  | 0xE => .ok (.shlReg (fieldX op) (fieldY op))
  | _ => .error .class8

/-- Class E: dispatch on the low byte (R75). -/
def decodeClassE (op : Word) : Except Illegal Instr :=
  match bits op 7 0 with
  | 0x9E => .ok (.skp (fieldX op))
  | 0xA1 => .ok (.sknp (fieldX op))
  | _ => .error .classE

/-- Class F: dispatch on the low byte (R75). -/
def decodeClassF (op : Word) : Except Illegal Instr :=
  match bits op 7 0 with
  | 0x07 => .ok (.ldVxDT (fieldX op))
  | 0x0A => .ok (.ldVxK (fieldX op))
  | 0x15 => .ok (.ldDTVx (fieldX op))
  | 0x18 => .ok (.ldSTVx (fieldX op))
  | 0x1E => .ok (.addI (fieldX op))
  | 0x29 => .ok (.ldF (fieldX op))
  | 0x33 => .ok (.ldB (fieldX op))
  | 0x55 => .ok (.storeRegs (fieldX op))
  | 0x65 => .ok (.loadRegs (fieldX op))
  | _ => .error .classF

/-- Decoding, total on 16-bit words: one of the 34 instructions, or the named row of R79 (R74, R75). -/
def decode (op : Word) : Except Illegal Instr :=
  match opClass op with
  | 0x0 => decodeClass0 op
  | 0x1 => .ok (.jp (fieldNNN op))
  | 0x2 => .ok (.call (fieldNNN op))
  | 0x3 => .ok (.seImm (fieldX op) (fieldKK op))
  | 0x4 => .ok (.sneImm (fieldX op) (fieldKK op))
  | 0x5 => if fieldN op = 0 then .ok (.seReg (fieldX op) (fieldY op)) else .error .class5
  | 0x6 => .ok (.ldImm (fieldX op) (fieldKK op))
  | 0x7 => .ok (.addImm (fieldX op) (fieldKK op))
  | 0x8 => decodeClass8 op
  | 0x9 => if fieldN op = 0 then .ok (.sneReg (fieldX op) (fieldY op)) else .error .class9
  | 0xA => .ok (.ldI (fieldNNN op))
  | 0xB => .ok (.jpV0 (fieldNNN op))
  | 0xC => .ok (.rnd (fieldX op) (fieldKK op))
  | 0xD => .ok (.drw (fieldX op) (fieldY op) (fieldN op))
  | 0xE => decodeClassE op
  | _ => decodeClassF op  -- class F: a 4-bit field has no other value

/-- The word of two bytes at ascending addresses: the first is `op[15:8]` (R52). -/
def wordOfBytes (first second : Byte) : Word := BitVec.ofNat 16 (first.toNat * 256 + second.toNat)

/-- The byte at the lower address of a word's two, `op[15:8]` (R52). -/
def highByte (op : Word) : Byte := BitVec.ofNat 8 (bits op 15 8)

/-- The byte at the higher address of a word's two, `op[7:0]` (R52). -/
def lowByte (op : Word) : Byte := BitVec.ofNat 8 (bits op 7 0)

/-- Decoding the two bytes of an instruction as they lie in memory (R52, R70). -/
def decodeBytes (first second : Byte) : Except Illegal Instr := decode (wordOfBytes first second)

/-- The instruction the decoder reads from a word numbered as the opcode table numbers it; the word is laid out in memory order,
high byte first, before it is decoded (R8, R52). -/
def decodeTableWord (nbits w : Nat) : Option Instr :=
  let op : Word := BitVec.ofNat 16 (w % 2 ^ nbits)
  match decodeBytes (highByte op) (lowByte op) with
  | .ok i => some i
  | .error _ => none

/-- A word of format NNN (R71). -/
def wordNNN (cls : Nat) (nnn : Word) : Word := BitVec.ofNat 16 (cls * 4096 + nnn.toNat % 4096)

/-- A word of format XKK (R71). -/
def wordXKK (cls : Nat) (x : Reg) (kk : Byte) : Word := BitVec.ofNat 16 (cls * 4096 + x.val * 256 + kk.toNat)

/-- A word of format XY or XYN: class, `x`, `y` and the low nibble (R71). -/
def wordXYN (cls : Nat) (x y : Reg) (n : Nat) : Word :=
  BitVec.ofNat 16 (cls * 4096 + x.val * 256 + y.val * 16 + n % 16)

/-- A word of format X: class, `x` and the sub-opcode byte (R71). -/
def wordX (cls : Nat) (x : Reg) (sub : Nat) : Word := BitVec.ofNat 16 (cls * 4096 + x.val * 256 + sub)

/-- The word of an instruction: the `match` of its row of R76 with the fields placed at their bit positions. -/
def encode : Instr → Word
  | .cls => 0x00E0
  | .ret => 0x00EE
  | .jp nnn => wordNNN 0x1 nnn
  | .call nnn => wordNNN 0x2 nnn
  | .seImm x kk => wordXKK 0x3 x kk
  | .sneImm x kk => wordXKK 0x4 x kk
  | .seReg x y => wordXYN 0x5 x y 0x0
  | .ldImm x kk => wordXKK 0x6 x kk
  | .addImm x kk => wordXKK 0x7 x kk
  | .ldReg x y => wordXYN 0x8 x y 0x0
  | .orReg x y => wordXYN 0x8 x y 0x1
  | .andReg x y => wordXYN 0x8 x y 0x2
  | .xorReg x y => wordXYN 0x8 x y 0x3
  | .addReg x y => wordXYN 0x8 x y 0x4
  | .subReg x y => wordXYN 0x8 x y 0x5
  | .shrReg x y => wordXYN 0x8 x y 0x6
  | .subnReg x y => wordXYN 0x8 x y 0x7
  | .shlReg x y => wordXYN 0x8 x y 0xE
  | .sneReg x y => wordXYN 0x9 x y 0x0
  | .ldI nnn => wordNNN 0xA nnn
  | .jpV0 nnn => wordNNN 0xB nnn
  | .rnd x kk => wordXKK 0xC x kk
  | .drw x y n => wordXYN 0xD x y n
  | .skp x => wordX 0xE x 0x9E
  | .sknp x => wordX 0xE x 0xA1
  | .ldVxDT x => wordX 0xF x 0x07
  | .ldVxK x => wordX 0xF x 0x0A
  | .ldDTVx x => wordX 0xF x 0x15
  | .ldSTVx x => wordX 0xF x 0x18
  | .addI x => wordX 0xF x 0x1E
  | .ldF x => wordX 0xF x 0x29
  | .ldB x => wordX 0xF x 0x33
  | .storeRegs x => wordX 0xF x 0x55
  | .loadRegs x => wordX 0xF x 0x65

/-- A row of the opcode table: a word belongs to it when `op &&& mask = pattern` (R74, R76). -/
structure OpcodeRow where
  name : String
  mask : Word
  pattern : Word
deriving DecidableEq, Repr

/-- The complete opcode table of R76, in its order; `mask` and `pattern` are its columns `mask` and `match`. -/
def opcodeTable : List OpcodeRow :=
  [⟨"00E0", 0xFFFF, 0x00E0⟩, ⟨"00EE", 0xFFFF, 0x00EE⟩, ⟨"1nnn", 0xF000, 0x1000⟩, ⟨"2nnn", 0xF000, 0x2000⟩,
   ⟨"3xkk", 0xF000, 0x3000⟩, ⟨"4xkk", 0xF000, 0x4000⟩, ⟨"5xy0", 0xF00F, 0x5000⟩, ⟨"6xkk", 0xF000, 0x6000⟩,
   ⟨"7xkk", 0xF000, 0x7000⟩, ⟨"8xy0", 0xF00F, 0x8000⟩, ⟨"8xy1", 0xF00F, 0x8001⟩, ⟨"8xy2", 0xF00F, 0x8002⟩,
   ⟨"8xy3", 0xF00F, 0x8003⟩, ⟨"8xy4", 0xF00F, 0x8004⟩, ⟨"8xy5", 0xF00F, 0x8005⟩, ⟨"8xy6", 0xF00F, 0x8006⟩,
   ⟨"8xy7", 0xF00F, 0x8007⟩, ⟨"8xyE", 0xF00F, 0x800E⟩, ⟨"9xy0", 0xF00F, 0x9000⟩, ⟨"Annn", 0xF000, 0xA000⟩,
   ⟨"Bnnn", 0xF000, 0xB000⟩, ⟨"Cxkk", 0xF000, 0xC000⟩, ⟨"Dxyn", 0xF000, 0xD000⟩, ⟨"Ex9E", 0xF0FF, 0xE09E⟩,
   ⟨"ExA1", 0xF0FF, 0xE0A1⟩, ⟨"Fx07", 0xF0FF, 0xF007⟩, ⟨"Fx0A", 0xF0FF, 0xF00A⟩, ⟨"Fx15", 0xF0FF, 0xF015⟩,
   ⟨"Fx18", 0xF0FF, 0xF018⟩, ⟨"Fx1E", 0xF0FF, 0xF01E⟩, ⟨"Fx29", 0xF0FF, 0xF029⟩, ⟨"Fx33", 0xF0FF, 0xF033⟩,
   ⟨"Fx55", 0xF0FF, 0xF055⟩, ⟨"Fx65", 0xF0FF, 0xF065⟩]

/-- The word belongs to the row (R74). -/
def OpcodeRow.holds (r : OpcodeRow) (op : Word) : Bool := op &&& r.mask == r.pattern

/-- The name of the row an instruction belongs to (R76). -/
def Instr.rowName : Instr → String
  | .cls => "00E0" | .ret => "00EE" | .jp _ => "1nnn" | .call _ => "2nnn" | .seImm _ _ => "3xkk" | .sneImm _ _ => "4xkk"
  | .seReg _ _ => "5xy0" | .ldImm _ _ => "6xkk" | .addImm _ _ => "7xkk" | .ldReg _ _ => "8xy0" | .orReg _ _ => "8xy1"
  | .andReg _ _ => "8xy2" | .xorReg _ _ => "8xy3" | .addReg _ _ => "8xy4" | .subReg _ _ => "8xy5" | .shrReg _ _ => "8xy6"
  | .subnReg _ _ => "8xy7" | .shlReg _ _ => "8xyE" | .sneReg _ _ => "9xy0" | .ldI _ => "Annn" | .jpV0 _ => "Bnnn"
  | .rnd _ _ => "Cxkk" | .drw _ _ _ => "Dxyn" | .skp _ => "Ex9E" | .sknp _ => "ExA1" | .ldVxDT _ => "Fx07"
  | .ldVxK _ => "Fx0A" | .ldDTVx _ => "Fx15" | .ldSTVx _ => "Fx18" | .addI _ => "Fx1E" | .ldF _ => "Fx29"
  | .ldB _ => "Fx33" | .storeRegs _ => "Fx55" | .loadRegs _ => "Fx65"

end Sys2Proof
end

