-- ==== Sys2Proof/Config.lean ====
section
/-! DEFINITION. The fixed parameters (R5), the type of the quirk parameters (R6), and the free values the spec leaves open
(R33, R123). The quirk VALUES of this hardware are `Machine.quirks` in Machine/Operands.lean. -/

namespace Sys2Proof.Config

/-- `MEM_SIZE`: bytes of memory (R5, R50). -/
abbrev memSize : Nat := 4096

/-- `ADDR_MAX`: the highest legal byte address (R5, R53). -/
abbrev addrMax : Nat := 4095

/-- `FONT_BASE`: address of glyph 0 (R5, R33; conflict C1). -/
abbrev fontBase : Nat := 0

/-- `FONT_GLYPHS` times `GLYPH_BYTES`: the bytes of the font set (R5, R33). -/
abbrev fontBytes : Nat := 80

/-- `GLYPH_BYTES`: bytes per glyph (R5, R33). -/
abbrev glyphBytes : Nat := 5

/-- `PROG_BASE`: load address and reset `pc` (R5, R23). -/
abbrev progBase : Nat := 0x200

/-- `PROG_SPACE`: bytes available to a ROM (R5, R201). -/
abbrev progSpace : Nat := 3584

/-- `STACK_DEPTH`: stack entries (R5, R24). -/
abbrev stackDepth : Nat := 16

/-- `FB_W`: framebuffer columns (R5, R150). -/
abbrev fbWidth : Nat := 64

/-- `FB_H`: framebuffer rows (R5, R150). -/
abbrev fbHeight : Nat := 32

/-- `SPRITE_W`: sprite width in pixels (R5, R153). -/
abbrev spriteWidth : Nat := 8

/-- `TICKS_PER_FRAME`: most instructions per frame (R5, R196). -/
abbrev ticksPerFrame : Nat := 12

/-- `ILEN`: instruction length in bytes (R5, R70). -/
abbrev instrBytes : Nat := 2

/-- The three behaviours the source leaves open by name (R6). -/
structure Quirks where
  /-- `QUIRK_LOGIC_RESETS_VF`: `8xy1`, `8xy2`, `8xy3` set `VF` to 0 after the result is written. -/
  logicResetsVF : Bool
  /-- `QUIRK_SHIFT_USES_VY`: `8xy6`, `8xyE` shift the value of `Vy` into `Vx`. -/
  shiftUsesVy : Bool
  /-- `QUIRK_DRAW_WRAPS_PIXELS`: every pixel coordinate wraps modulo the grid size. -/
  drawWrapsPixels : Bool
deriving DecidableEq, Repr

/-- FREE VALUE (log entry 7): the random byte the `k`-th execution of `Cxkk` reads; no body, under no law (R123). -/
opaque randomByte : Nat → Byte

/-- FREE VALUE (log entry 8): the four glyph pixels of font byte `j`; the spec gives only that the low nibble is 0 (R33). -/
opaque glyphRow : Nat → BitVec 4

end Sys2Proof.Config
end

