-- ==== Sys2Proof/Machine/State.lean ====
section
/-! DEFINITION. The state of the machine (R35) as plain data, the model's own scheduling fields, the reasons a step can stop, and
the state after `RESET` (R34). -/

namespace Sys2Proof.Machine

/-- The fatal errors (R220), in the order of their codes 1 to 6. -/
inductive Cause where
  /-- a fetched word matches no row of the opcode table (R221) -/
  | decodeError
  /-- an access would touch an address above 4095 (R222) -/
  | memOutOfRange
  /-- a call with 16 entries in use (R223) -/
  | stackOverflow
  /-- a return with no entry in use (R224) -/
  | stackUnderflow
  /-- `START` while `Active`, or `KEY` or `STOP` while `PowerOn` (R225) -/
  | protocolViolation
  /-- `Ex9E` or `ExA1` with `Vx > 15` (R226) -/
  | keyIndexOutOfRange
deriving DecidableEq, Repr

/-- `run`, the lifecycle state (R29); `faulted` holds the fault record of R230, whose address and opcode may be absent (R220). -/
inductive RunState where
  | powerOn
  | active
  | stopped
  | faulted (cause : Cause) (addr : Option Word) (opcode : Option Word)
deriving DecidableEq, Repr

/-- `exec`, the execution state (R27, R176). -/
inductive ExecState where
  | running
  | waitingForKey (r : Reg)
deriving DecidableEq, Repr

/-- An input of the machine (R7). The host chooses the order of its own events and where they fall between frames; `frame` is a
frame boundary. -/
inductive Event where
  /-- `RESET` (R250) -/
  | reset
  /-- `LOAD(rom)` (R201) -/
  | load (rom : List Byte)
  /-- `START` (R203) -/
  | start
  /-- `KEY(k, pressed)` (R182) -/
  | key (k : Key) (pressed : Bool)
  /-- `STOP` (R205) -/
  | stop
  /-- `FRAME`, the 60 Hz boundary (R196) -/
  | frame
deriving DecidableEq, Repr

/-- Where the machine is with respect to the `FRAME` step, which the model shows one `tick` at a time (log entry 1). -/
inductive Phase where
  /-- no `FRAME` step is in progress: host events can take effect (R199) -/
  | between
  /-- inside a `FRAME` step, with `count` ticks done (`count` of R196) -/
  | burst (count : Nat)
deriving DecidableEq, Repr

/-- The framebuffer: 32 rows of 64 pixels, `true` = lit (R28, R150). -/
abbrev Screen := Vector (Vector Bool 64) 32

/-- The memory: the listed bytes in rising address order, none of them 0; an unlisted address reads as 0 (R30, R34). -/
abbrev Memory := List Host.Cell

/-- The state record of R35, in its order; then `loaded`, which R201 implies; then the model's own fields. -/
structure State where
  /-- `mem` (R30) -/
  mem : Memory
  /-- `V` (R20, R21) -/
  V : Vector Byte 16
  /-- `I` (R22) -/
  I : Word
  /-- `pc` (R23) -/
  pc : Word
  /-- `stack` (R24) -/
  stack : Vector Word 16
  /-- `SP`, the number of entries in use, 0 to 16 (R24) -/
  SP : Fin 17
  /-- `DT` (R25) -/
  DT : Byte
  /-- `ST` (R25) -/
  ST : Byte
  /-- `keys` (R26) -/
  keys : Vector Bool 16
  /-- `exec` (R27) -/
  execState : ExecState
  /-- `fb` (R28) -/
  fb : Screen
  /-- `run` (R29) -/
  run : RunState
  /-- `load_truncated` (R31) -/
  loadTruncated : Bool
  /-- a `LOAD` has happened since the last `RESET` (R201; log entry 6) -/
  loaded : Bool
  /-- model's own: the frame in progress, if any (R196, R32 b; log entry 1) -/
  phase : Phase
  /-- model's own: the result of the last `tick` (R192, R32 a; log entry 2) -/
  drawFlag : Bool
  /-- model's own: the inputs still to come, in the order they take effect (R7, R199; log entry 3) -/
  inputs : List Event
  /-- model's own: how many random bytes have been taken, the index of the next free value (R123; log entry 7) -/
  draws : Nat
  /-- model's own: how many `REFRESH` events have been emitted (R198; log entry 12) -/
  refreshes : Nat
deriving DecidableEq, Repr

/-- What the host can observe of the machine, and nothing more (R207). -/
structure HostView where
  /-- the framebuffer as a read-only grid, row-major (R158) -/
  grid : List Bool
  /-- the `REFRESH` events emitted so far (R198; log entry 12) -/
  refreshes : Nat
  /-- `run`, including the fault record (R29, R230) -/
  run : RunState
  /-- `load_truncated` (R31) -/
  loadTruncated : Bool
deriving DecidableEq, Repr

/-- Reasons for `Outcome.fault`: there are none. Every fatal error of R220 has an entry the spec describes (R230), so it is a next
state whose `run` is `faulted`; nothing else stops this machine (log entry 4). -/
inductive Fault where
deriving DecidableEq, Repr

/-- Reasons for `Outcome.refused`. -/
inductive Refusal where
  /-- Raised by exec's arm of an instruction that has no meaning yet (none at present). Safe: the machine stops. -/
  | notModelled (mnemonic : String)
  /-- Raised by the `LOAD` event when `run` is not `PowerOn` or a `LOAD` has happened since the last `RESET`: "any other `LOAD` is
  refused (no step)" (R201, D21, U11; log entry 5). Safe: the machine stops. -/
  | loadNotLegal
deriving DecidableEq, Repr

/-- The machine right after `RESET` (R34), with no input pending; the model's own fields as log entries 1, 2, 3, 6, 7 and 12 say. -/
def State.reset : State where
  mem := []
  V := Vector.replicate 16 0
  I := 0
  pc := 0x200
  stack := Vector.replicate 16 0
  SP := 0
  DT := 0
  ST := 0
  keys := Vector.replicate 16 false
  execState := .running
  fb := Vector.replicate 32 (Vector.replicate 64 false)
  run := .powerOn
  loadTruncated := false
  loaded := false
  phase := .between
  drawFlag := false
  inputs := []
  draws := 0
  refreshes := 0

end Sys2Proof.Machine
end

