-- ==== Sys2Proof/Machine/Ops.lean ====
section
/-! DEFINITION. The named operations over memory and state: byte access in canonical form (R30, R53), registers, `pc`, `I`, stack,
timers, keys, the execution state, the random input, taking a fatal error (R11, R230) and leaving it by `RESET` (R231, R250). -/

namespace Sys2Proof.Machine

/-- What a step, a tick or an instruction answers. -/
abbrev Result := Host.Outcome State Fault Refusal

/-- The byte at an address; what an unlisted address reads as is 0, the reset value of every byte (R30, R34). -/
def Memory.read : Memory → Nat → Byte
  | [], _ => 0#8
  | (b, v) :: m, a => if b = a then v else Memory.read m a

/-- One byte stored, in canonical form: addresses rising, and a byte equal to 0 is not listed (R55). -/
def Memory.write : Memory → Nat → Byte → Memory
  | [], a, v => if v = 0#8 then [] else [(a, v)]
  | (b, w) :: m, a, v =>
    if a < b then (if v = 0#8 then (b, w) :: m else (a, v) :: (b, w) :: m)
    else if a = b then (if v = 0#8 then m else (a, v) :: m)
    else (b, w) :: Memory.write m a v

/-- Single bytes stored at ascending addresses (R55). -/
def Memory.writeBytes : Memory → Nat → List Byte → Memory
  | m, _, [] => m
  | m, a, b :: bs => Memory.writeBytes (m.write a b) (a + 1) bs

/-- The cells of `m` are strictly rising from `lo` on, below 4096, and none is 0. -/
def Memory.wfFrom : Nat → Memory → Bool
  | _, [] => true
  | lo, (a, v) :: m => decide (lo ≤ a) && decide (a < Config.memSize) && decide (v ≠ 0#8) && Memory.wfFrom (a + 1) m

/-- The canonical form of memory (R50: addresses 0 to 4095). -/
def Memory.wf (m : Memory) : Bool := Memory.wfFrom 0 m

/-- An access of `m` bytes at `addr` is legal exactly when `addr + m - 1 <= 4095`, in unbounded integers (R53). -/
def inRange (addr m : Nat) : Bool := decide (addr + m - 1 ≤ Config.addrMax)

/-- `MemRead(addr, n)`: the `n` bytes at `addr` to `addr + n - 1` (R10). -/
def State.readBytes (s : State) (addr n : Nat) : List Byte := (List.range n).map fun j => s.mem.read (addr + j)

/-- `MemWrite` of single bytes at ascending addresses (R10, R55). -/
def State.writeBytes (s : State) (addr : Nat) (bs : List Byte) : State := { s with mem := s.mem.writeBytes addr bs }

/-- `V[x]` (R20). -/
def State.reg (s : State) (x : Reg) : Byte := s.V[x]

/-- `V[x] <- v` (R20). -/
def State.setReg (s : State) (x : Reg) (v : Byte) : State := { s with V := s.V.set x v }

/-- `I <- v` (R22). -/
def State.setI (s : State) (v : Word) : State := { s with I := v }

/-- `pc <- target` (R23, R100: any value, unchecked). -/
def State.setPc (s : State) (target : Word) : State := { s with pc := target }

/-- What every instruction's tick does before its own effect: `pc <- a + 2`, `draw_flag = false` (R190). -/
def State.advance (s : State) : State := { s with pc := s.pc + 2, drawFlag := false }

/-- The skip mechanism: a further `pc <- pc + 2` when the condition holds, else nothing (R98). -/
def State.skipIf (s : State) (c : Bool) : State := if c then s.setPc (s.pc + 2) else s

/-- `stack[SP] <- v; SP <- SP + 1`, when an entry is free (R24). -/
def State.push (s : State) (v : Word) (h : s.SP.val < Config.stackDepth) : State :=
  { s with stack := s.stack.set s.SP.val v, SP := ⟨s.SP.val + 1, Nat.succ_lt_succ h⟩ }

/-- The entry a pop reads, `stack[SP - 1]`, when one is in use (R24). -/
def State.top (s : State) (h : 0 < s.SP.val) : Word := s.stack[s.SP.val - 1]'(by have := s.SP.isLt; omega)

/-- `SP <- SP - 1`; the entry keeps its content (R24, R90). -/
def State.pop (s : State) : State := { s with SP := ⟨s.SP.val - 1, by have := s.SP.isLt; omega⟩ }

/-- `DT <- v` (R25). -/
def State.setDT (s : State) (v : Byte) : State := { s with DT := v }

/-- `ST <- v` (R25). -/
def State.setST (s : State) (v : Byte) : State := { s with ST := v }

/-- `keys[k]` (R26). -/
def State.key (s : State) (k : Key) : Bool := s.keys[k]

/-- `keys[k] <- p` (R26, R182). -/
def State.setKey (s : State) (k : Key) (p : Bool) : State := { s with keys := s.keys.set k p }

/-- `exec <- e` (R27). -/
def State.setExec (s : State) (e : ExecState) : State := { s with execState := e }

/-- The framebuffer replaced (R28). -/
def State.setFb (s : State) (f : Screen) : State := { s with fb := f }

/-- `draw_flag <- true` (R152, R157). -/
def State.markDraw (s : State) : State := { s with drawFlag := true }

/-- `RandomByte()`: the next free value (R123; log entry 7). -/
def State.randomByte (s : State) : Byte := Config.randomByte s.draws

/-- The random input moves on: the next execution reads a fresh value (R123). -/
def State.takeRandom (s : State) : State := { s with draws := s.draws + 1 }

/-- Taking a fatal error: `run <- Faulted(cause, addr, opcode)` and nothing else (R230). -/
def State.takeFault (s : State) (c : Cause) (addr opcode : Option Word) : State := { s with run := .faulted c addr opcode }

/-- `raise` in an instruction (R11): `s` is the state before the tick began, so `pc` is the instruction's address and no write has
to be undone; the opcode is the word of the instruction (log entry 10). -/
def State.raiseAt (s : State) (c : Cause) (i : Instr) : State := s.takeFault c (some s.pc) (some (encode i))

/-- The only way out of a fatal error: `RESET` sets every field of the record to its reset value, in any state (R231, R250). The
inputs still to come, the random source and the count of past `REFRESH` events are outside the machine (log entry 11). -/
def State.applyReset (s : State) : State :=
  { State.reset with inputs := s.inputs, draws := s.draws, refreshes := s.refreshes }

/-- The word at `pc`, big-endian, or none where `pc + 1 > 4095` (R52, R53, R190). -/
def State.fetch (s : State) : Option Word :=
  if inRange s.pc.toNat Config.instrBytes then some (wordOfBytes (s.mem.read s.pc.toNat) (s.mem.read (s.pc.toNat + 1))) else none

end Sys2Proof.Machine
end

