-- ==== Sys2Proof/Machine/Operands.lean ====
section
/-! DEFINITION. The operand forms of R72: registers (Ops), the quirk parameters' values, addresses `I + j` (R136), the register
block `V0..Vx`, the sprite bytes, the key a register names, the glyph address, the decimal digits. -/

namespace Sys2Proof.Machine

/-- The quirk parameters of this hardware: all `false`, the behaviour of the instruction table (R6; log entry 9). -/
def quirks : Config.Quirks := { logicResetsVF := false, shiftUsesVy := false, drawWrapsPixels := false }

/-- The base of every data access: `I` as an unbounded integer, to which an offset is added without reduction (R53, R136). -/
def State.base (s : State) : Nat := s.I.toNat

/-- `V0..Vx`, ascending, as `Fx55` stores them (R134). -/
def State.regsUpTo (s : State) (x : Reg) : List Byte := s.V.toList.take (x.val + 1)

/-- `V[i] <- MemRead(I + i, 1)` for `i` from 0 to `x` (R135). -/
def State.loadRegsUpTo (s : State) (x : Reg) : State :=
  { s with V := Vector.ofFn fun i : Fin 16 => if i ≤ x then s.mem.read (s.base + i.val) else s.V[i] }

/-- The `n` sprite bytes at `I`; no memory access when `n = 0` (R157). -/
def State.sprite (s : State) (n : Nat) : List Byte := s.readBytes s.base n

/-- The key whose index `Vx` holds, none where `Vx > 15` (R170, R171). -/
def State.keyOf (s : State) (x : Reg) : Option Key :=
  if h : (s.reg x).toNat < 16 then some ⟨(s.reg x).toNat, h⟩ else none

/-- The address of the glyph of a digit, exact, the whole byte used (R132). -/
def glyphAddress (v : Byte) : Word := BitVec.ofNat 16 (Config.fontBase + Config.glyphBytes * v.toNat)

/-- Hundreds, tens, ones of a byte, each a binary value (R133). -/
def bcdDigits (v : Byte) : List Byte :=
  [BitVec.ofNat 8 (v.toNat / 100), BitVec.ofNat 8 (v.toNat / 10 % 10), BitVec.ofNat 8 (v.toNat % 10)]

/-- An 8-bit value added to a 16-bit one, modulo 65536 (R97, R131). -/
def addByte (w : Word) (v : Byte) : Word := w + v.setWidth 16

/-- Byte `j` of the font: four free glyph pixels in the high nibble, 0 in the low one (R33; log entry 8). -/
def fontByte (j : Nat) : Byte := BitVec.ofNat 8 ((Config.glyphRow j).toNat * 16)

/-- The 80 font bytes, glyph 0 first (R33). -/
def fontSet : List Byte := (List.range Config.fontBytes).map fontByte

end Sys2Proof.Machine
end

