-- ==== Sys2Proof/Machine/Flags.lean ====
section
/-! DEFINITION. Every value an instruction writes to `VF` as a flag (R21, R112). -/

namespace Sys2Proof.Machine

/-- A flag is exactly 0 or 1 (R21). -/
def flagByte (b : Bool) : Byte := if b then 1 else 0

/-- `8xy4`: 1 if the exact sum exceeds 255 (R112 a, R117). -/
def carryFlag (a b : Byte) : Byte := flagByte (decide (255 < a.toNat + b.toNat))

/-- `8xy5`, `8xy7`: 1 if minuend `m` is at least subtrahend `s`, no borrow (R112 b, R118, R120). -/
def noBorrowFlag (m s : Byte) : Byte := flagByte (decide (s.toNat ≤ m.toNat))

/-- `8xy6`: bit 0 of the value, before the shift (R119). -/
def shrFlag (t : Byte) : Byte := t &&& 1

/-- `8xyE`: bit 7 of the value, before the shift (R121). -/
def shlFlag (t : Byte) : Byte := t >>> 7

/-- `Dxyn`: 1 on collision (R157). -/
def collisionFlag (c : Bool) : Byte := flagByte c

/-- `8xy1`, `8xy2`, `8xy3`: `VF <- 0` under `QUIRK_LOGIC_RESETS_VF`, else untouched (R6, R114). -/
def State.logicFlag (s : State) (q : Config.Quirks) : State := if q.logicResetsVF then s.setReg VF 0 else s

end Sys2Proof.Machine
end

