-- ==== Sys2Proof/Machine/Flow.lean ====
section
/-! DEFINITION. Control transfer (40_flow.md): `00EE 1nnn 2nnn 3xkk 4xkk 5xy0 9xy0 Bnnn`. In every meaning `s` is the state before
the tick, so `s.pc` is the address `a` of the instruction; `s.advance` is the state its pseudocode starts from (R13, R190). -/

namespace Sys2Proof.Machine

/-- `00EE`: pop the return address into `pc`; `StackUnderflow` when nothing is on the stack (R90). -/
def execRet (s : State) : Result :=
  if h : 0 < s.SP.val then .next (s.advance.pop.setPc (s.top h)) else .next (s.raiseAt .stackUnderflow .ret)

/-- `1nnn` (R91). -/
def execJp (nnn : Word) (s : State) : Result := .next (s.advance.setPc nnn)

/-- `2nnn`: push the address after the call, then jump; `StackOverflow` when 16 entries are in use (R92). -/
def execCall (nnn : Word) (s : State) : Result :=
  if h : s.advance.SP.val < Config.stackDepth then .next ((s.advance.push s.advance.pc h).setPc nnn)
  else .next (s.raiseAt .stackOverflow (.call nnn))

/-- `3xkk` (R93). -/
def execSeImm (x : Reg) (kk : Byte) (s : State) : Result := .next (s.advance.skipIf (decide (s.reg x = kk)))

/-- `4xkk` (R94). -/
def execSneImm (x : Reg) (kk : Byte) (s : State) : Result := .next (s.advance.skipIf (decide (s.reg x ≠ kk)))

/-- `5xy0` (R95). -/
def execSeReg (x y : Reg) (s : State) : Result := .next (s.advance.skipIf (decide (s.reg x = s.reg y)))

/-- `9xy0` (R96). -/
def execSneReg (x y : Reg) (s : State) : Result := .next (s.advance.skipIf (decide (s.reg x ≠ s.reg y)))

/-- `Bnnn`: the sum is not masked (R97). -/
def execJpV0 (nnn : Word) (s : State) : Result := .next (s.advance.setPc (addByte nnn (s.reg V0)))

end Sys2Proof.Machine
end

