-- ==== Sys2Proof/Machine/Alu.lean ====
section
/-! DEFINITION. Register load, arithmetic, logic, shift, random (41_alu.md): `6xkk 7xkk 8xy0 8xy1 8xy2 8xy3 8xy4 8xy5 8xy6 8xy7 8xyE
Cxkk`. The assignments run left to right, each reading the registers as the one before left them (R122). The shared operations take
the quirk parameters as an argument, so that both values of each (R6) are here; the meanings use this hardware's. -/

namespace Sys2Proof.Machine

/-- The result first, the flag second: `8xy4`, `8xy5`, `8xy7` (R122). -/
def State.resultThenFlag (s : State) (x : Reg) (result flag : Byte) : State := (s.setReg x result).setReg VF flag

/-- `8xy1`, `8xy2`, `8xy3`: the result, then the quirk's reset of `VF` (R114, R122). -/
def State.logicOp (s : State) (q : Config.Quirks) (x : Reg) (result : Byte) : State := (s.setReg x result).logicFlag q

/-- `8xy6` (R119): `VF` first; by default the shift reads `Vx` again, which differs only when `x = F`; under the quirk it shifts the
value of `Vy` read at the start. -/
def State.shiftRight (s : State) (q : Config.Quirks) (x y : Reg) : State :=
  if q.shiftUsesVy then (s.setReg VF (shrFlag (s.reg y))).setReg x (s.reg y >>> 1)
  else
    let f := s.setReg VF (shrFlag (s.reg x))
    f.setReg x (f.reg x >>> 1)

/-- `8xyE` (R121), in the order of `8xy6`. -/
def State.shiftLeft (s : State) (q : Config.Quirks) (x y : Reg) : State :=
  if q.shiftUsesVy then (s.setReg VF (shlFlag (s.reg y))).setReg x (s.reg y <<< 1)
  else
    let f := s.setReg VF (shlFlag (s.reg x))
    f.setReg x (f.reg x <<< 1)

/-- `6xkk` (R110). -/
def execLdImm (x : Reg) (kk : Byte) (s : State) : Result := .next (s.advance.setReg x kk)

/-- `7xkk`: no flag (R111). -/
def execAddImm (x : Reg) (kk : Byte) (s : State) : Result := .next (s.advance.setReg x (s.reg x + kk))

/-- `8xy0` (R113). -/
def execLdReg (x y : Reg) (s : State) : Result := .next (s.advance.setReg x (s.reg y))

/-- `8xy1` (R114). -/
def execOrReg (x y : Reg) (s : State) : Result := .next (s.advance.logicOp quirks x (s.reg x ||| s.reg y))

/-- `8xy2` (R115). -/
def execAndReg (x y : Reg) (s : State) : Result := .next (s.advance.logicOp quirks x (s.reg x &&& s.reg y))

/-- `8xy3` (R116). -/
def execXorReg (x y : Reg) (s : State) : Result := .next (s.advance.logicOp quirks x (s.reg x ^^^ s.reg y))

/-- `8xy4` (R117). -/
def execAddReg (x y : Reg) (s : State) : Result :=
  .next (s.advance.resultThenFlag x (s.reg x + s.reg y) (carryFlag (s.reg x) (s.reg y)))

/-- `8xy5`: minuend `Vx` (R118). -/
def execSubReg (x y : Reg) (s : State) : Result :=
  .next (s.advance.resultThenFlag x (s.reg x - s.reg y) (noBorrowFlag (s.reg x) (s.reg y)))

/-- `8xy6` (R119). -/
def execShrReg (x y : Reg) (s : State) : Result := .next (s.advance.shiftRight quirks x y)

/-- `8xy7`: minuend `Vy` (R120). -/
def execSubnReg (x y : Reg) (s : State) : Result :=
  .next (s.advance.resultThenFlag x (s.reg y - s.reg x) (noBorrowFlag (s.reg y) (s.reg x)))

/-- `8xyE` (R121). -/
def execShlReg (x y : Reg) (s : State) : Result := .next (s.advance.shiftLeft quirks x y)

/-- `Cxkk`: `kk` AND a fresh free byte (R123; log entry 7). -/
def execRnd (x : Reg) (kk : Byte) (s : State) : Result := .next (s.advance.takeRandom.setReg x (kk &&& s.randomByte))

end Sys2Proof.Machine
end

