-- ==== Sys2Proof/Machine/Display.lean ====
section
/-! DEFINITION. The framebuffer and its instructions (43_display.md): `clear` (R151), `draw` (R153), the read access (R158), `00E0`
and `Dxyn`. -/

namespace Sys2Proof.Machine

/-- The all-unlit grid `clear()` leaves (R151). -/
def Screen.blank : Screen := Vector.replicate 32 (Vector.replicate 64 false)

/-- `fb[row][col]` (R150); outside the grid there is no pixel and the answer is unlit. -/
def Screen.pixel (f : Screen) (row col : Nat) : Bool :=
  if h : row < Config.fbHeight ∧ col < Config.fbWidth then (f[row]'h.1)[col]'h.2 else false

/-- `fb[row][col] <- not fb[row][col]` (R153); nothing outside the grid. -/
def Screen.flip (f : Screen) (row col : Nat) : Screen :=
  if h : row < Config.fbHeight ∧ col < Config.fbWidth then
    f.set row ((f[row]'h.1).set col (!(f[row]'h.1)[col]'h.2) h.2) h.1
  else f

/-- A coordinate of the scan: past the edge it is skipped, or wrapped under `QUIRK_DRAW_WRAPS_PIXELS` (R153, R155). -/
def scanCoord (wraps : Bool) (size c : Nat) : Option Nat :=
  if size ≤ c then (if wraps then some (c % size) else none) else some c

/-- One sprite bit at column offset `c` of the row at `row`: bit `7 - c` of the byte (R154); a set bit XORs the pixel and collides
if the pixel was lit (R156). The pair is the grid and the sticky collision. -/
def drawBit (wraps : Bool) (row cx : Nat) (b : Byte) (acc : Screen × Bool) (c : Nat) : Screen × Bool :=
  match scanCoord wraps Config.fbWidth (cx + c) with
  | none => acc
  | some col => if b.getLsbD (7 - c) then (acc.1.flip row col, acc.2 || acc.1.pixel row col) else acc

/-- The eight bits of a sprite row, left to right (R153). -/
def drawRow (wraps : Bool) (row cx : Nat) (b : Byte) (acc : Screen × Bool) : Screen × Bool :=
  (List.range Config.spriteWidth).foldl (drawBit wraps row cx b) acc

/-- The rows of a sprite from row coordinate `y` on, top to bottom (R153). -/
def drawRows (wraps : Bool) (cx : Nat) : Nat → List Byte → Screen × Bool → Screen × Bool
  | _, [], acc => acc
  | y, b :: bs, acc =>
    match scanCoord wraps Config.fbHeight y with
    | none => drawRows wraps cx (y + 1) bs acc
    | some row => drawRows wraps cx (y + 1) bs (drawRow wraps row cx b acc)

/-- `draw(x0, y0, sprite)`: only the anchor wraps; the answer is the new grid and the collision (R153). -/
def draw (q : Config.Quirks) (f : Screen) (x0 y0 : Byte) (sprite : List Byte) : Screen × Bool :=
  drawRows q.drawWrapsPixels (x0.toNat % Config.fbWidth) (y0.toNat % Config.fbHeight) sprite (f, false)

/-- The read access of the host: the 2048 pixels, row-major (R150, R158). -/
def Screen.pixels (f : Screen) : List Bool := f.toList.flatMap fun row => row.toList

/-- `00E0`: clear the grid, mark draw (R152). -/
def execCls (s : State) : Result := .next (s.advance.setFb Screen.blank).markDraw

/-- The effect of `Dxyn` once its bytes are in range: coordinates read before `VF` is written (R157). -/
def State.drawSprite (s : State) (q : Config.Quirks) (x y : Reg) (n : Nat) : State :=
  let r := draw q s.fb (s.reg x) (s.reg y) (s.sprite n)
  ((s.setFb r.1).setReg VF (collisionFlag r.2)).markDraw

/-- `Dxyn`: all `n` bytes are checked, clipped or not; `n = 0` reads nothing and never faults (R157). -/
def execDrw (x y : Reg) (n : Nat) (s : State) : Result :=
  if 0 < n ∧ inRange s.base n = false then .next (s.raiseAt .memOutOfRange (.drw x y n))
  else .next (s.advance.drawSprite quirks x y n)

end Sys2Proof.Machine
end

