-- ==== Sys2Proof/Machine/IndexMemory.lean ====
section
/-! DEFINITION. Address register and memory transfer (42_index_memory.md): `Annn Fx1E Fx29 Fx33 Fx55 Fx65`. The range check covers
every byte of the access and comes before any write (R53, R222). -/

namespace Sys2Proof.Machine

/-- `Annn` (R130). -/
def execLdI (nnn : Word) (s : State) : Result := .next (s.advance.setI nnn)

/-- `Fx1E`: modulo 65536, no flag, no check (R131). -/
def execAddI (x : Reg) (s : State) : Result := .next (s.advance.setI (addByte s.I (s.reg x)))

/-- `Fx29` (R132). -/
def execLdF (x : Reg) (s : State) : Result := .next (s.advance.setI (glyphAddress (s.reg x)))

/-- `Fx33`: three digits at `I`, `I+1`, `I+2`; `I` unchanged (R133). -/
def execLdB (x : Reg) (s : State) : Result :=
  if inRange s.base 3 then .next (s.advance.writeBytes s.base (bcdDigits (s.reg x)))
  else .next (s.raiseAt .memOutOfRange (.ldB x))

/-- `Fx55`: `V0..Vx` at `I..I+x`, then `I <- I + x + 1` (R134). -/
def execStoreRegs (x : Reg) (s : State) : Result :=
  if inRange s.base (x.val + 1) then
    .next ((s.advance.writeBytes s.base (s.regsUpTo x)).setI (BitVec.ofNat 16 (s.base + x.val + 1)))
  else .next (s.raiseAt .memOutOfRange (.storeRegs x))

/-- `Fx65`: `V0..Vx` from `I..I+x`, then `I <- I + x + 1` (R135). -/
def execLoadRegs (x : Reg) (s : State) : Result :=
  if inRange s.base (x.val + 1) then
    .next ((s.advance.loadRegsUpTo x).setI (BitVec.ofNat 16 (s.base + x.val + 1)))
  else .next (s.raiseAt .memOutOfRange (.loadRegs x))

end Sys2Proof.Machine
end

