-- ==== Sys2Proof/Machine/KeypadTimers.lean ====
section
/-! DEFINITION. Keypad and timer instructions (44_keypad_timers.md): `Ex9E ExA1 Fx07 Fx0A Fx15 Fx18`. -/

namespace Sys2Proof.Machine

/-- `Ex9E`: skip if key `Vx` is pressed; `KeyIndexOutOfRange` when `Vx > 15` (R170). -/
def execSkp (x : Reg) (s : State) : Result :=
  match s.keyOf x with
  | some k => .next (s.advance.skipIf (s.key k))
  | none => .next (s.raiseAt .keyIndexOutOfRange (.skp x))

/-- `ExA1`: skip if key `Vx` is not pressed; `KeyIndexOutOfRange` when `Vx > 15` (R171). -/
def execSknp (x : Reg) (s : State) : Result :=
  match s.keyOf x with
  | some k => .next (s.advance.skipIf (!s.key k))
  | none => .next (s.raiseAt .keyIndexOutOfRange (.sknp x))

/-- `Fx07` (R173). -/
def execLdVxDT (x : Reg) (s : State) : Result := .next (s.advance.setReg x s.DT)

/-- `Fx0A`: `pc` stays past the instruction; the `KEY` release that ends the wait writes `Vx` (R172, R182). -/
def execLdVxK (x : Reg) (s : State) : Result := .next (s.advance.setExec (.waitingForKey x))

/-- `Fx15` (R174). -/
def execLdDTVx (x : Reg) (s : State) : Result := .next (s.advance.setDT (s.reg x))

/-- `Fx18` (R175). -/
def execLdSTVx (x : Reg) (s : State) : Result := .next (s.advance.setST (s.reg x))

end Sys2Proof.Machine
end

