-- ==== Sys2Proof/Machine/Scheduler.lean ====
section
/-! DEFINITION. The steps of the machine around an instruction: `tick` (R190), the `FRAME` step (R196) as one atomic function and as
the sequence of ticks the model's step takes, the host events (R182, R201 to R206, R250), and
what the host can observe (R207). -/

namespace Sys2Proof.Machine

/-- An outcome's next state, changed. -/
def onNext (r : Result) (f : State → State) : Result :=
  match r with
  | .next t => .next (f t)
  | .fault e => .fault e
  | .refused e => .refused e

/-- `tick()` with `exec = Running`: fetch, decode, execute; a fetch beyond memory and an illegal word are fatal errors (R190, R221,
R222). The advance of `pc` is `State.advance` inside each meaning. -/
def tickRunning (s : State) : Result :=
  match s.fetch with
  | none => .next (s.takeFault .memOutOfRange (some s.pc) none)
  | some op =>
    match decode op with
    | .error _ => .next (s.takeFault .decodeError (some s.pc) (some op))
    | .ok i => exec i s

/-- `tick()`: one instruction, or nothing at all while waiting for a key (R190, R191). -/
def tick (s : State) : Result :=
  match s.execState with
  | .running => tickRunning s
  | .waitingForKey _ => .next s

/-- One timer, down by 1 while greater than zero (R197). -/
def countdown (v : Byte) : Byte := if v = 0 then 0 else v - 1

/-- Both timers, once per frame (R197). -/
def State.countTimers (s : State) : State := { s with DT := countdown s.DT, ST := countdown s.ST }

/-- One `REFRESH` event is emitted (R198). -/
def State.emitRefresh (s : State) : State := { s with refreshes := s.refreshes + 1 }

/-- The frame is over: host events can take effect again, and the draw flag does not survive (R32 a, R199). -/
def State.leaveFrame (s : State) : State := { s with phase := .between, drawFlag := false }

/-- A frame begins: `count = 0`, no draw yet (R196). -/
def State.enterFrame (s : State) : State := { s with phase := .burst 0, drawFlag := false }

/-- The end of a frame of an `Active` machine: timers, `REFRESH` (R196). -/
def State.closeFrame (s : State) : State := s.countTimers.emitRefresh.leaveFrame

/-- The loop of R196, with `k` more ticks allowed: it goes on while `exec = Running`, and ends after a fatal error or a draw. -/
def burstLoop : Nat → State → Result
  | 0, s => .next s
  | k + 1, s =>
    if s.execState = .running then
      match tick s with
      | .next t => if t.run = .active ∧ t.drawFlag = false then burstLoop k t else .next t
      | .fault e => .fault e
      | .refused e => .refused e
    else .next s

/-- `FRAME` as the one atomic step R196 gives: up to 12 ticks, then, unless the machine has faulted, the timers and the `REFRESH`;
nothing when `run` is not `Active` (R196, R200 b, R206). -/
def frame (s : State) : Result :=
  if s.run = .active then
    onNext (burstLoop Config.ticksPerFrame { s with drawFlag := false }) fun t =>
      if t.run = .active then t.closeFrame else t.leaveFrame
  else .next s

/-- After a tick of a burst: one more is counted, or the frame ends at once if the tick faulted (R196, R200 b). -/
def State.afterTick (count : Nat) (t : State) : State :=
  if t.run = .active then { t with phase := .burst (count + 1) } else t.leaveFrame

/-- The burst goes on: fewer than 12 ticks done, `exec = Running`, and the last tick drew nothing (R196). -/
def State.burstGoesOn (s : State) (count : Nat) : Bool :=
  decide (count < Config.ticksPerFrame) && decide (s.execState = .running) && !s.drawFlag

/-- One step inside a frame: the next tick, or the frame's end (R196). A frame of a machine that is not `Active` ends (log
entry 1). -/
def burstStep (count : Nat) (s : State) : Result :=
  if s.run = .active then
    if s.burstGoesOn count then onNext (tick s) (State.afterTick count) else .next s.closeFrame
  else .next s.leaveFrame

/-- A frame boundary: an `Active` machine begins a frame; otherwise nothing changes (R196, R206). -/
def onFrame (s : State) : State := if s.run = .active then s.enterFrame else s

/-- A protocol violation: no address, no opcode, nothing else changes (R204, R225). -/
def protocolViolation (s : State) : State := s.takeFault .protocolViolation none none

/-- `START` (R203, R204, R206). -/
def onStart (s : State) : State :=
  match s.run with
  | .powerOn => { s with run := .active }
  | .active => protocolViolation s
  | .stopped => s
  | .faulted _ _ _ => s

/-- `STOP` (R204, R205, R206). -/
def onStop (s : State) : State :=
  match s.run with
  | .powerOn => protocolViolation s
  | .active => { s with run := .stopped }
  | .stopped => s
  | .faulted _ _ _ => s

/-- A key index as the byte a register receives (R182). -/
def keyByte (k : Key) : Byte := BitVec.ofNat 8 k.val

/-- What a key event does to an `Active` machine: `keys[k]` is set, and a release ends a wait, whichever key it names (R182, R176). -/
def State.handleKey (s : State) (k : Key) (pressed : Bool) : State :=
  match s.execState, pressed with
  | .waitingForKey r, false => ((s.setKey k false).setReg r (keyByte k)).setExec .running
  | _, p => s.setKey k p

/-- `KEY(k, pressed)` (R182, R204, R206). -/
def onKey (k : Key) (pressed : Bool) (s : State) : State :=
  match s.run with
  | .powerOn => protocolViolation s
  | .active => s.handleKey k pressed
  | .stopped => s
  | .faulted _ _ _ => s

/-- What `LOAD` does when legal: font at 0, ROM at 0x200, truncated with a warning (R201, R202). -/
def State.loadImage (s : State) (font rom : List Byte) : State :=
  { (s.writeBytes Config.fontBase font).writeBytes Config.progBase (rom.take Config.progSpace) with
    loadTruncated := s.loadTruncated || decide (Config.progSpace < rom.length)
    loaded := true }

/-- `LOAD(rom)`: in `PowerOn`, once; any other is refused (R201, D21, U11; log entry 5). -/
def onLoad (rom : List Byte) (s : State) : Result :=
  if s.run = .powerOn ∧ s.loaded = false then .next (s.loadImage fontSet rom) else .refused .loadNotLegal

/-- An input taking effect between frames (R7, R199). -/
def onEvent (e : Event) (s : State) : Result :=
  match e with
  | .reset => .next s.applyReset
  | .load rom => onLoad rom s
  | .start => .next (onStart s)
  | .key k pressed => .next (onKey k pressed s)
  | .stop => .next (onStop s)
  | .frame => .next (onFrame s)

/-- One step between frames: the first input still to come; when the host sends nothing more, time goes on and the next frame
boundary comes (R199, R200; log entry 3). -/
def hostStep (s : State) : Result :=
  match s.inputs with
  | [] => .next (onFrame s)
  | e :: rest => onEvent e { s with inputs := rest }

/-- The items of the state the host can observe: the grid, the `REFRESH` events, `run` with its record, `load_truncated`; not memory,
registers, `pc`, the stack, the timers or `keys` (R207, D1). -/
def State.hostView (s : State) : HostView :=
  { grid := s.fb.pixels, refreshes := s.refreshes, run := s.run, loadTruncated := s.loadTruncated }

/-- What the host sees: its view of the state between frames, and nothing while a `FRAME` step is in progress, which is atomic for
it (R158, R199; log entry 1). -/
def State.hostSees (s : State) : Option HostView :=
  match s.phase with
  | .between => some s.hostView
  | .burst _ => none

end Sys2Proof.Machine
end

