-- ==== Sys2Proof/Machine/Step.lean ====
section
/-! DEFINITION. One step of the machine, and the placing of an instruction where the next step fetches. -/

namespace Sys2Proof.Machine

/-- One step: a tick or the end of a frame inside a burst, an input between frames (R7; log entry 1). -/
def step (s : State) : Host.Outcome State Fault Refusal :=
  match s.phase with
  | .between => hostStep s
  | .burst count => burstStep count s

/-- Where `withFetchWord` places an instruction: at `pc`, or at the reset `pc` where no instruction can be fetched at `pc` (log
entry 13). -/
def State.fetchPlace (s : State) : Word := if inRange s.pc.toNat Config.instrBytes then s.pc else 0x200

/-- `s` with the table word `w` stored where the next step fetches, and the machine inside a burst, `Active` and `Running`, so that
the very next step runs it (log entry 13). -/
def State.withFetchWord (s : State) (nbits w : Nat) : State :=
  let op : Word := BitVec.ofNat 16 (w % 2 ^ nbits)
  { s.writeBytes s.fetchPlace.toNat [highByte op, lowByte op] with
    pc := s.fetchPlace
    run := .active
    execState := .running
    phase := .burst 0
    drawFlag := false }

end Sys2Proof.Machine
end

