-- ==== Sys2Proof/Safety.lean ====
section
/-! DEFINITION. The terms claims are stated in: what an instruction leaves unchanged, the invariant of the machine, what a fault
record says, and what a safe run is. -/

namespace Sys2Proof.Machine

/-- The kinds of state beside the general registers, `pc` and the draw flag. -/
inductive StatePart where
  /-- every byte of memory -/
  | memory
  /-- `I` -/
  | index
  /-- the stack entries and `SP` -/
  | stack
  /-- `DT` -/
  | delay
  /-- `ST` -/
  | sound
  /-- `keys` -/
  | keypad
  /-- `exec` -/
  | execution
  /-- `fb` -/
  | screen
  /-- `run`, with the fault record -/
  | lifecycle
  /-- `load_truncated` and `loaded` -/
  | image
  /-- the count of random bytes taken -/
  | random
  /-- the model's scheduling fields: `phase`, `inputs`, `refreshes` -/
  | schedule
deriving DecidableEq, Repr

/-- `t` holds in this part what `s` holds. -/
def StatePart.same : StatePart → State → State → Prop
  | .memory, s, t => ∀ a, t.mem.read a = s.mem.read a
  | .index, s, t => t.I = s.I
  | .stack, s, t => t.stack = s.stack ∧ t.SP = s.SP
  | .delay, s, t => t.DT = s.DT
  | .sound, s, t => t.ST = s.ST
  | .keypad, s, t => t.keys = s.keys
  | .execution, s, t => t.execState = s.execState
  | .screen, s, t => t.fb = s.fb
  | .lifecycle, s, t => t.run = s.run
  | .image, s, t => t.loadTruncated = s.loadTruncated ∧ t.loaded = s.loaded
  | .random, s, t => t.draws = s.draws
  | .schedule, s, t => t.phase = s.phase ∧ t.inputs = s.inputs ∧ t.refreshes = s.refreshes

/-- The frame of an instruction: every general register outside `regs` and every part outside `parts` is as before; `pc` and the
draw flag may change. -/
def SameBut (regs : List Reg) (parts : List StatePart) (s t : State) : Prop :=
  (∀ r, r ∉ regs → t.reg r = s.reg r) ∧ ∀ p, p ∉ parts → p.same s t

/-- Every byte of memory outside the `n` bytes at `a` reads as before. -/
def SameMemoryBut (a n : Nat) (s t : State) : Prop :=
  ∀ b, b < a ∨ a + n ≤ b → t.mem.read b = s.mem.read b

/-- What is common to every instruction that does not set `pc` or mark draw: `pc` is two further and the draw flag is false (R23,
R190). -/
def Plain (s t : State) : Prop := t.pc = s.pc + 2 ∧ t.drawFlag = false

/-- The step ended in a fatal error of the instruction `w` at `pc`: nothing but `run` is changed (R11, R230). -/
def State.faultedAt (s : State) (c : Cause) (w : Word) : State := { s with run := .faulted c (some s.pc) (some w) }

/-- A set bit of the sprite lands on pixel `(col, row)`: row `r` and column offset `c` of the sprite, bit 7 leftmost, placed from the
wrapped anchor, clipped by default and wrapped under the quirk (R153, R154, R155; the bit order is the spec's own, log entry 16). -/
def SpriteHits (wraps : Bool) (x0 y0 : Byte) (sprite : List Byte) (row col : Nat) : Prop :=
  ∃ r c b, sprite[r]? = some b ∧ c < 8 ∧ b.getLsbD (7 - c) = true ∧
    (if wraps then row = (y0.toNat % 32 + r) % 32 ∧ col = (x0.toNat % 64 + c) % 64
     else row = y0.toNat % 32 + r ∧ col = x0.toNat % 64 + c)

/-- `run` is a fault record (R29, R230). -/
def State.isFaulted (s : State) : Bool :=
  match s.run with
  | .faulted _ _ _ => true
  | _ => false

/-- The invariant of the machine: facts the spec states of every state a run reaches. -/
structure State.Inv (s : State) : Prop where
  /-- memory is in canonical form, addresses below 4096 (R30, R50) -/
  memory : s.mem.wf = true
  /-- the largest value `pc` can ever hold is 0x10FE (R23) -/
  pc : s.pc.toNat ≤ 0x10FE
  /-- a stack entry is a value `2nnn` pushed, at most 4096 (R100) -/
  stack : ∀ j : Fin 16, (s.stack[j]).toNat ≤ 4096
  /-- a frame is in progress only while the machine is `Active` (R193, R196) -/
  frame : s.phase ≠ .between → s.run = .active
  /-- at most 12 ticks are done in a frame (R196) -/
  ticks : ∀ count, s.phase = .burst count → count ≤ 12
  /-- the draw flag does not survive the frame (R32 a) -/
  drawFlag : s.phase = .between → s.drawFlag = false
  /-- the truncation bit is set by a `LOAD` only (R31) -/
  truncated : s.loadTruncated = true → s.loaded = true

/-- What a fault record says (R220, R230): a protocol violation has neither address nor opcode; every other fault has the address
`pc` still holds, and an opcode, absent only where the word could not be fetched. -/
def State.FaultRecordOk (s : State) : Prop :=
  ∀ c addr opcode, s.run = .faulted c addr opcode →
    (c = .protocolViolation ∧ addr = none ∧ opcode = none) ∨
    (c ≠ .protocolViolation ∧ addr = some s.pc ∧
      (opcode = none → c = .memOutOfRange ∧ 4095 ≤ s.pc.toNat) ∧
      (∀ op, opcode = some op → s.pc.toNat ≤ 4094 ∧ s.fetch = some op))

/-- Before `START` everything but memory and the record of the `LOAD` is at its reset value (R193, R201, R252); the model's own
counts and inputs aside. -/
def State.FreshBeforeStart (s : State) : Prop :=
  s.run = .powerOn →
    s.V = State.reset.V ∧ s.I = State.reset.I ∧ s.pc = State.reset.pc ∧ s.stack = State.reset.stack ∧ s.SP = State.reset.SP ∧
    s.DT = State.reset.DT ∧ s.ST = State.reset.ST ∧ s.keys = State.reset.keys ∧ s.execState = State.reset.execState ∧
    s.fb = State.reset.fb ∧ s.phase = State.reset.phase ∧ s.drawFlag = State.reset.drawFlag

/-- The machine is in a self-jump: `Active` and `Running`, no input to come, and the word at `pc` is a jump to `pc` (R91, R208). Where
in a frame it is does not matter. -/
structure State.InSelfJump (s : State) : Prop where
  run : s.run = .active
  execState : s.execState = .running
  inputs : s.inputs = []
  fetchable : s.pc.toNat ≤ 4094
  word : decodeBytes (s.mem.read s.pc.toNat) (s.mem.read (s.pc.toNat + 1)) = .ok (.jp s.pc)

/-- `k` steps of the machine, stopping where a step gives no next state. -/
def runSteps : Nat → State → Result
  | 0, s => .next s
  | k + 1, s =>
    match step s with
    | .next t => runSteps k t
    | .fault e => .fault e
    | .refused e => .refused e

/-- A safe run of `k` steps: every step answers a next state and no state reached is `Faulted` (R208, R230: a correct program never
reaches a fault). -/
def SafeRun : Nat → State → Prop
  | 0, s => s.isFaulted = false
  | k + 1, s => s.isFaulted = false ∧ ∃ t, step s = .next t ∧ SafeRun k t

end Sys2Proof.Machine
end

