-- ==== Sys2Proof/Certificates/Slice0/Obligations.lean ====
section
/-! DEFINITION. The statements for the provers. Each docstring names the rules of spec/ it formalises; where one rests on a decision
the spec marks as its own (a D entry of 92_eei_decisions.md) or on a log entry of this model, it says so. -/

open Sys2Proof Sys2Proof.Machine

/-! ### Decoding and encoding -/

/-- Decoding the word of a well-formed instruction gives it back, every operand at every value its field admits (30_encoding.md). -/
def Obligations.DecodeInvertsEncode : Prop := ∀ i : Instr, i.wf = true → decode (encode i) = .ok i

/-- Every word that decodes is the word of the instruction it decodes to: no bit of a legal word is dropped, and each legal word has
one meaning (30_encoding.md). The opcode of a fault record rests on this (log entry 10). -/
def Obligations.EncodeInvertsDecode : Prop := ∀ (op : Word) (i : Instr), decode op = .ok i → encode i = op

/-- A word is legal exactly when `op & mask = match` for a row of the table; at most one row matches; and the row that matches bears
the name of the instruction decoded (R74, R76, the counts of R74 aside). -/
def Obligations.LegalExactlyWhenARowMatches : Prop :=
  ∀ op : Word,
    ((∃ i, decode op = .ok i) ↔ ∃ r, r ∈ opcodeTable ∧ r.holds op = true) ∧
    (∀ r r', r ∈ opcodeTable → r' ∈ opcodeTable → r.holds op = true → r'.holds op = true → r = r') ∧
    (∀ i r, decode op = .ok i → r ∈ opcodeTable → r.holds op = true → r.name = i.rowName)

/-- The illegal words, class by class, each rejected under its own name (R78, R79; strict matching is the spec's decision D8). -/
def Obligations.IllegalWordsByClass : Prop :=
  ∀ (op : Word) (e : Illegal), decode op = .error e ↔
    (e = .class0 ∧ op.toNat / 4096 = 0 ∧ op ≠ 0x00E0 ∧ op ≠ 0x00EE) ∨
    (e = .class5 ∧ op.toNat / 4096 = 5 ∧ op.toNat % 16 ≠ 0) ∨
    (e = .class8 ∧ op.toNat / 4096 = 8 ∧ op.toNat % 16 ∈ [0x8, 0x9, 0xA, 0xB, 0xC, 0xD, 0xF]) ∨
    (e = .class9 ∧ op.toNat / 4096 = 9 ∧ op.toNat % 16 ≠ 0) ∨
    (e = .classE ∧ op.toNat / 4096 = 14 ∧ op.toNat % 256 ∉ [0x9E, 0xA1]) ∨
    (e = .classF ∧ op.toNat / 4096 = 15 ∧
      op.toNat % 256 ∉ [0x07, 0x0A, 0x15, 0x18, 0x1E, 0x29, 0x33, 0x55, 0x65])

/-- One word of each format, written out from R76 and the fields of R12, decodes to the instruction it stands for. -/
def Obligations.SampleWordsDecode : Prop :=
  decode 0x00EE = .ok .ret ∧ decode 0x1ABC = .ok (.jp 0xABC) ∧ decode 0x3C7F = .ok (.seImm 12 0x7F) ∧
  decode 0x8AB4 = .ok (.addReg 10 11) ∧ decode 0xD12A = .ok (.drw 1 2 10) ∧ decode 0xEFA1 = .ok (.sknp 15) ∧
  decode 0xFF65 = .ok (.loadRegs 15) ∧ decode 0x0000 = .error .class0 ∧ decode 0x5121 = .error .class5

/-! ### The step and the tick -/

/-- Inside a frame, with fewer than 12 ticks done, no draw yet and the machine `Active` and `Running`, a step at a state whose two bytes
at `pc`, high byte first, decode to `i` is `exec i` at that state; around it the model counts the tick, or ends the frame when the
tick has faulted (R190, R196; log entry 1). -/
def Obligations.StepRunsTheDecodedInstruction : Prop :=
  ∀ (s : State) (count : Nat) (i : Instr),
    s.phase = .burst count → count < 12 → s.run = .active → s.execState = .running → s.drawFlag = false →
    s.pc.toNat ≤ 4094 → decodeBytes (s.mem.read s.pc.toNat) (s.mem.read (s.pc.toNat + 1)) = .ok i →
    ∃ t, exec i s = .next t ∧
      step s = .next (if t.run = .active then { t with phase := .burst (count + 1) }
        else { t with phase := .between, drawFlag := false })

/-- A fetch beyond memory is `MemOutOfRange` without an opcode; else an illegal word is `DecodeError` with the big-endian word; in both
nothing but `run` changes (R52, R221, R222, R229; D4, D6). -/
def Obligations.FetchFaultThenDecodeFault : Prop :=
  ∀ s : State, s.execState = .running →
    (4095 ≤ s.pc.toNat → tick s = .next { s with run := .faulted .memOutOfRange (some s.pc) none }) ∧
    (s.pc.toNat ≤ 4094 → ∀ (op : Word) (e : Illegal),
      op.toNat = (s.mem.read s.pc.toNat).toNat * 256 + (s.mem.read (s.pc.toNat + 1)).toNat → decode op = .error e →
      tick s = .next (s.faultedAt .decodeError op))

/-- While waiting for a key a tick does nothing at all, whatever lies at `pc`, and a frame executes no instruction: its next step is
its end, which counts each timer down by one while above zero and emits one `REFRESH` (R191, R196 c and d, R197; D14; log entries 1
and 12). -/
def Obligations.WaitingExecutesNothing : Prop :=
  ∀ (s : State) (r : Reg), s.execState = .waitingForKey r →
    tick s = .next s ∧
    ∀ count, s.phase = .burst count → s.run = .active →
      ∃ t, step s = .next t ∧ t.phase = .between ∧ t.pc = s.pc ∧ t.execState = s.execState ∧
        t.DT.toNat = s.DT.toNat - 1 ∧ t.ST.toNat = s.ST.toNat - 1 ∧ t.refreshes = s.refreshes + 1 ∧
        SameBut [] [.delay, .sound, .schedule] s t

/-- A tick of an `Active` machine whose draw flag is clear leaves it set exactly when the instruction executed is `00E0` or `Dxyn` and
did not fault (R192; log entry 2). -/
def Obligations.DrawFlagExactlyForDisplay : Prop :=
  ∀ s t : State, s.run = .active → s.drawFlag = false → tick s = .next t →
    (t.drawFlag = true ↔ s.execState = .running ∧ t.run = .active ∧
      ∃ op i, s.fetch = some op ∧ decode op = .ok i ∧ (i = .cls ∨ ∃ x y n, i = .drw x y n))

/-- Faults are precise: a tick after which an `Active` machine is not `Active` has changed nothing but `run`, which holds a fault
record with the address `pc` still holds (R11, R230; D4). -/
def Obligations.FaultsArePrecise : Prop :=
  ∀ s t : State, s.run = .active → tick s = .next t → t.run ≠ .active →
    ∃ c opcode, t = { s with run := .faulted c (some s.pc) opcode } ∧ c ≠ .protocolViolation

/-! ### Register load, arithmetic, logic, shift, random (41_alu.md) -/

/-- `6xkk`, `7xkk`, `8xy0`: encoding, result, no flag, nothing else changed, draw flag false (R110, R111, R113). -/
def Obligations.LoadAddAndMoveRegisters : Prop :=
  ∀ (s : State) (x y : Reg) (kk : Byte) (op : Word),
    (op.toNat = 0x6000 + 256 * x.val + kk.toNat → decode op = .ok (.ldImm x kk)) ∧
    (op.toNat = 0x7000 + 256 * x.val + kk.toNat → decode op = .ok (.addImm x kk)) ∧
    (op.toNat = 0x8000 + 256 * x.val + 16 * y.val → decode op = .ok (.ldReg x y)) ∧
    (∃ t, exec (.ldImm x kk) s = .next t ∧ t.reg x = kk ∧ Plain s t ∧ SameBut [x] [] s t) ∧
    (∃ t, exec (.addImm x kk) s = .next t ∧ (t.reg x).toNat = ((s.reg x).toNat + kk.toNat) % 256 ∧ Plain s t ∧
      SameBut [x] [] s t) ∧
    (∃ t, exec (.ldReg x y) s = .next t ∧ t.reg x = s.reg y ∧ Plain s t ∧ SameBut [x] [] s t)

/-- `8xy1`, `8xy2`, `8xy3` bit by bit: this hardware leaves `VF` untouched (unless it is `Vx`); under `QUIRK_LOGIC_RESETS_VF` the shared
operation ends with `VF = 0` (R114, R115, R116). -/
def Obligations.LogicIsBitwise : Prop :=
  ∀ (s : State) (x y : Reg) (op : Word),
    (op.toNat = 0x8001 + 256 * x.val + 16 * y.val → decode op = .ok (.orReg x y)) ∧
    (op.toNat = 0x8002 + 256 * x.val + 16 * y.val → decode op = .ok (.andReg x y)) ∧
    (op.toNat = 0x8003 + 256 * x.val + 16 * y.val → decode op = .ok (.xorReg x y)) ∧
    (∃ t, exec (.orReg x y) s = .next t ∧
      (∀ b, (t.reg x).getLsbD b = ((s.reg x).getLsbD b || (s.reg y).getLsbD b)) ∧ Plain s t ∧ SameBut [x] [] s t) ∧
    (∃ t, exec (.andReg x y) s = .next t ∧
      (∀ b, (t.reg x).getLsbD b = ((s.reg x).getLsbD b && (s.reg y).getLsbD b)) ∧ Plain s t ∧ SameBut [x] [] s t) ∧
    (∃ t, exec (.xorReg x y) s = .next t ∧
      (∀ b, (t.reg x).getLsbD b = ((s.reg x).getLsbD b ^^ (s.reg y).getLsbD b)) ∧ Plain s t ∧ SameBut [x] [] s t) ∧
    (∀ (q : Config.Quirks) (v : Byte), q.logicResetsVF = true →
      (s.logicOp q x v).reg VF = 0 ∧ (x ≠ VF → (s.logicOp q x v).reg x = v) ∧ SameBut [x, VF] [] s (s.logicOp q x v))

/-- `8xy4`: the wrapped sum, then the carry; with `x = F` the carry stays (R117). -/
def Obligations.AddRegistersWithCarry : Prop :=
  ∀ (s : State) (x y : Reg) (op : Word),
    (op.toNat = 0x8004 + 256 * x.val + 16 * y.val → decode op = .ok (.addReg x y)) ∧
    ∃ t, exec (.addReg x y) s = .next t ∧
      (x ≠ VF → (t.reg x).toNat = ((s.reg x).toNat + (s.reg y).toNat) % 256) ∧
      (t.reg VF).toNat = (if 255 < (s.reg x).toNat + (s.reg y).toNat then 1 else 0) ∧
      Plain s t ∧ SameBut [x, VF] [] s t

/-- `8xy5` and `8xy7`: the wrapped difference, then not-borrow; the minuend is `Vx` in the one and `Vy` in the other; with `x = F` the flag
stays (R118, R120). -/
def Obligations.SubtractWithNoBorrow : Prop :=
  ∀ (s : State) (x y : Reg) (op : Word),
    (op.toNat = 0x8005 + 256 * x.val + 16 * y.val → decode op = .ok (.subReg x y)) ∧
    (op.toNat = 0x8007 + 256 * x.val + 16 * y.val → decode op = .ok (.subnReg x y)) ∧
    (∃ t, exec (.subReg x y) s = .next t ∧
      (x ≠ VF → (t.reg x).toNat = (if (s.reg y).toNat ≤ (s.reg x).toNat then (s.reg x).toNat - (s.reg y).toNat
        else (s.reg x).toNat + 256 - (s.reg y).toNat)) ∧
      (t.reg VF).toNat = (if (s.reg y).toNat ≤ (s.reg x).toNat then 1 else 0) ∧ Plain s t ∧ SameBut [x, VF] [] s t) ∧
    (∃ t, exec (.subnReg x y) s = .next t ∧
      (x ≠ VF → (t.reg x).toNat = (if (s.reg x).toNat ≤ (s.reg y).toNat then (s.reg y).toNat - (s.reg x).toNat
        else (s.reg y).toNat + 256 - (s.reg x).toNat)) ∧
      (t.reg VF).toNat = (if (s.reg x).toNat ≤ (s.reg y).toNat then 1 else 0) ∧ Plain s t ∧ SameBut [x, VF] [] s t)

/-- `8xy6`: this hardware shifts `Vx` and ignores `y`, `VF` first, so `x = F` ends as 0; under `QUIRK_SHIFT_USES_VY` the shared operation shifts
`Vy` (R119). -/
def Obligations.ShiftRightByOne : Prop :=
  ∀ (s : State) (x y : Reg) (op : Word),
    (op.toNat = 0x8006 + 256 * x.val + 16 * y.val → decode op = .ok (.shrReg x y)) ∧
    (∃ t, exec (.shrReg x y) s = .next t ∧
      (t.reg x).toNat = (if x = VF then 0 else (s.reg x).toNat / 2) ∧ (x ≠ VF → (t.reg VF).toNat = (s.reg x).toNat % 2) ∧
      Plain s t ∧ SameBut [x, VF] [] s t) ∧
    (∀ q : Config.Quirks, q.shiftUsesVy = true →
      ((s.shiftRight q x y).reg x).toNat = (s.reg y).toNat / 2 ∧
      (x ≠ VF → ((s.shiftRight q x y).reg VF).toNat = (s.reg y).toNat % 2) ∧ SameBut [x, VF] [] s (s.shiftRight q x y))

/-- `8xyE`: this hardware shifts `Vx` and ignores `y`, `VF` first, so `x = F` ends as twice the bit shifted out; under
`QUIRK_SHIFT_USES_VY` the shared operation shifts `Vy` (R121). -/
def Obligations.ShiftLeftByOne : Prop :=
  ∀ (s : State) (x y : Reg) (op : Word),
    (op.toNat = 0x800E + 256 * x.val + 16 * y.val → decode op = .ok (.shlReg x y)) ∧
    (∃ t, exec (.shlReg x y) s = .next t ∧
      (t.reg x).toNat = (if x = VF then 2 * ((s.reg x).toNat / 128) else 2 * (s.reg x).toNat % 256) ∧
      (x ≠ VF → (t.reg VF).toNat = (s.reg x).toNat / 128) ∧ Plain s t ∧ SameBut [x, VF] [] s t) ∧
    (∀ q : Config.Quirks, q.shiftUsesVy = true →
      ((s.shiftLeft q x y).reg x).toNat = 2 * (s.reg y).toNat % 256 ∧
      (x ≠ VF → ((s.shiftLeft q x y).reg VF).toNat = (s.reg y).toNat / 128) ∧ SameBut [x, VF] [] s (s.shiftLeft q x y))

/-- `Cxkk`: a free byte, fresh at every execution, masked by `kk`; whatever the byte is, the bits clear in `kk` are clear in `Vx`
(R123, D16; log entry 7). -/
def Obligations.RandomByteIsMasked : Prop :=
  ∀ (s : State) (x : Reg) (kk : Byte),
    ∃ t, exec (.rnd x kk) s = .next t ∧ (∀ b, (t.reg x).getLsbD b = (kk.getLsbD b && (Config.randomByte s.draws).getLsbD b)) ∧
      (∀ b, kk.getLsbD b = false → (t.reg x).getLsbD b = false) ∧ t.draws = s.draws + 1 ∧ Plain s t ∧
      SameBut [x] [.random] s t

/-- `VF` as the second operand of a flag-writing instruction: the old `VF` is the operand, then `VF` becomes the flag (the column `y = F` of
R122; D9). -/
def Obligations.FlagRegisterAsSecondOperand : Prop :=
  ∀ (s : State) (x : Reg), x ≠ VF →
    (∃ t, exec (.addReg x VF) s = .next t ∧ (t.reg x).toNat = ((s.reg x).toNat + (s.reg VF).toNat) % 256 ∧
      (t.reg VF = 1 ∨ t.reg VF = 0) ∧ (t.reg VF = 1 ↔ 255 < (s.reg x).toNat + (s.reg VF).toNat)) ∧
    (∃ t, exec (.subReg x VF) s = .next t ∧ (t.reg VF = 1 ∨ t.reg VF = 0) ∧
      (t.reg VF = 1 ↔ (s.reg VF).toNat ≤ (s.reg x).toNat)) ∧
    (∃ t, exec (.subnReg x VF) s = .next t ∧ (t.reg VF = 1 ∨ t.reg VF = 0) ∧
      (t.reg VF = 1 ↔ (s.reg x).toNat ≤ (s.reg VF).toNat)) ∧
    (∀ y, exec (.shrReg x VF) s = exec (.shrReg x y) s ∧ exec (.shlReg x VF) s = exec (.shlReg x y) s)

/-! ### Control flow (40_flow.md) -/

/-- `1nnn`: `pc` becomes `nnn`, unchecked, and nothing else changes; a jump to itself leaves the state's `pc` where it was (R91). -/
def Obligations.JumpSetsPc : Prop :=
  ∀ (s : State) (nnn op : Word),
    (nnn.toNat < 4096 → op.toNat = 0x1000 + nnn.toNat → decode op = .ok (.jp nnn)) ∧
    ∃ t, exec (.jp nnn) s = .next t ∧ t.pc = nnn ∧ t.drawFlag = false ∧ SameBut [] [] s t

/-- `Bnnn`: the exact sum of `nnn` and `V0`, not masked, at most 0x10FE (R97, D29). -/
def Obligations.JumpWithOffsetIsNotMasked : Prop :=
  ∀ (s : State) (nnn : Word), nnn.toNat < 4096 →
    ∃ t, exec (.jpV0 nnn) s = .next t ∧ t.pc.toNat = nnn.toNat + (s.reg V0).toNat ∧ t.pc.toNat ≤ 0x10FE ∧
      t.drawFlag = false ∧ SameBut [] [] s t

/-- `3xkk`, `4xkk`, `5xy0`, `9xy0`: the next instruction is at `a + 4` when the condition holds and at `a + 2` when it fails; nothing else
changes (R93, R94, R95, R96). -/
def Obligations.SkipsOnComparison : Prop :=
  ∀ (s : State) (x y : Reg) (kk : Byte) (op : Word),
    (op.toNat = 0x3000 + 256 * x.val + kk.toNat → decode op = .ok (.seImm x kk)) ∧
    (op.toNat = 0x4000 + 256 * x.val + kk.toNat → decode op = .ok (.sneImm x kk)) ∧
    (op.toNat = 0x5000 + 256 * x.val + 16 * y.val → decode op = .ok (.seReg x y)) ∧
    (op.toNat = 0x9000 + 256 * x.val + 16 * y.val → decode op = .ok (.sneReg x y)) ∧
    (∀ n, 0 < n → n < 16 → op.toNat = 0x5000 + 256 * x.val + 16 * y.val + n → decode op = .error .class5) ∧
    (∀ n, 0 < n → n < 16 → op.toNat = 0x9000 + 256 * x.val + 16 * y.val + n → decode op = .error .class9) ∧
    (∃ t, exec (.seImm x kk) s = .next t ∧ t.pc = s.pc + (if s.reg x = kk then 4 else 2) ∧ t.drawFlag = false ∧
      SameBut [] [] s t) ∧
    (∃ t, exec (.sneImm x kk) s = .next t ∧ t.pc = s.pc + (if s.reg x = kk then 2 else 4) ∧ t.drawFlag = false ∧
      SameBut [] [] s t) ∧
    (∃ t, exec (.seReg x y) s = .next t ∧ t.pc = s.pc + (if s.reg x = s.reg y then 4 else 2) ∧ t.drawFlag = false ∧
      SameBut [] [] s t) ∧
    (∃ t, exec (.sneReg x y) s = .next t ∧ t.pc = s.pc + (if s.reg x = s.reg y then 2 else 4) ∧ t.drawFlag = false ∧
      SameBut [] [] s t)

/-- `2nnn`: with fewer than 16 entries in use it pushes the address after itself and jumps; with 16 it is a `StackOverflow` and nothing but
`run` changes (R92). -/
def Obligations.CallPushesReturnAddress : Prop :=
  ∀ (s : State) (nnn op : Word), nnn.toNat < 4096 → op.toNat = 0x2000 + nnn.toNat →
    decode op = .ok (.call nnn) ∧
    (s.SP.val < 16 → ∃ t, exec (.call nnn) s = .next t ∧ t.pc = nnn ∧ t.SP.val = s.SP.val + 1 ∧
      (∀ j : Fin 16, j.val = s.SP.val → t.stack[j] = s.pc + 2) ∧
      (∀ j : Fin 16, j.val ≠ s.SP.val → t.stack[j] = s.stack[j]) ∧ t.drawFlag = false ∧ SameBut [] [.stack] s t) ∧
    (s.SP.val = 16 → exec (.call nnn) s = .next (s.faultedAt .stackOverflow op))

/-- `00EE`: with an entry in use it pops it into `pc` as it is, the entry keeping its content; with none it is a `StackUnderflow` and nothing but
`run` changes (R90). -/
def Obligations.ReturnPopsReturnAddress : Prop :=
  ∀ s : State,
    decode 0x00EE = .ok .ret ∧
    (0 < s.SP.val → ∃ t, exec .ret s = .next t ∧ t.SP.val = s.SP.val - 1 ∧
      (∀ j : Fin 16, j.val = t.SP.val → t.pc = s.stack[j]) ∧ t.stack = s.stack ∧ t.drawFlag = false ∧
      SameBut [] [.stack] s t) ∧
    (s.SP.val = 0 → exec .ret s = .next (s.faultedAt .stackUnderflow 0x00EE))

/-- The call and return law: after a call with fewer than 16 entries in use, a return executed in any state with the stack as the call left it
continues after the call, at the depth before it (R99, which the spec derives from R90 and R92). -/
def Obligations.CallThenReturn : Prop :=
  ∀ (s t u : State) (nnn : Word), s.SP.val < 16 → exec (.call nnn) s = .next t → u.SP = t.SP → u.stack = t.stack →
    ∃ v, exec .ret u = .next v ∧ v.pc = s.pc + 2 ∧ v.SP = s.SP

/-! ### Address register and memory (42_index_memory.md) -/

/-- `Annn` (R130). -/
def Obligations.LoadIndexRegister : Prop :=
  ∀ (s : State) (nnn op : Word),
    (nnn.toNat < 4096 → op.toNat = 0xA000 + nnn.toNat → decode op = .ok (.ldI nnn)) ∧
    ∃ t, exec (.ldI nnn) s = .next t ∧ t.I = nnn ∧ Plain s t ∧ SameBut [] [.index] s t

/-- `Fx1E` adds modulo 65536 and writes no flag; `Fx29` is five times the whole byte, exact (R131, D11; R132, D12). -/
def Obligations.IndexArithmetic : Prop :=
  ∀ (s : State) (x : Reg),
    (∃ t, exec (.addI x) s = .next t ∧ t.I.toNat = (s.I.toNat + (s.reg x).toNat) % 65536 ∧ Plain s t ∧
      SameBut [] [.index] s t) ∧
    (∃ t, exec (.ldF x) s = .next t ∧ t.I.toNat = 5 * (s.reg x).toNat ∧ Plain s t ∧ SameBut [] [.index] s t)

/-- `Fx33` in canonical memory: hundreds, tens, ones at `I`, `I+1`, `I+2`, every other byte and `I` as before; when `I > 4093` a
`MemOutOfRange` with no byte written (R133), and nothing but `run` changed (the precise fault of R11 is the spec's decision D4; log
entry 4). -/
def Obligations.StoreDecimalDigits : Prop :=
  ∀ (s : State) (x : Reg) (op : Word), s.mem.wf = true → op.toNat = 0xF033 + 256 * x.val →
    decode op = .ok (.ldB x) ∧
    (s.I.toNat ≤ 4093 → ∃ t, exec (.ldB x) s = .next t ∧
      (t.mem.read s.I.toNat).toNat = (s.reg x).toNat / 100 ∧
      (t.mem.read (s.I.toNat + 1)).toNat = (s.reg x).toNat / 10 % 10 ∧
      (t.mem.read (s.I.toNat + 2)).toNat = (s.reg x).toNat % 10 ∧
      SameMemoryBut s.I.toNat 3 s t ∧ t.mem.wf = true ∧ Plain s t ∧ SameBut [] [.memory] s t) ∧
    (4093 < s.I.toNat → exec (.ldB x) s = .next (s.faultedAt .memOutOfRange op))

/-- `Fx55` in canonical memory: `V0..Vx` at `I..I+x`, every other byte as before, `I` advanced by `x + 1`; when `I + x > 4095` a
`MemOutOfRange` with no byte written and `I` unchanged (R134), and nothing but `run` changed (the precise fault of R11 is the spec's
decision D4; log entry 4). -/
def Obligations.StoreRegisterBlock : Prop :=
  ∀ (s : State) (x : Reg) (op : Word), s.mem.wf = true → op.toNat = 0xF055 + 256 * x.val →
    decode op = .ok (.storeRegs x) ∧
    (s.I.toNat + x.val ≤ 4095 → ∃ t, exec (.storeRegs x) s = .next t ∧
      (∀ r : Reg, r ≤ x → t.mem.read (s.I.toNat + r.val) = s.reg r) ∧ SameMemoryBut s.I.toNat (x.val + 1) s t ∧
      t.mem.wf = true ∧ t.I.toNat = s.I.toNat + x.val + 1 ∧ Plain s t ∧ SameBut [] [.memory, .index] s t) ∧
    (4095 < s.I.toNat + x.val → exec (.storeRegs x) s = .next (s.faultedAt .memOutOfRange op))

/-- `Fx65`: `V0..Vx` from `I..I+x`, the registers above as before, `I` advanced by `x + 1`; when `I + x > 4095` a `MemOutOfRange` with no
register written and `I` unchanged (R135), and nothing but `run` changed (the precise fault of R11 is the spec's decision D4; log
entry 4). -/
def Obligations.LoadRegisterBlock : Prop :=
  ∀ (s : State) (x : Reg) (op : Word), op.toNat = 0xF065 + 256 * x.val →
    decode op = .ok (.loadRegs x) ∧
    (s.I.toNat + x.val ≤ 4095 → ∃ t, exec (.loadRegs x) s = .next t ∧
      (∀ r : Reg, r ≤ x → t.reg r = s.mem.read (s.I.toNat + r.val)) ∧ (∀ r : Reg, x < r → t.reg r = s.reg r) ∧
      t.I.toNat = s.I.toNat + x.val + 1 ∧ Plain s t ∧ (∀ p : StatePart, p ≠ .index → p.same s t)) ∧
    (4095 < s.I.toNat + x.val → exec (.loadRegs x) s = .next (s.faultedAt .memOutOfRange op))

/-- The round-trip law: `Fx55`, then `Fx65` with the same `x` and `I` in any state that reads the memory `Fx55` left, restores `V0..Vx` and leaves
`I` advanced by `x + 1` (R137, which the spec derives from R134 and R135). -/
def Obligations.StoreThenLoadRestores : Prop :=
  ∀ (s t u : State) (x : Reg), s.mem.wf = true → s.I.toNat + x.val ≤ 4095 → exec (.storeRegs x) s = .next t →
    u.I = s.I → (∀ a, u.mem.read a = t.mem.read a) →
    ∃ v, exec (.loadRegs x) u = .next v ∧ (∀ r : Reg, r ≤ x → v.reg r = s.reg r) ∧
      t.I.toNat = s.I.toNat + x.val + 1 ∧ v.I = t.I

/-- A store is seen by every later fetch, the very next one included: after `Fx55` or `Fx33` in range, any state `u` that reads the
memory the store left fetches a word whose high byte, where `pc` is a stored address, and whose low byte, where `pc + 1` is one, are
the stored bytes: registers of `V0..Vx`, or decimal digits of `Vx` (R61, D24). -/
def Obligations.StoreIsSeenByTheNextFetch : Prop :=
  ∀ (s t u : State) (x : Reg) (i : Instr), s.mem.wf = true →
    (i = .storeRegs x ∧ s.I.toNat + x.val ≤ 4095) ∨ (i = .ldB x ∧ s.I.toNat ≤ 4093) → exec i s = .next t →
    (∀ a, u.mem.read a = t.mem.read a) → u.pc.toNat ≤ 4094 →
    ∃ op, u.fetch = some op ∧
      (i = .storeRegs x → ∀ r : Reg, r ≤ x →
        (u.pc.toNat = s.I.toNat + r.val → op.toNat / 256 = (s.reg r).toNat) ∧
        (u.pc.toNat + 1 = s.I.toNat + r.val → op.toNat % 256 = (s.reg r).toNat)) ∧
      (i = .ldB x → ∀ k, k < 3 →
        (u.pc.toNat = s.I.toNat + k → op.toNat / 256 = (s.reg x).toNat / 10 ^ (2 - k) % 10) ∧
        (u.pc.toNat + 1 = s.I.toNat + k → op.toNat % 256 = (s.reg x).toNat / 10 ^ (2 - k) % 10))

/-! ### Display (43_display.md) -/

/-- `00E0`: every pixel unlit, draw marked, so the burst goes no further; `VF` and all else as before (R151, R152). -/
def Obligations.ClearUnlightsEveryPixel : Prop :=
  ∀ s : State, decode 0x00E0 = .ok .cls ∧
    ∃ t, exec .cls s = .next t ∧ (∀ row col, row < 32 → col < 64 → t.fb.pixel row col = false) ∧ t.drawFlag = true ∧
      (∀ count, t.burstGoesOn count = false) ∧ t.pc = s.pc + 2 ∧ SameBut [] [.screen] s t

/-- `draw` in closed form, for either value of the quirk: a pixel is lit after it exactly when it was lit and no set sprite bit landed on it, or it
was not and one did (R153, R155, R156; bit 7 leftmost is general knowledge the spec marks as such, R154, log entry 16). -/
def Obligations.DrawXorsTheVisibleSpriteBits : Prop :=
  ∀ (q : Config.Quirks) (f : Screen) (x0 y0 : Byte) (sprite : List Byte), sprite.length ≤ 15 →
    ∀ row col, row < 32 → col < 64 →
      ((draw q f x0 y0 sprite).1.pixel row col = true ↔
        (f.pixel row col = true ∧ ¬SpriteHits q.drawWrapsPixels x0 y0 sprite row col) ∨
        (f.pixel row col = false ∧ SpriteHits q.drawWrapsPixels x0 y0 sprite row col))

/-- Collision is true exactly when a set sprite bit lands on a pixel that was lit before this `draw` (R156; R154 as above). -/
def Obligations.CollisionWhenALitPixelIsHit : Prop :=
  ∀ (q : Config.Quirks) (f : Screen) (x0 y0 : Byte) (sprite : List Byte), sprite.length ≤ 15 →
    ((draw q f x0 y0 sprite).2 = true ↔
      ∃ row col, row < 32 ∧ col < 64 ∧ f.pixel row col = true ∧ SpriteHits q.drawWrapsPixels x0 y0 sprite row col)

/-- Drawing the same sprite twice at the same place restores the grid; on an empty grid the first draw does not collide and the second does exactly
when a set bit is visible (R159 a and b, the latter derived by the spec; which bit of a byte is visible after clipping rests on bit 7
leftmost, R154, D19, log entry 16). -/
def Obligations.DrawingTwiceRestoresTheGrid : Prop :=
  ∀ (q : Config.Quirks) (f : Screen) (x0 y0 : Byte) (sprite : List Byte), sprite.length ≤ 15 →
    (draw q (draw q f x0 y0 sprite).1 x0 y0 sprite).1 = f ∧
    (f = Screen.blank →
      (draw q f x0 y0 sprite).2 = false ∧
      ((draw q (draw q f x0 y0 sprite).1 x0 y0 sprite).2 = true ↔
        ∃ row col, row < 32 ∧ col < 64 ∧ SpriteHits q.drawWrapsPixels x0 y0 sprite row col))

/-- `Dxyn`: with its `n` bytes in memory, or `n = 0`, it draws them at `(Vx, Vy)`, both read before `VF` is written, writes 1 or 0 to `VF`, and marks draw;
otherwise a `MemOutOfRange` whose opcode is the encoder's word of the instruction (log entry 10), and nothing but `run` changes (R157, D17,
D18; D4, log entry 4). -/
def Obligations.DrawSpriteInstruction : Prop :=
  ∀ (s : State) (x y : Reg) (n : Nat) (sprite : List Byte) (q : Config.Quirks), q.drawWrapsPixels = false →
    sprite.length = n → (∀ j, j < n → sprite[j]? = some (s.mem.read (s.I.toNat + j))) →
    (n = 0 ∨ s.I.toNat + n - 1 ≤ 4095 →
      ∃ t, exec (.drw x y n) s = .next t ∧ t.fb = (draw q s.fb (s.reg x) (s.reg y) sprite).1 ∧
        (t.reg VF).toNat = (if (draw q s.fb (s.reg x) (s.reg y) sprite).2 then 1 else 0) ∧ t.drawFlag = true ∧
        t.pc = s.pc + 2 ∧ SameBut [VF] [.screen] s t) ∧
    (n ≠ 0 → 4095 < s.I.toNat + n - 1 → exec (.drw x y n) s = .next (s.faultedAt .memOutOfRange (encode (.drw x y n))))

/-! ### Keypad and timers (44_keypad_timers.md) -/

/-- `Ex9E` and `ExA1`: with a key index in `Vx` they skip on that key's state and change nothing else; with `Vx > 15` a `KeyIndexOutOfRange`
whose opcode is the encoder's word of the instruction (log entry 10), and nothing but `run` changes (R170, R171, D13; D4, log entry
4). -/
def Obligations.SkipOnKeyState : Prop :=
  ∀ (s : State) (x : Reg),
    (∀ k : Key, k.val = (s.reg x).toNat →
      (∃ t, exec (.skp x) s = .next t ∧ t.pc = s.pc + (if s.key k = true then 4 else 2) ∧ t.drawFlag = false ∧
        SameBut [] [] s t) ∧
      (∃ t, exec (.sknp x) s = .next t ∧ t.pc = s.pc + (if s.key k = true then 2 else 4) ∧ t.drawFlag = false ∧
        SameBut [] [] s t)) ∧
    (15 < (s.reg x).toNat →
      exec (.skp x) s = .next (s.faultedAt .keyIndexOutOfRange (encode (.skp x))) ∧
      exec (.sknp x) s = .next (s.faultedAt .keyIndexOutOfRange (encode (.sknp x))))

/-- `Fx07`, `Fx15`, `Fx18`: each moves one byte between `Vx` and a timer and changes nothing else (44_keypad_timers.md section 2). -/
def Obligations.TimerMoves : Prop :=
  ∀ (s : State) (x : Reg),
    (∃ t, exec (.ldVxDT x) s = .next t ∧ t.reg x = s.DT ∧ Plain s t ∧ SameBut [x] [] s t) ∧
    (∃ t, exec (.ldDTVx x) s = .next t ∧ t.DT = s.reg x ∧ Plain s t ∧ SameBut [] [.delay] s t) ∧
    (∃ t, exec (.ldSTVx x) s = .next t ∧ t.ST = s.reg x ∧ Plain s t ∧ SameBut [] [.sound] s t)

/-- `Fx0A` enters the wait for register `x`, with `pc` past itself, writes no register, and ends the burst of its frame (R172, D14). -/
def Obligations.WaitForKeySuspends : Prop :=
  ∀ (s : State) (x : Reg),
    ∃ t, exec (.ldVxK x) s = .next t ∧ t.execState = .waitingForKey x ∧ (∀ count, t.burstGoesOn count = false) ∧
      Plain s t ∧ SameBut [] [.execution] s t

/-- `KEY(k, pressed)` on an `Active` machine, between frames: `keys[k]` becomes `pressed`; if the machine waits and this is a release, of whichever key,
the waiting register receives `k` and the machine runs again; nothing else changes (R182). -/
def Obligations.KeyEventUpdatesKeypadAndEndsWait : Prop :=
  ∀ (s : State) (k : Key) (pressed : Bool) (rest : List Event),
    s.phase = .between → s.inputs = .key k pressed :: rest → s.run = .active →
    ∃ t, step s = .next t ∧ t.key k = pressed ∧ (∀ j, j ≠ k → t.key j = s.key j) ∧
      (∀ r, s.execState = .waitingForKey r → pressed = false →
        (t.reg r).toNat = k.val ∧ t.execState = .running ∧ ∀ r', r' ≠ r → t.reg r' = s.reg r') ∧
      (s.execState = .running ∨ pressed = true → t.execState = s.execState ∧ ∀ r, t.reg r = s.reg r) ∧
      t.pc = s.pc ∧ t.drawFlag = s.drawFlag ∧ t.inputs = rest ∧ t.phase = .between ∧ t.refreshes = s.refreshes ∧
      (∀ p : StatePart, p ≠ .keypad → p ≠ .execution → p ≠ .schedule → p.same s t)

/-! ### Frames and host events (45_scheduler_host.md, 70_reset_and_hazards.md) -/

/-- The model's steps refine the spec's atomic `FRAME`: from a frame boundary, be it the next input or the passing of time when no input is to
come (log entry 3), 1 to 14 steps reach exactly the state the atomic function of R196
gives, and until then the machine is inside the frame with the later inputs untouched (R196, R199; log entry 1). -/
def Obligations.StepsRefineTheAtomicFrame : Prop :=
  ∀ (s : State) (rest : List Event), s.phase = .between →
    s.inputs = .frame :: rest ∨ (s.inputs = [] ∧ rest = []) →
    ∃ k t, 1 ≤ k ∧ k ≤ 14 ∧ runSteps k s = .next t ∧ frame { s with inputs := rest } = .next t ∧ t.phase = .between ∧
      t.inputs = rest ∧ ∀ j u, 0 < j → j < k → runSteps j s = .next u → u.phase ≠ .between ∧ u.inputs = rest

/-- The end of a frame, after 12 ticks, a draw, or on waiting for a key: each timer down by one while above zero, one `REFRESH`, and nothing else (R196,
R197, R198). -/
def Obligations.FrameEndCountsTimersAndRefreshes : Prop :=
  ∀ (s : State) (count : Nat), s.phase = .burst count → s.run = .active →
    (12 ≤ count ∨ s.execState ≠ .running ∨ s.drawFlag = true) →
    ∃ t, step s = .next t ∧ t.DT.toNat = s.DT.toNat - 1 ∧ t.ST.toNat = s.ST.toNat - 1 ∧ t.refreshes = s.refreshes + 1 ∧
      t.phase = .between ∧ t.drawFlag = false ∧ t.inputs = s.inputs ∧ t.pc = s.pc ∧
      SameBut [] [.delay, .sound, .schedule] s t

/-- A fatal error inside a burst ends the frame at once: no timer step and no `REFRESH`, the earlier instructions of the burst keep their effects
(R200 b, D22; R230). -/
def Obligations.FaultEndsTheFrame : Prop :=
  ∀ (s t : State) (count : Nat), s.phase = .burst count → s.run = .active → step s = .next t → t.run ≠ .active →
    t.phase = .between ∧ t.drawFlag = false ∧ t.isFaulted = true ∧ t.pc = s.pc ∧ t.inputs = s.inputs ∧
      t.refreshes = s.refreshes ∧ SameBut [] [.lifecycle, .schedule] s t

/-- Host events never take effect inside a frame: a step there leaves the inputs to come, the keypad and the `LOAD` record as they are, and takes an
`Active` machine to `Active` or `Faulted` only (R199). -/
def Obligations.NoHostEventInsideAFrame : Prop :=
  ∀ (s t : State) (count : Nat), s.phase = .burst count → step s = .next t →
    t.inputs = s.inputs ∧ t.keys = s.keys ∧ t.loaded = s.loaded ∧ t.loadTruncated = s.loadTruncated ∧
      (t.run = s.run ∨ (s.run = .active ∧ t.isFaulted = true))

/-- `START` in `PowerOn` and `STOP` in `Active` change `run` and nothing else (R203; R205, D31). -/
def Obligations.StartAndStopChangeRunOnly : Prop :=
  ∀ (s : State) (rest : List Event), s.phase = .between →
    (s.inputs = .start :: rest → s.run = .powerOn → step s = .next { s with inputs := rest, run := .active }) ∧
    (s.inputs = .stop :: rest → s.run = .active → step s = .next { s with inputs := rest, run := .stopped })

/-- Protocol violations: `START` while `Active`, `KEY` or `STOP` while `PowerOn`, each a fault record without address and opcode, nothing else changed;
while `FRAME` in `PowerOn` does nothing and a first `LOAD` there is legal (R204). -/
def Obligations.ProtocolViolationsAreFatal : Prop :=
  ∀ (s : State) (e : Event) (rest : List Event), s.phase = .between → s.inputs = e :: rest →
    ((s.run = .active ∧ e = .start) ∨ (s.run = .powerOn ∧ (e = .stop ∨ ∃ k p, e = .key k p)) →
      step s = .next { s with inputs := rest, run := .faulted .protocolViolation none none }) ∧
    (s.run = .powerOn → e = .frame → step s = .next { s with inputs := rest }) ∧
    (∀ rom, s.run = .powerOn → s.loaded = false → e = .load rom → ∃ t, step s = .next t ∧ t.run = .powerOn)

/-- In `Stopped` and `Faulted` every event but `RESET` (and `LOAD`, which is refused there) changes nothing, and so does the passing of time: no first fault
record is overwritten (R206, R231, D23). -/
def Obligations.TerminalStatesIgnoreEvents : Prop :=
  ∀ s : State, s.phase = .between → (s.run = .stopped ∨ s.isFaulted = true) →
    (s.inputs = [] → step s = .next s) ∧
    (∀ e rest, s.inputs = e :: rest → e ≠ .reset → (∀ rom, e ≠ .load rom) → step s = .next { s with inputs := rest })

/-- A legal `LOAD` into canonical memory: the 80 font bytes in order at 0, each with a low nibble of 0; the first 3584 ROM bytes at 0x200; every other byte as before;
the truncation bit; no register, `pc` included (R201, R202, R33; the font's values are free, log entry 8). -/
def Obligations.LoadPlacesFontAndRom : Prop :=
  ∀ (s : State) (rom : List Byte) (rest : List Event), s.phase = .between → s.inputs = .load rom :: rest →
    s.run = .powerOn → s.loaded = false → s.mem.wf = true →
    ∃ t, step s = .next t ∧ (∀ j, j < 80 → t.mem.read j = fontByte j ∧ (t.mem.read j).toNat % 16 = 0) ∧
      (∀ j b, j < 3584 → rom[j]? = some b → t.mem.read (0x200 + j) = b) ∧
      (∀ a, 80 ≤ a → (a < 0x200 ∨ 0x200 + min rom.length 3584 ≤ a) → t.mem.read a = s.mem.read a) ∧
      t.mem.wf = true ∧ t.loadTruncated = (s.loadTruncated || decide (3584 < rom.length)) ∧ t.loaded = true ∧
      t.pc = s.pc ∧ t.drawFlag = s.drawFlag ∧ t.inputs = rest ∧ t.phase = .between ∧ t.refreshes = s.refreshes ∧
      (∀ r, t.reg r = s.reg r) ∧ ∀ p : StatePart, p ≠ .memory → p ≠ .image → p ≠ .schedule → p.same s t

/-- A `LOAD` outside `PowerOn`, or a second one, between frames is refused, and in every other state a step answers a next state (R201, D21,
U11; log entry 5). -/
def Obligations.OnlyAnIllegalLoadIsRefused : Prop :=
  ∀ s : State,
    (∀ rom rest, s.phase = .between → s.inputs = .load rom :: rest → (s.run ≠ .powerOn ∨ s.loaded = true) →
      step s = .refused .loadNotLegal) ∧
    ((∃ t, step s = .next t) ∨
      (step s = .refused .loadNotLegal ∧ s.phase = .between ∧
        ∃ rom rest, s.inputs = .load rom :: rest ∧ (s.run ≠ .powerOn ∨ s.loaded = true)))

/-- `RESET` takes effect in any state between frames, a faulted one included, and leaves every field of the record at its reset value (R34, R250, R231,
D33); the inputs, the random source and the past `REFRESH` events are outside the machine (log entry 11). -/
def Obligations.ResetRestoresEveryField : Prop :=
  ∀ (s : State) (rest : List Event), s.phase = .between → s.inputs = .reset :: rest →
    ∃ t, step s = .next t ∧ (∀ a, t.mem.read a = 0) ∧ (∀ r, t.reg r = 0) ∧ t.I = 0 ∧ t.pc = 0x200 ∧
      (∀ j : Fin 16, t.stack[j] = 0) ∧ t.SP = 0 ∧ t.DT = 0 ∧ t.ST = 0 ∧ (∀ k, t.key k = false) ∧
      t.execState = .running ∧ (∀ row col, t.fb.pixel row col = false) ∧ t.run = .powerOn ∧ t.loadTruncated = false ∧
      t.loaded = false ∧ t.phase = .between ∧ t.inputs = rest ∧ t.draws = s.draws ∧ t.refreshes = s.refreshes

/-! ### Whole-machine rules -/

/-- The invariant of the machine, the rule of fault records and the rule of the state before `START` hold at reset (R34). -/
def Obligations.ResetMeetsTheInvariants : Prop :=
  State.reset.Inv ∧ State.reset.FaultRecordOk ∧ State.reset.FreshBeforeStart

/-- Every step keeps the invariant: memory canonical within 4096 bytes, `pc` at most 0x10FE, stack entries at most 4096, a frame only while `Active` with at
most 12 ticks, no draw flag between frames, truncation only after a `LOAD` (R23, R30, R100, R196, R32, R31). -/
def Obligations.EveryStepKeepsTheInvariant : Prop := ∀ s t : State, s.Inv → step s = .next t → t.Inv

/-- Every step keeps what the spec says of fault records: cause, address equal to the `pc` that is still held, and the opcode that still lies there
(R220, R222, R225, R230). -/
def Obligations.EveryStepKeepsFaultRecords : Prop :=
  ∀ s t : State, s.FaultRecordOk → step s = .next t → t.FaultRecordOk

/-- Before `START` everything but memory and the `LOAD` record stays at its reset value (R193, R201, R252). -/
def Obligations.NothingMovesBeforeStart : Prop :=
  ∀ s t : State, s.FreshBeforeStart → step s = .next t → t.FreshBeforeStart

/-- Who writes what, over all instructions: each kind of state is changed only by the instructions the spec names for it: a general register, by
those that write it as `Vx`, as one of `V0..Vx` or as the flag; `pc` other than by 2, by jumps, calls, returns, skips and faults; `run`, by
those with a fatal error. No instruction changes the keypad, the `LOAD` record or the scheduling fields (R20, R22, R23, R24, R25, R26, R27,
R28, R29, R63, R123; a faulted `pc` is unchanged by D4, log entry 4). -/
def Obligations.OnlyTheNamedInstructionsWrite : Prop :=
  ∀ (i : Instr) (s t : State), exec i s = .next t →
    (∀ r, t.reg r ≠ s.reg r →
      (∃ kk, i = .ldImm r kk ∨ i = .addImm r kk ∨ i = .rnd r kk) ∨
      (∃ y, i = .ldReg r y ∨ i = .orReg r y ∨ i = .andReg r y ∨ i = .xorReg r y ∨ i = .addReg r y ∨ i = .subReg r y ∨
        i = .shrReg r y ∨ i = .subnReg r y ∨ i = .shlReg r y) ∨
      i = .ldVxDT r ∨ (∃ x, r ≤ x ∧ i = .loadRegs x) ∨
      (r = VF ∧ ((∃ x y n, i = .drw x y n) ∨
        ∃ x y, i = .addReg x y ∨ i = .subReg x y ∨ i = .shrReg x y ∨ i = .subnReg x y ∨ i = .shlReg x y))) ∧
    (t.pc ≠ s.pc + 2 →
      (t.pc = s.pc ∧ t.isFaulted = true) ∨ i = .ret ∨ (∃ nnn, i = .jp nnn ∨ i = .call nnn ∨ i = .jpV0 nnn) ∨
      (∃ x kk, i = .seImm x kk ∨ i = .sneImm x kk) ∨ (∃ x y, i = .seReg x y ∨ i = .sneReg x y) ∨
      ∃ x, i = .skp x ∨ i = .sknp x) ∧
    (t.run ≠ s.run →
      t.isFaulted = true ∧ (i = .ret ∨ (∃ nnn, i = .call nnn) ∨ (∃ x y n, i = .drw x y n) ∨
        ∃ x, i = .ldB x ∨ i = .storeRegs x ∨ i = .loadRegs x ∨ i = .skp x ∨ i = .sknp x)) ∧
    (¬StatePart.memory.same s t → ∃ x, i = .ldB x ∨ i = .storeRegs x) ∧
    (t.I ≠ s.I → (∃ nnn, i = .ldI nnn) ∨ ∃ x, i = .addI x ∨ i = .ldF x ∨ i = .storeRegs x ∨ i = .loadRegs x) ∧
    (t.SP ≠ s.SP → i = .ret ∨ ∃ nnn, i = .call nnn) ∧ (t.stack ≠ s.stack → ∃ nnn, i = .call nnn) ∧
    (t.DT ≠ s.DT → ∃ x, i = .ldDTVx x) ∧ (t.ST ≠ s.ST → ∃ x, i = .ldSTVx x) ∧
    (t.execState ≠ s.execState → ∃ x, i = .ldVxK x) ∧ (t.fb ≠ s.fb → i = .cls ∨ ∃ x y n, i = .drw x y n) ∧
    (t.draws ≠ s.draws → ∃ x kk, i = .rnd x kk) ∧
    StatePart.keypad.same s t ∧ StatePart.image.same s t ∧ StatePart.schedule.same s t

/-- `VF` is written as a side effect by `8xy4`, `8xy5`, `8xy6`, `8xy7`, `8xyE` and `Dxyn` only; any other instruction changes it only where `F` is its own destination
(R21, D32). -/
def Obligations.OnlyFlagWritersTouchVF : Prop :=
  ∀ (i : Instr) (s t : State), exec i s = .next t → t.reg VF ≠ s.reg VF →
    (∃ x y, i = .addReg x y ∨ i = .subReg x y ∨ i = .shrReg x y ∨ i = .subnReg x y ∨ i = .shlReg x y) ∨
    (∃ x y n, i = .drw x y n) ∨
    (∃ kk, i = .ldImm VF kk ∨ i = .addImm VF kk ∨ i = .rnd VF kk) ∨
    (∃ y, i = .ldReg VF y ∨ i = .orReg VF y ∨ i = .andReg VF y ∨ i = .xorReg VF y) ∨
    i = .ldVxDT VF ∨ i = .loadRegs VF

/-- An instruction takes a fatal error exactly when its one check fails: the range of `Dxyn`, `Fx33`, `Fx55`, `Fx65`, the depth of `2nnn` and `00EE`, the key index of
`Ex9E` and `ExA1` (R229, R222, R223, R224, R226). -/
def Obligations.InstructionsFaultExactlyWhen : Prop :=
  ∀ (i : Instr) (s : State), s.run = .active →
    ((∃ t, exec i s = .next t ∧ t.run ≠ .active) ↔
      (∃ x y n, i = .drw x y n ∧ 0 < n ∧ 4095 < s.I.toNat + n - 1) ∨
      (∃ x, i = .ldB x ∧ 4095 < s.I.toNat + 2) ∨
      (∃ x : Reg, (i = .storeRegs x ∨ i = .loadRegs x) ∧ 4095 < s.I.toNat + x.val) ∨
      (∃ nnn, i = .call nnn ∧ s.SP.val = 16) ∨ (i = .ret ∧ s.SP.val = 0) ∨
      (∃ x, (i = .skp x ∨ i = .sknp x) ∧ 15 < (s.reg x).toNat))

/-- A one-instruction endless loop is safe for ever: an `Active`, `Running` machine between frames with no input to come, whose word at `pc` is a jump to `pc`, takes any
number of steps without a fault, so the customary end of a program never faults (R91, R208); that frames keep coming when no input is to
come is log entry 3. -/
def Obligations.SelfJumpIsSafeForEver : Prop :=
  ∀ (s : State) (k : Nat), s.phase = .between → s.inputs = [] → s.run = .active → s.execState = .running →
    s.pc.toNat ≤ 4094 → decodeBytes (s.mem.read s.pc.toNat) (s.mem.read (s.pc.toNat + 1)) = .ok (.jp s.pc) → SafeRun k s

/-- The loop of a self-jump is an invariant: from every state in it a step answers a state in it, with the same `pc` and not faulted (R91, R208);
that frames keep coming when no input is to come is log entry 3. -/
def Obligations.EveryStepStaysInASelfJump : Prop :=
  ∀ s : State, s.InSelfJump → ∃ t, step s = .next t ∧ t.InSelfJump ∧ t.pc = s.pc ∧ t.isFaulted = false

/-- What the host sees (R207, D1): between frames the 2048 pixels in row-major order, the `REFRESH` events, `run` with its record and
`load_truncated`, and nothing inside a frame, which is atomic for it (log entries 1, 12). It depends on nothing else: two states that
agree on these look the same whatever their memory, registers, `pc`, stack, timers and keys are; and an instruction other than `00E0` and
`Dxyn` that does not fault changes nothing of it. -/
def Obligations.HostSeesOnlyItsView : Prop :=
  ∀ s t : State,
    (s.phase = .between → s.hostSees = some s.hostView) ∧ (∀ count, s.phase = .burst count → s.hostSees = none) ∧
    s.hostView.grid.length = 2048 ∧
    (∀ row col, row < 32 → col < 64 → s.hostView.grid[row * 64 + col]? = some (s.fb.pixel row col)) ∧
    s.hostView.refreshes = s.refreshes ∧ s.hostView.run = s.run ∧ s.hostView.loadTruncated = s.loadTruncated ∧
    (t.phase = s.phase → t.fb = s.fb → t.refreshes = s.refreshes → t.run = s.run → t.loadTruncated = s.loadTruncated →
      t.hostSees = s.hostSees) ∧
    (∀ i, exec i s = .next t → t.hostView ≠ s.hostView →
      i = .cls ∨ (∃ x y n, i = .drw x y n) ∨ t.isFaulted = true)
end

