-- ==== Sys2Proof/Laws/Decode.lean ====
section
/-! SUPPORT. The bit fields of the words the encoder builds, the masks of the opcode table as arithmetic, and that decoding answers
only well-formed instructions. -/

namespace Sys2Proof

theorem and_mask_F000 (op : Word) : (op &&& 0xF000#16).toNat = op.toNat / 4096 * 4096 := by
  have hb : op &&& 0xF000#16 = (op >>> 12) <<< 12 := by
    apply BitVec.eq_of_getLsbD_eq
    intro i hi
    interval_cases i <;> simp
  have h := op.isLt
  rw [hb]
  simp [BitVec.toNat_ushiftRight, Nat.shiftRight_eq_div_pow, Nat.shiftLeft_eq]
  omega

theorem and_mask_FFFF (op : Word) : op &&& 0xFFFF#16 = op := by
  apply BitVec.eq_of_getLsbD_eq
  intro i hi
  interval_cases i <;> simp

theorem and_mask_000F (op : Word) : (op &&& 0xF#16).toNat = op.toNat % 16 := by
  rw [BitVec.toNat_and]
  exact Nat.and_two_pow_sub_one_eq_mod _ 4

theorem and_mask_00FF (op : Word) : (op &&& 0xFF#16).toNat = op.toNat % 256 := by
  rw [BitVec.toNat_and]
  exact Nat.and_two_pow_sub_one_eq_mod _ 8

theorem and_mask_F00F (op : Word) : (op &&& 0xF00F#16).toNat = op.toNat / 4096 * 4096 + op.toNat % 16 := by
  have hsplit : op &&& 0xF00F#16 = (op &&& 0xF000#16) + (op &&& 0xF#16) := by
    rw [BitVec.add_eq_or_of_and_eq_zero] <;> apply BitVec.eq_of_getLsbD_eq <;> intro i hi <;> interval_cases i <;> simp
  have h := op.isLt
  rw [hsplit, BitVec.toNat_add, and_mask_F000, and_mask_000F]
  omega

theorem and_mask_F0FF (op : Word) : (op &&& 0xF0FF#16).toNat = op.toNat / 4096 * 4096 + op.toNat % 256 := by
  have hsplit : op &&& 0xF0FF#16 = (op &&& 0xF000#16) + (op &&& 0xFF#16) := by
    rw [BitVec.add_eq_or_of_and_eq_zero] <;> apply BitVec.eq_of_getLsbD_eq <;> intro i hi <;> interval_cases i <;> simp
  have h := op.isLt
  rw [hsplit, BitVec.toNat_add, and_mask_F000, and_mask_00FF]
  omega

theorem opClass_eq (op : Word) : opClass op = op.toNat / 4096 := by
  have h := op.isLt
  simp only [opClass, bits]
  omega

theorem opClass_lt (op : Word) : opClass op < 16 := Nat.mod_lt _ (by decide)

theorem toNat_fieldNNN (op : Word) : (fieldNNN op).toNat = op.toNat % 4096 := by
  simp only [fieldNNN, bits, BitVec.toNat_ofNat]
  omega

theorem val_fieldX (op : Word) : (fieldX op).val = op.toNat / 256 % 16 := by
  simp only [fieldX, bits, Fin.ofNat]
  omega

theorem val_fieldY (op : Word) : (fieldY op).val = op.toNat / 16 % 16 := by
  simp only [fieldY, bits, Fin.ofNat]
  omega

theorem toNat_fieldKK (op : Word) : (fieldKK op).toNat = op.toNat % 256 := by
  simp only [fieldKK, bits, BitVec.toNat_ofNat]
  omega

theorem fieldN_eq (op : Word) : fieldN op = op.toNat % 16 := by
  simp only [fieldN, bits]
  omega

theorem toNat_wordNNN {c : Nat} (hc : c < 16) (nnn : Word) : (wordNNN c nnn).toNat = c * 4096 + nnn.toNat % 4096 := by
  simp only [wordNNN, BitVec.toNat_ofNat]
  omega

theorem toNat_wordXKK {c : Nat} (hc : c < 16) (x : Reg) (kk : Byte) :
    (wordXKK c x kk).toNat = c * 4096 + x.val * 256 + kk.toNat := by
  have hx := x.isLt
  have hk := kk.isLt
  simp only [wordXKK, BitVec.toNat_ofNat]
  omega

theorem toNat_wordXYN {c : Nat} (hc : c < 16) (x y : Reg) (n : Nat) :
    (wordXYN c x y n).toNat = c * 4096 + x.val * 256 + y.val * 16 + n % 16 := by
  have hx := x.isLt
  have hy := y.isLt
  simp only [wordXYN, BitVec.toNat_ofNat]
  omega

theorem toNat_wordX {c sub : Nat} (hc : c < 16) (hs : sub < 256) (x : Reg) :
    (wordX c x sub).toNat = c * 4096 + x.val * 256 + sub := by
  have hx := x.isLt
  simp only [wordX, BitVec.toNat_ofNat]
  omega

/-- The bytes of a word as it lies in memory are read back as that word (R52). -/
theorem wordOfBytes_high_low (op : Word) : wordOfBytes (highByte op) (lowByte op) = op := by
  have h := op.isLt
  apply BitVec.eq_of_toNat_eq
  simp only [wordOfBytes, highByte, lowByte, bits, BitVec.toNat_ofNat]
  omega

theorem decodeClass0_wf {op : Word} {i : Instr} (h : decodeClass0 op = .ok i) : i.wf = true := by
  unfold decodeClass0 at h
  split at h <;> first | contradiction | (cases h; rfl)

theorem decodeClass8_wf {op : Word} {i : Instr} (h : decodeClass8 op = .ok i) : i.wf = true := by
  unfold decodeClass8 at h
  split at h <;> first | contradiction | (cases h; rfl)

theorem decodeClassE_wf {op : Word} {i : Instr} (h : decodeClassE op = .ok i) : i.wf = true := by
  unfold decodeClassE at h
  split at h <;> first | contradiction | (cases h; rfl)

theorem decodeClassF_wf {op : Word} {i : Instr} (h : decodeClassF op = .ok i) : i.wf = true := by
  unfold decodeClassF at h
  split at h <;> first | contradiction | (cases h; rfl)

theorem fieldNNN_wf (op : Word) : decide ((fieldNNN op).toNat < 4096) = true := by
  rw [toNat_fieldNNN, decide_eq_true_eq]
  exact Nat.mod_lt _ (by decide)

/-- Decoding answers only well-formed instructions (R72, R74). -/
theorem decode_wf {op : Word} {i : Instr} (h : decode op = .ok i) : i.wf = true := by
  unfold decode at h
  split at h
  case h_1 => exact decodeClass0_wf h
  case h_9 => exact decodeClass8_wf h
  case h_15 => exact decodeClassE_wf h
  case h_16 => exact decodeClassF_wf h
  case h_2 | h_3 | h_11 | h_12 => cases h; exact fieldNNN_wf op
  case h_14 =>
    cases h
    simp only [Instr.wf, fieldN_eq, decide_eq_true_eq]
    exact Nat.mod_lt _ (by decide)
  case h_6 | h_10 => split at h <;> first | contradiction | (cases h; rfl)
  all_goals (cases h; rfl)

end Sys2Proof
end

