-- ==== Sys2Proof/Laws/Memory.lean ====
section
/-! SUPPORT. The laws of memory: a read after a write, the canonical form kept by every operation, and canonical memories with
equal reads equal as data. -/

namespace Sys2Proof.Machine

@[simp] theorem Memory.read_nil (a : Nat) : Memory.read [] a = 0#8 := rfl

theorem Memory.read_cons (b : Nat) (v : Byte) (m : Memory) (a : Nat) :
    Memory.read ((b, v) :: m) a = if b = a then v else Memory.read m a := rfl

theorem Memory.wfFrom_cons {lo b : Nat} {v : Byte} {m : Memory} :
    Memory.wfFrom lo ((b, v) :: m) = true ↔ lo ≤ b ∧ b < 4096 ∧ v ≠ 0#8 ∧ Memory.wfFrom (b + 1) m = true := by
  simp [Memory.wfFrom, and_assoc]

theorem Memory.wfFrom_mono {lo lo' : Nat} (h : lo' ≤ lo) {m : Memory} (hm : Memory.wfFrom lo m = true) :
    Memory.wfFrom lo' m = true := by
  cases m with
  | nil => rfl
  | cons c m =>
    obtain ⟨b, v⟩ := c
    rw [Memory.wfFrom_cons] at hm ⊢
    exact ⟨by omega, hm.2⟩

/-- Below its first address a canonical memory lists nothing. -/
theorem Memory.read_below {lo a : Nat} {m : Memory} (hm : Memory.wfFrom lo m = true) (h : a < lo) : m.read a = 0#8 := by
  induction m generalizing lo with
  | nil => rfl
  | cons c m ih =>
    obtain ⟨b, v⟩ := c
    rw [Memory.wfFrom_cons] at hm
    have hb : b ≠ a := by omega
    rw [Memory.read_cons, if_neg hb]
    exact ih hm.2.2.2 (by omega)

theorem Memory.write_wfFrom {lo a : Nat} {v : Byte} {m : Memory} (hm : Memory.wfFrom lo m = true) (hlo : lo ≤ a)
    (ha : a < 4096) : Memory.wfFrom lo (m.write a v) = true := by
  induction m generalizing lo with
  | nil =>
    by_cases hv : v = 0#8
    · simp [Memory.write, hv, Memory.wfFrom]
    · simp only [Memory.write, hv, if_false, Memory.wfFrom_cons]
      exact ⟨hlo, ha, hv, rfl⟩
  | cons c m ih =>
    obtain ⟨b, w⟩ := c
    have hc := Memory.wfFrom_cons.1 hm
    rw [Memory.write]
    split
    · split
      · exact hm
      · next hv => exact Memory.wfFrom_cons.2 ⟨hlo, ha, hv, Memory.wfFrom_cons.2 ⟨by omega, hc.2⟩⟩
    · split
      · split
        · exact Memory.wfFrom_mono (by omega) hc.2.2.2
        · next hab hv => exact Memory.wfFrom_cons.2 ⟨hlo, ha, hv, hab ▸ hc.2.2.2⟩
      · exact Memory.wfFrom_cons.2 ⟨hc.1, hc.2.1, hc.2.2.1, ih hc.2.2.2 (by omega)⟩

/-- A store keeps the canonical form (R30, R50). -/
theorem Memory.write_wf {a : Nat} {v : Byte} {m : Memory} (hm : m.wf = true) (ha : a < 4096) : (m.write a v).wf = true :=
  Memory.write_wfFrom hm (Nat.zero_le a) ha

/-- A read after a write, in canonical memory (R58 c). -/
theorem Memory.read_writeFrom {lo a c : Nat} {v : Byte} {m : Memory} (hm : Memory.wfFrom lo m = true) :
    (m.write a v).read c = if c = a then v else m.read c := by
  induction m generalizing lo with
  | nil =>
    by_cases hv : v = 0#8
    · simp [Memory.write, hv]
    · by_cases hc : c = a
      · simp [Memory.write, hv, Memory.read_cons, hc]
      · have : a ≠ c := fun h => hc h.symm
        simp [Memory.write, hv, Memory.read_cons, hc, this]
  | cons d m ih =>
    obtain ⟨b, w⟩ := d
    have hd := Memory.wfFrom_cons.1 hm
    have hbelow : ∀ e, e ≤ b → Memory.read m e = 0#8 := fun e he => Memory.read_below hd.2.2.2 (by omega)
    rw [Memory.write]
    split
    · next hab =>
      split
      · next hv =>
        by_cases hc : c = a
        · have : b ≠ c := by omega
          simp [Memory.read_cons, hc, hv, hbelow a (by omega), show b ≠ a by omega]
        · simp [hc]
      · by_cases hc : c = a
        · simp [Memory.read_cons, hc]
        · simp [Memory.read_cons, hc, show a ≠ c from fun h => hc h.symm]
    · split
      · next hab hEq =>
        subst hEq
        split
        · next hv =>
          by_cases hc : c = a
          · simp [hc, hv, hbelow a le_rfl]
          · simp [Memory.read_cons, hc, show a ≠ c from fun h => hc h.symm]
        · by_cases hc : c = a
          · simp [Memory.read_cons, hc]
          · simp [Memory.read_cons, hc, show a ≠ c from fun h => hc h.symm]
      · next hab hne =>
        rw [Memory.read_cons, ih hd.2.2.2, Memory.read_cons]
        by_cases hc : c = a
        · simp [hc, show b ≠ a from fun h => hne h.symm]
        · simp [hc]

/-- The byte written is the byte read, every other byte reads as before (R55). -/
theorem Memory.read_write {a c : Nat} {v : Byte} {m : Memory} (hm : m.wf = true) :
    (m.write a v).read c = if c = a then v else m.read c :=
  Memory.read_writeFrom hm

/-- A write leaves every other byte as it reads, canonical or not. -/
theorem Memory.read_write_other {a c : Nat} (h : c ≠ a) (v : Byte) (m : Memory) : (m.write a v).read c = m.read c := by
  have h' : a ≠ c := fun e => h e.symm
  induction m with
  | nil => by_cases hv : v = 0#8 <;> simp [Memory.write, hv, Memory.read_cons, h']
  | cons d m ih =>
    obtain ⟨b, w⟩ := d
    rw [Memory.write]
    split
    · split <;> simp [Memory.read_cons, h']
    · split
      · next hab =>
        subst hab
        split <;> simp [Memory.read_cons, h']
      · simp [Memory.read_cons, ih]

/-- Stores of several bytes keep the canonical form when all of them lie in memory (R50, R53). -/
theorem Memory.writeBytes_wf {bs : List Byte} {a : Nat} {m : Memory} (hm : m.wf = true) (h : a + bs.length ≤ 4096) :
    (m.writeBytes a bs).wf = true := by
  induction bs generalizing a m with
  | nil => exact hm
  | cons b bs ih =>
    rw [Memory.writeBytes]
    rw [List.length_cons] at h
    exact ih (Memory.write_wf hm (by omega)) (by omega)

/-- Bytes outside the stored ones read as before (R55). -/
theorem Memory.read_writeBytes_other {bs : List Byte} {a c : Nat} {m : Memory} (h : c < a ∨ a + bs.length ≤ c) :
    (m.writeBytes a bs).read c = m.read c := by
  induction bs generalizing a m with
  | nil => rfl
  | cons b bs ih =>
    rw [Memory.writeBytes]
    rw [List.length_cons] at h
    rw [ih (by omega), Memory.read_write_other (by omega)]

/-- Each stored byte is read back (R58 c). -/
theorem Memory.read_writeBytes {bs : List Byte} {a j : Nat} {m : Memory} (hm : m.wf = true) (ha : a + bs.length ≤ 4096)
    (hj : j < bs.length) : (m.writeBytes a bs).read (a + j) = bs[j] := by
  induction bs generalizing a j m with
  | nil => simp at hj
  | cons b bs ih =>
    rw [Memory.writeBytes]
    rw [List.length_cons] at ha
    have hj' : j < bs.length + 1 := hj
    cases j with
    | zero =>
      rw [Memory.read_writeBytes_other (by omega), Memory.read_write hm]
      simp
    | succ j =>
      have := ih (a := a + 1) (j := j) (Memory.write_wf (a := a) (v := b) hm (by omega)) (by omega)
        (Nat.lt_of_succ_lt_succ hj')
      rw [show a + (j + 1) = a + 1 + j by omega, this]
      simp

/-- In canonical memory an address of 4096 or more lists nothing. -/
theorem Memory.read_above {lo a : Nat} {m : Memory} (hm : Memory.wfFrom lo m = true) (h : 4096 ≤ a) : m.read a = 0#8 := by
  induction m generalizing lo with
  | nil => rfl
  | cons c m ih =>
    obtain ⟨b, v⟩ := c
    rw [Memory.wfFrom_cons] at hm
    rw [Memory.read_cons, if_neg (by omega)]
    exact ih hm.2.2.2

theorem Memory.eq_of_readFrom {lo : Nat} {m m' : Memory} (hm : Memory.wfFrom lo m = true) (hm' : Memory.wfFrom lo m' = true)
    (h : ∀ a, m.read a = m'.read a) : m = m' := by
  induction m generalizing lo m' with
  | nil =>
    cases m' with
    | nil => rfl
    | cons c m' =>
      obtain ⟨b, v⟩ := c
      have hc := Memory.wfFrom_cons.1 hm'
      have := h b
      simp [Memory.read_cons] at this
      exact absurd this.symm hc.2.2.1
  | cons c m ih =>
    obtain ⟨b, v⟩ := c
    have hc := Memory.wfFrom_cons.1 hm
    cases m' with
    | nil =>
      have := h b
      simp [Memory.read_cons] at this
      exact absurd this hc.2.2.1
    | cons c' m' =>
      obtain ⟨b', v'⟩ := c'
      have hc' := Memory.wfFrom_cons.1 hm'
      have hb : b = b' := by
        by_contra hne
        rcases Nat.lt_or_gt_of_ne hne with hlt | hlt
        · have := h b
          rw [Memory.read_cons, if_pos rfl, Memory.read_cons, if_neg (by omega),
            Memory.read_below hc'.2.2.2 (by omega)] at this
          exact hc.2.2.1 this
        · have := h b'
          rw [Memory.read_cons, if_neg (by omega), Memory.read_below hc.2.2.2 (by omega), Memory.read_cons,
            if_pos rfl] at this
          exact hc'.2.2.1 this.symm
      subst hb
      have hv : v = v' := by simpa [Memory.read_cons] using h b
      subst hv
      have hrest : m = m' := ih hc.2.2.2 hc'.2.2.2 fun a => by
        by_cases ha : b = a
        · subst ha
          rw [Memory.read_below hc.2.2.2 (by omega), Memory.read_below hc'.2.2.2 (by omega)]
        · have := h a
          rwa [Memory.read_cons, if_neg ha, Memory.read_cons, if_neg ha] at this
      rw [hrest]

/-- Equal memories are equal data. -/
theorem Memory.eq_of_read {m m' : Memory} (hm : m.wf = true) (hm' : m'.wf = true) (h : ∀ a, m.read a = m'.read a) : m = m' :=
  Memory.eq_of_readFrom hm hm' h

/-- The memory after `RESET` is canonical (R34). -/
theorem State.reset_mem_wf : State.reset.mem.wf = true := rfl

/-- The range check of R53. -/
theorem inRange_iff {a n : Nat} : inRange a n = true ↔ a + n ≤ 4096 := by
  simp only [inRange, Config.addrMax, decide_eq_true_eq]
  omega

theorem State.length_readBytes (s : State) (a n : Nat) : (s.readBytes a n).length = n := by simp [State.readBytes]

theorem State.getElem_readBytes (s : State) (a n j : Nat) (h : j < (s.readBytes a n).length) :
    (s.readBytes a n)[j] = s.mem.read (a + j) := by simp [State.readBytes]

/-- The fetch of R190 answers exactly where both bytes lie in memory. -/
theorem State.fetch_eq_some {s : State} {op : Word} :
    s.fetch = some op ↔ s.pc.toNat ≤ 4094 ∧ op = wordOfBytes (s.mem.read s.pc.toNat) (s.mem.read (s.pc.toNat + 1)) := by
  have hr : inRange s.pc.toNat Config.instrBytes = true ↔ s.pc.toNat + 2 ≤ 4096 := inRange_iff
  unfold State.fetch
  constructor
  · intro h
    split at h
    · next hc => exact ⟨by have := hr.1 hc; omega, by simpa using h.symm⟩
    · cases h
  · rintro ⟨h, rfl⟩
    rw [if_pos (hr.2 (by omega))]

theorem State.fetch_eq_none {s : State} : s.fetch = none ↔ 4095 ≤ s.pc.toNat := by
  have hr : inRange s.pc.toNat Config.instrBytes = true ↔ s.pc.toNat + 2 ≤ 4096 := inRange_iff
  unfold State.fetch
  constructor
  · intro h
    split at h
    · cases h
    · next hc => exact Nat.le_of_not_lt fun hlt => hc (hr.2 (by omega))
  · intro h
    rw [if_neg fun hc => absurd (hr.1 hc) (by omega)]

end Sys2Proof.Machine
end

