-- ==== Sys2Proof/Laws/State.lean ====
section
/-! SUPPORT. One lemma per field per update of the state, so that no later proof unfolds a record update. -/

namespace Sys2Proof.Machine

variable (s : State)

/-- The base of a data access is `I` (R136). -/
@[simp] theorem State.base_eq : s.base = s.I.toNat := rfl


/-! `writeBytes` -/

@[simp] theorem State.writeBytes_mem (addr : Nat) (bs : List Byte) : (s.writeBytes addr bs).mem = s.mem.writeBytes addr bs := rfl
@[simp] theorem State.writeBytes_V (addr : Nat) (bs : List Byte) : (s.writeBytes addr bs).V = s.V := rfl
@[simp] theorem State.writeBytes_I (addr : Nat) (bs : List Byte) : (s.writeBytes addr bs).I = s.I := rfl
@[simp] theorem State.writeBytes_pc (addr : Nat) (bs : List Byte) : (s.writeBytes addr bs).pc = s.pc := rfl
@[simp] theorem State.writeBytes_stack (addr : Nat) (bs : List Byte) : (s.writeBytes addr bs).stack = s.stack := rfl
@[simp] theorem State.writeBytes_SP (addr : Nat) (bs : List Byte) : (s.writeBytes addr bs).SP = s.SP := rfl
@[simp] theorem State.writeBytes_DT (addr : Nat) (bs : List Byte) : (s.writeBytes addr bs).DT = s.DT := rfl
@[simp] theorem State.writeBytes_ST (addr : Nat) (bs : List Byte) : (s.writeBytes addr bs).ST = s.ST := rfl
@[simp] theorem State.writeBytes_keys (addr : Nat) (bs : List Byte) : (s.writeBytes addr bs).keys = s.keys := rfl
@[simp] theorem State.writeBytes_execState (addr : Nat) (bs : List Byte) : (s.writeBytes addr bs).execState = s.execState := rfl
@[simp] theorem State.writeBytes_fb (addr : Nat) (bs : List Byte) : (s.writeBytes addr bs).fb = s.fb := rfl
@[simp] theorem State.writeBytes_run (addr : Nat) (bs : List Byte) : (s.writeBytes addr bs).run = s.run := rfl
@[simp] theorem State.writeBytes_loadTruncated (addr : Nat) (bs : List Byte) : (s.writeBytes addr bs).loadTruncated = s.loadTruncated := rfl
@[simp] theorem State.writeBytes_loaded (addr : Nat) (bs : List Byte) : (s.writeBytes addr bs).loaded = s.loaded := rfl
@[simp] theorem State.writeBytes_phase (addr : Nat) (bs : List Byte) : (s.writeBytes addr bs).phase = s.phase := rfl
@[simp] theorem State.writeBytes_drawFlag (addr : Nat) (bs : List Byte) : (s.writeBytes addr bs).drawFlag = s.drawFlag := rfl
@[simp] theorem State.writeBytes_inputs (addr : Nat) (bs : List Byte) : (s.writeBytes addr bs).inputs = s.inputs := rfl
@[simp] theorem State.writeBytes_draws (addr : Nat) (bs : List Byte) : (s.writeBytes addr bs).draws = s.draws := rfl
@[simp] theorem State.writeBytes_refreshes (addr : Nat) (bs : List Byte) : (s.writeBytes addr bs).refreshes = s.refreshes := rfl

/-! `setReg` -/

@[simp] theorem State.setReg_mem (x : Reg) (v : Byte) : (s.setReg x v).mem = s.mem := rfl
@[simp] theorem State.setReg_V (x : Reg) (v : Byte) : (s.setReg x v).V = s.V.set x v := rfl
@[simp] theorem State.setReg_I (x : Reg) (v : Byte) : (s.setReg x v).I = s.I := rfl
@[simp] theorem State.setReg_pc (x : Reg) (v : Byte) : (s.setReg x v).pc = s.pc := rfl
@[simp] theorem State.setReg_stack (x : Reg) (v : Byte) : (s.setReg x v).stack = s.stack := rfl
@[simp] theorem State.setReg_SP (x : Reg) (v : Byte) : (s.setReg x v).SP = s.SP := rfl
@[simp] theorem State.setReg_DT (x : Reg) (v : Byte) : (s.setReg x v).DT = s.DT := rfl
@[simp] theorem State.setReg_ST (x : Reg) (v : Byte) : (s.setReg x v).ST = s.ST := rfl
@[simp] theorem State.setReg_keys (x : Reg) (v : Byte) : (s.setReg x v).keys = s.keys := rfl
@[simp] theorem State.setReg_execState (x : Reg) (v : Byte) : (s.setReg x v).execState = s.execState := rfl
@[simp] theorem State.setReg_fb (x : Reg) (v : Byte) : (s.setReg x v).fb = s.fb := rfl
@[simp] theorem State.setReg_run (x : Reg) (v : Byte) : (s.setReg x v).run = s.run := rfl
@[simp] theorem State.setReg_loadTruncated (x : Reg) (v : Byte) : (s.setReg x v).loadTruncated = s.loadTruncated := rfl
@[simp] theorem State.setReg_loaded (x : Reg) (v : Byte) : (s.setReg x v).loaded = s.loaded := rfl
@[simp] theorem State.setReg_phase (x : Reg) (v : Byte) : (s.setReg x v).phase = s.phase := rfl
@[simp] theorem State.setReg_drawFlag (x : Reg) (v : Byte) : (s.setReg x v).drawFlag = s.drawFlag := rfl
@[simp] theorem State.setReg_inputs (x : Reg) (v : Byte) : (s.setReg x v).inputs = s.inputs := rfl
@[simp] theorem State.setReg_draws (x : Reg) (v : Byte) : (s.setReg x v).draws = s.draws := rfl
@[simp] theorem State.setReg_refreshes (x : Reg) (v : Byte) : (s.setReg x v).refreshes = s.refreshes := rfl

/-! `setI` -/

@[simp] theorem State.setI_mem (v : Word) : (s.setI v).mem = s.mem := rfl
@[simp] theorem State.setI_V (v : Word) : (s.setI v).V = s.V := rfl
@[simp] theorem State.setI_I (v : Word) : (s.setI v).I = v := rfl
@[simp] theorem State.setI_pc (v : Word) : (s.setI v).pc = s.pc := rfl
@[simp] theorem State.setI_stack (v : Word) : (s.setI v).stack = s.stack := rfl
@[simp] theorem State.setI_SP (v : Word) : (s.setI v).SP = s.SP := rfl
@[simp] theorem State.setI_DT (v : Word) : (s.setI v).DT = s.DT := rfl
@[simp] theorem State.setI_ST (v : Word) : (s.setI v).ST = s.ST := rfl
@[simp] theorem State.setI_keys (v : Word) : (s.setI v).keys = s.keys := rfl
@[simp] theorem State.setI_execState (v : Word) : (s.setI v).execState = s.execState := rfl
@[simp] theorem State.setI_fb (v : Word) : (s.setI v).fb = s.fb := rfl
@[simp] theorem State.setI_run (v : Word) : (s.setI v).run = s.run := rfl
@[simp] theorem State.setI_loadTruncated (v : Word) : (s.setI v).loadTruncated = s.loadTruncated := rfl
@[simp] theorem State.setI_loaded (v : Word) : (s.setI v).loaded = s.loaded := rfl
@[simp] theorem State.setI_phase (v : Word) : (s.setI v).phase = s.phase := rfl
@[simp] theorem State.setI_drawFlag (v : Word) : (s.setI v).drawFlag = s.drawFlag := rfl
@[simp] theorem State.setI_inputs (v : Word) : (s.setI v).inputs = s.inputs := rfl
@[simp] theorem State.setI_draws (v : Word) : (s.setI v).draws = s.draws := rfl
@[simp] theorem State.setI_refreshes (v : Word) : (s.setI v).refreshes = s.refreshes := rfl

/-! `setPc` -/

@[simp] theorem State.setPc_mem (v : Word) : (s.setPc v).mem = s.mem := rfl
@[simp] theorem State.setPc_V (v : Word) : (s.setPc v).V = s.V := rfl
@[simp] theorem State.setPc_I (v : Word) : (s.setPc v).I = s.I := rfl
@[simp] theorem State.setPc_pc (v : Word) : (s.setPc v).pc = v := rfl
@[simp] theorem State.setPc_stack (v : Word) : (s.setPc v).stack = s.stack := rfl
@[simp] theorem State.setPc_SP (v : Word) : (s.setPc v).SP = s.SP := rfl
@[simp] theorem State.setPc_DT (v : Word) : (s.setPc v).DT = s.DT := rfl
@[simp] theorem State.setPc_ST (v : Word) : (s.setPc v).ST = s.ST := rfl
@[simp] theorem State.setPc_keys (v : Word) : (s.setPc v).keys = s.keys := rfl
@[simp] theorem State.setPc_execState (v : Word) : (s.setPc v).execState = s.execState := rfl
@[simp] theorem State.setPc_fb (v : Word) : (s.setPc v).fb = s.fb := rfl
@[simp] theorem State.setPc_run (v : Word) : (s.setPc v).run = s.run := rfl
@[simp] theorem State.setPc_loadTruncated (v : Word) : (s.setPc v).loadTruncated = s.loadTruncated := rfl
@[simp] theorem State.setPc_loaded (v : Word) : (s.setPc v).loaded = s.loaded := rfl
@[simp] theorem State.setPc_phase (v : Word) : (s.setPc v).phase = s.phase := rfl
@[simp] theorem State.setPc_drawFlag (v : Word) : (s.setPc v).drawFlag = s.drawFlag := rfl
@[simp] theorem State.setPc_inputs (v : Word) : (s.setPc v).inputs = s.inputs := rfl
@[simp] theorem State.setPc_draws (v : Word) : (s.setPc v).draws = s.draws := rfl
@[simp] theorem State.setPc_refreshes (v : Word) : (s.setPc v).refreshes = s.refreshes := rfl

/-! `advance` -/

@[simp] theorem State.advance_mem : (s.advance).mem = s.mem := rfl
@[simp] theorem State.advance_V : (s.advance).V = s.V := rfl
@[simp] theorem State.advance_I : (s.advance).I = s.I := rfl
@[simp] theorem State.advance_pc : (s.advance).pc = s.pc + 2 := rfl
@[simp] theorem State.advance_stack : (s.advance).stack = s.stack := rfl
@[simp] theorem State.advance_SP : (s.advance).SP = s.SP := rfl
@[simp] theorem State.advance_DT : (s.advance).DT = s.DT := rfl
@[simp] theorem State.advance_ST : (s.advance).ST = s.ST := rfl
@[simp] theorem State.advance_keys : (s.advance).keys = s.keys := rfl
@[simp] theorem State.advance_execState : (s.advance).execState = s.execState := rfl
@[simp] theorem State.advance_fb : (s.advance).fb = s.fb := rfl
@[simp] theorem State.advance_run : (s.advance).run = s.run := rfl
@[simp] theorem State.advance_loadTruncated : (s.advance).loadTruncated = s.loadTruncated := rfl
@[simp] theorem State.advance_loaded : (s.advance).loaded = s.loaded := rfl
@[simp] theorem State.advance_phase : (s.advance).phase = s.phase := rfl
@[simp] theorem State.advance_drawFlag : (s.advance).drawFlag = false := rfl
@[simp] theorem State.advance_inputs : (s.advance).inputs = s.inputs := rfl
@[simp] theorem State.advance_draws : (s.advance).draws = s.draws := rfl
@[simp] theorem State.advance_refreshes : (s.advance).refreshes = s.refreshes := rfl

/-! `push` -/

@[simp] theorem State.push_mem (v : Word) (h : s.SP.val < Config.stackDepth) : (s.push v h).mem = s.mem := rfl
@[simp] theorem State.push_V (v : Word) (h : s.SP.val < Config.stackDepth) : (s.push v h).V = s.V := rfl
@[simp] theorem State.push_I (v : Word) (h : s.SP.val < Config.stackDepth) : (s.push v h).I = s.I := rfl
@[simp] theorem State.push_pc (v : Word) (h : s.SP.val < Config.stackDepth) : (s.push v h).pc = s.pc := rfl
@[simp] theorem State.push_stack (v : Word) (h : s.SP.val < Config.stackDepth) : (s.push v h).stack = s.stack.set s.SP.val v := rfl
@[simp] theorem State.push_SP (v : Word) (h : s.SP.val < Config.stackDepth) : (s.push v h).SP = ⟨s.SP.val + 1, Nat.succ_lt_succ h⟩ := rfl
@[simp] theorem State.push_DT (v : Word) (h : s.SP.val < Config.stackDepth) : (s.push v h).DT = s.DT := rfl
@[simp] theorem State.push_ST (v : Word) (h : s.SP.val < Config.stackDepth) : (s.push v h).ST = s.ST := rfl
@[simp] theorem State.push_keys (v : Word) (h : s.SP.val < Config.stackDepth) : (s.push v h).keys = s.keys := rfl
@[simp] theorem State.push_execState (v : Word) (h : s.SP.val < Config.stackDepth) : (s.push v h).execState = s.execState := rfl
@[simp] theorem State.push_fb (v : Word) (h : s.SP.val < Config.stackDepth) : (s.push v h).fb = s.fb := rfl
@[simp] theorem State.push_run (v : Word) (h : s.SP.val < Config.stackDepth) : (s.push v h).run = s.run := rfl
@[simp] theorem State.push_loadTruncated (v : Word) (h : s.SP.val < Config.stackDepth) : (s.push v h).loadTruncated = s.loadTruncated := rfl
@[simp] theorem State.push_loaded (v : Word) (h : s.SP.val < Config.stackDepth) : (s.push v h).loaded = s.loaded := rfl
@[simp] theorem State.push_phase (v : Word) (h : s.SP.val < Config.stackDepth) : (s.push v h).phase = s.phase := rfl
@[simp] theorem State.push_drawFlag (v : Word) (h : s.SP.val < Config.stackDepth) : (s.push v h).drawFlag = s.drawFlag := rfl
@[simp] theorem State.push_inputs (v : Word) (h : s.SP.val < Config.stackDepth) : (s.push v h).inputs = s.inputs := rfl
@[simp] theorem State.push_draws (v : Word) (h : s.SP.val < Config.stackDepth) : (s.push v h).draws = s.draws := rfl
@[simp] theorem State.push_refreshes (v : Word) (h : s.SP.val < Config.stackDepth) : (s.push v h).refreshes = s.refreshes := rfl

/-! `pop` -/

@[simp] theorem State.pop_mem : (s.pop).mem = s.mem := rfl
@[simp] theorem State.pop_V : (s.pop).V = s.V := rfl
@[simp] theorem State.pop_I : (s.pop).I = s.I := rfl
@[simp] theorem State.pop_pc : (s.pop).pc = s.pc := rfl
@[simp] theorem State.pop_stack : (s.pop).stack = s.stack := rfl
@[simp] theorem State.pop_DT : (s.pop).DT = s.DT := rfl
@[simp] theorem State.pop_ST : (s.pop).ST = s.ST := rfl
@[simp] theorem State.pop_keys : (s.pop).keys = s.keys := rfl
@[simp] theorem State.pop_execState : (s.pop).execState = s.execState := rfl
@[simp] theorem State.pop_fb : (s.pop).fb = s.fb := rfl
@[simp] theorem State.pop_run : (s.pop).run = s.run := rfl
@[simp] theorem State.pop_loadTruncated : (s.pop).loadTruncated = s.loadTruncated := rfl
@[simp] theorem State.pop_loaded : (s.pop).loaded = s.loaded := rfl
@[simp] theorem State.pop_phase : (s.pop).phase = s.phase := rfl
@[simp] theorem State.pop_drawFlag : (s.pop).drawFlag = s.drawFlag := rfl
@[simp] theorem State.pop_inputs : (s.pop).inputs = s.inputs := rfl
@[simp] theorem State.pop_draws : (s.pop).draws = s.draws := rfl
@[simp] theorem State.pop_refreshes : (s.pop).refreshes = s.refreshes := rfl

/-! `setDT` -/

@[simp] theorem State.setDT_mem (v : Byte) : (s.setDT v).mem = s.mem := rfl
@[simp] theorem State.setDT_V (v : Byte) : (s.setDT v).V = s.V := rfl
@[simp] theorem State.setDT_I (v : Byte) : (s.setDT v).I = s.I := rfl
@[simp] theorem State.setDT_pc (v : Byte) : (s.setDT v).pc = s.pc := rfl
@[simp] theorem State.setDT_stack (v : Byte) : (s.setDT v).stack = s.stack := rfl
@[simp] theorem State.setDT_SP (v : Byte) : (s.setDT v).SP = s.SP := rfl
@[simp] theorem State.setDT_DT (v : Byte) : (s.setDT v).DT = v := rfl
@[simp] theorem State.setDT_ST (v : Byte) : (s.setDT v).ST = s.ST := rfl
@[simp] theorem State.setDT_keys (v : Byte) : (s.setDT v).keys = s.keys := rfl
@[simp] theorem State.setDT_execState (v : Byte) : (s.setDT v).execState = s.execState := rfl
@[simp] theorem State.setDT_fb (v : Byte) : (s.setDT v).fb = s.fb := rfl
@[simp] theorem State.setDT_run (v : Byte) : (s.setDT v).run = s.run := rfl
@[simp] theorem State.setDT_loadTruncated (v : Byte) : (s.setDT v).loadTruncated = s.loadTruncated := rfl
@[simp] theorem State.setDT_loaded (v : Byte) : (s.setDT v).loaded = s.loaded := rfl
@[simp] theorem State.setDT_phase (v : Byte) : (s.setDT v).phase = s.phase := rfl
@[simp] theorem State.setDT_drawFlag (v : Byte) : (s.setDT v).drawFlag = s.drawFlag := rfl
@[simp] theorem State.setDT_inputs (v : Byte) : (s.setDT v).inputs = s.inputs := rfl
@[simp] theorem State.setDT_draws (v : Byte) : (s.setDT v).draws = s.draws := rfl
@[simp] theorem State.setDT_refreshes (v : Byte) : (s.setDT v).refreshes = s.refreshes := rfl

/-! `setST` -/

@[simp] theorem State.setST_mem (v : Byte) : (s.setST v).mem = s.mem := rfl
@[simp] theorem State.setST_V (v : Byte) : (s.setST v).V = s.V := rfl
@[simp] theorem State.setST_I (v : Byte) : (s.setST v).I = s.I := rfl
@[simp] theorem State.setST_pc (v : Byte) : (s.setST v).pc = s.pc := rfl
@[simp] theorem State.setST_stack (v : Byte) : (s.setST v).stack = s.stack := rfl
@[simp] theorem State.setST_SP (v : Byte) : (s.setST v).SP = s.SP := rfl
@[simp] theorem State.setST_DT (v : Byte) : (s.setST v).DT = s.DT := rfl
@[simp] theorem State.setST_ST (v : Byte) : (s.setST v).ST = v := rfl
@[simp] theorem State.setST_keys (v : Byte) : (s.setST v).keys = s.keys := rfl
@[simp] theorem State.setST_execState (v : Byte) : (s.setST v).execState = s.execState := rfl
@[simp] theorem State.setST_fb (v : Byte) : (s.setST v).fb = s.fb := rfl
@[simp] theorem State.setST_run (v : Byte) : (s.setST v).run = s.run := rfl
@[simp] theorem State.setST_loadTruncated (v : Byte) : (s.setST v).loadTruncated = s.loadTruncated := rfl
@[simp] theorem State.setST_loaded (v : Byte) : (s.setST v).loaded = s.loaded := rfl
@[simp] theorem State.setST_phase (v : Byte) : (s.setST v).phase = s.phase := rfl
@[simp] theorem State.setST_drawFlag (v : Byte) : (s.setST v).drawFlag = s.drawFlag := rfl
@[simp] theorem State.setST_inputs (v : Byte) : (s.setST v).inputs = s.inputs := rfl
@[simp] theorem State.setST_draws (v : Byte) : (s.setST v).draws = s.draws := rfl
@[simp] theorem State.setST_refreshes (v : Byte) : (s.setST v).refreshes = s.refreshes := rfl

/-! `setKey` -/

@[simp] theorem State.setKey_mem (k : Key) (p : Bool) : (s.setKey k p).mem = s.mem := rfl
@[simp] theorem State.setKey_V (k : Key) (p : Bool) : (s.setKey k p).V = s.V := rfl
@[simp] theorem State.setKey_I (k : Key) (p : Bool) : (s.setKey k p).I = s.I := rfl
@[simp] theorem State.setKey_pc (k : Key) (p : Bool) : (s.setKey k p).pc = s.pc := rfl
@[simp] theorem State.setKey_stack (k : Key) (p : Bool) : (s.setKey k p).stack = s.stack := rfl
@[simp] theorem State.setKey_SP (k : Key) (p : Bool) : (s.setKey k p).SP = s.SP := rfl
@[simp] theorem State.setKey_DT (k : Key) (p : Bool) : (s.setKey k p).DT = s.DT := rfl
@[simp] theorem State.setKey_ST (k : Key) (p : Bool) : (s.setKey k p).ST = s.ST := rfl
@[simp] theorem State.setKey_keys (k : Key) (p : Bool) : (s.setKey k p).keys = s.keys.set k p := rfl
@[simp] theorem State.setKey_execState (k : Key) (p : Bool) : (s.setKey k p).execState = s.execState := rfl
@[simp] theorem State.setKey_fb (k : Key) (p : Bool) : (s.setKey k p).fb = s.fb := rfl
@[simp] theorem State.setKey_run (k : Key) (p : Bool) : (s.setKey k p).run = s.run := rfl
@[simp] theorem State.setKey_loadTruncated (k : Key) (p : Bool) : (s.setKey k p).loadTruncated = s.loadTruncated := rfl
@[simp] theorem State.setKey_loaded (k : Key) (p : Bool) : (s.setKey k p).loaded = s.loaded := rfl
@[simp] theorem State.setKey_phase (k : Key) (p : Bool) : (s.setKey k p).phase = s.phase := rfl
@[simp] theorem State.setKey_drawFlag (k : Key) (p : Bool) : (s.setKey k p).drawFlag = s.drawFlag := rfl
@[simp] theorem State.setKey_inputs (k : Key) (p : Bool) : (s.setKey k p).inputs = s.inputs := rfl
@[simp] theorem State.setKey_draws (k : Key) (p : Bool) : (s.setKey k p).draws = s.draws := rfl
@[simp] theorem State.setKey_refreshes (k : Key) (p : Bool) : (s.setKey k p).refreshes = s.refreshes := rfl

/-! `setExec` -/

@[simp] theorem State.setExec_mem (e : ExecState) : (s.setExec e).mem = s.mem := rfl
@[simp] theorem State.setExec_V (e : ExecState) : (s.setExec e).V = s.V := rfl
@[simp] theorem State.setExec_I (e : ExecState) : (s.setExec e).I = s.I := rfl
@[simp] theorem State.setExec_pc (e : ExecState) : (s.setExec e).pc = s.pc := rfl
@[simp] theorem State.setExec_stack (e : ExecState) : (s.setExec e).stack = s.stack := rfl
@[simp] theorem State.setExec_SP (e : ExecState) : (s.setExec e).SP = s.SP := rfl
@[simp] theorem State.setExec_DT (e : ExecState) : (s.setExec e).DT = s.DT := rfl
@[simp] theorem State.setExec_ST (e : ExecState) : (s.setExec e).ST = s.ST := rfl
@[simp] theorem State.setExec_keys (e : ExecState) : (s.setExec e).keys = s.keys := rfl
@[simp] theorem State.setExec_execState (e : ExecState) : (s.setExec e).execState = e := rfl
@[simp] theorem State.setExec_fb (e : ExecState) : (s.setExec e).fb = s.fb := rfl
@[simp] theorem State.setExec_run (e : ExecState) : (s.setExec e).run = s.run := rfl
@[simp] theorem State.setExec_loadTruncated (e : ExecState) : (s.setExec e).loadTruncated = s.loadTruncated := rfl
@[simp] theorem State.setExec_loaded (e : ExecState) : (s.setExec e).loaded = s.loaded := rfl
@[simp] theorem State.setExec_phase (e : ExecState) : (s.setExec e).phase = s.phase := rfl
@[simp] theorem State.setExec_drawFlag (e : ExecState) : (s.setExec e).drawFlag = s.drawFlag := rfl
@[simp] theorem State.setExec_inputs (e : ExecState) : (s.setExec e).inputs = s.inputs := rfl
@[simp] theorem State.setExec_draws (e : ExecState) : (s.setExec e).draws = s.draws := rfl
@[simp] theorem State.setExec_refreshes (e : ExecState) : (s.setExec e).refreshes = s.refreshes := rfl

/-! `setFb` -/

@[simp] theorem State.setFb_mem (f : Screen) : (s.setFb f).mem = s.mem := rfl
@[simp] theorem State.setFb_V (f : Screen) : (s.setFb f).V = s.V := rfl
@[simp] theorem State.setFb_I (f : Screen) : (s.setFb f).I = s.I := rfl
@[simp] theorem State.setFb_pc (f : Screen) : (s.setFb f).pc = s.pc := rfl
@[simp] theorem State.setFb_stack (f : Screen) : (s.setFb f).stack = s.stack := rfl
@[simp] theorem State.setFb_SP (f : Screen) : (s.setFb f).SP = s.SP := rfl
@[simp] theorem State.setFb_DT (f : Screen) : (s.setFb f).DT = s.DT := rfl
@[simp] theorem State.setFb_ST (f : Screen) : (s.setFb f).ST = s.ST := rfl
@[simp] theorem State.setFb_keys (f : Screen) : (s.setFb f).keys = s.keys := rfl
@[simp] theorem State.setFb_execState (f : Screen) : (s.setFb f).execState = s.execState := rfl
@[simp] theorem State.setFb_fb (f : Screen) : (s.setFb f).fb = f := rfl
@[simp] theorem State.setFb_run (f : Screen) : (s.setFb f).run = s.run := rfl
@[simp] theorem State.setFb_loadTruncated (f : Screen) : (s.setFb f).loadTruncated = s.loadTruncated := rfl
@[simp] theorem State.setFb_loaded (f : Screen) : (s.setFb f).loaded = s.loaded := rfl
@[simp] theorem State.setFb_phase (f : Screen) : (s.setFb f).phase = s.phase := rfl
@[simp] theorem State.setFb_drawFlag (f : Screen) : (s.setFb f).drawFlag = s.drawFlag := rfl
@[simp] theorem State.setFb_inputs (f : Screen) : (s.setFb f).inputs = s.inputs := rfl
@[simp] theorem State.setFb_draws (f : Screen) : (s.setFb f).draws = s.draws := rfl
@[simp] theorem State.setFb_refreshes (f : Screen) : (s.setFb f).refreshes = s.refreshes := rfl

/-! `markDraw` -/

@[simp] theorem State.markDraw_mem : (s.markDraw).mem = s.mem := rfl
@[simp] theorem State.markDraw_V : (s.markDraw).V = s.V := rfl
@[simp] theorem State.markDraw_I : (s.markDraw).I = s.I := rfl
@[simp] theorem State.markDraw_pc : (s.markDraw).pc = s.pc := rfl
@[simp] theorem State.markDraw_stack : (s.markDraw).stack = s.stack := rfl
@[simp] theorem State.markDraw_SP : (s.markDraw).SP = s.SP := rfl
@[simp] theorem State.markDraw_DT : (s.markDraw).DT = s.DT := rfl
@[simp] theorem State.markDraw_ST : (s.markDraw).ST = s.ST := rfl
@[simp] theorem State.markDraw_keys : (s.markDraw).keys = s.keys := rfl
@[simp] theorem State.markDraw_execState : (s.markDraw).execState = s.execState := rfl
@[simp] theorem State.markDraw_fb : (s.markDraw).fb = s.fb := rfl
@[simp] theorem State.markDraw_run : (s.markDraw).run = s.run := rfl
@[simp] theorem State.markDraw_loadTruncated : (s.markDraw).loadTruncated = s.loadTruncated := rfl
@[simp] theorem State.markDraw_loaded : (s.markDraw).loaded = s.loaded := rfl
@[simp] theorem State.markDraw_phase : (s.markDraw).phase = s.phase := rfl
@[simp] theorem State.markDraw_drawFlag : (s.markDraw).drawFlag = true := rfl
@[simp] theorem State.markDraw_inputs : (s.markDraw).inputs = s.inputs := rfl
@[simp] theorem State.markDraw_draws : (s.markDraw).draws = s.draws := rfl
@[simp] theorem State.markDraw_refreshes : (s.markDraw).refreshes = s.refreshes := rfl

/-! `takeRandom` -/

@[simp] theorem State.takeRandom_mem : (s.takeRandom).mem = s.mem := rfl
@[simp] theorem State.takeRandom_V : (s.takeRandom).V = s.V := rfl
@[simp] theorem State.takeRandom_I : (s.takeRandom).I = s.I := rfl
@[simp] theorem State.takeRandom_pc : (s.takeRandom).pc = s.pc := rfl
@[simp] theorem State.takeRandom_stack : (s.takeRandom).stack = s.stack := rfl
@[simp] theorem State.takeRandom_SP : (s.takeRandom).SP = s.SP := rfl
@[simp] theorem State.takeRandom_DT : (s.takeRandom).DT = s.DT := rfl
@[simp] theorem State.takeRandom_ST : (s.takeRandom).ST = s.ST := rfl
@[simp] theorem State.takeRandom_keys : (s.takeRandom).keys = s.keys := rfl
@[simp] theorem State.takeRandom_execState : (s.takeRandom).execState = s.execState := rfl
@[simp] theorem State.takeRandom_fb : (s.takeRandom).fb = s.fb := rfl
@[simp] theorem State.takeRandom_run : (s.takeRandom).run = s.run := rfl
@[simp] theorem State.takeRandom_loadTruncated : (s.takeRandom).loadTruncated = s.loadTruncated := rfl
@[simp] theorem State.takeRandom_loaded : (s.takeRandom).loaded = s.loaded := rfl
@[simp] theorem State.takeRandom_phase : (s.takeRandom).phase = s.phase := rfl
@[simp] theorem State.takeRandom_drawFlag : (s.takeRandom).drawFlag = s.drawFlag := rfl
@[simp] theorem State.takeRandom_inputs : (s.takeRandom).inputs = s.inputs := rfl
@[simp] theorem State.takeRandom_draws : (s.takeRandom).draws = s.draws + 1 := rfl
@[simp] theorem State.takeRandom_refreshes : (s.takeRandom).refreshes = s.refreshes := rfl

/-! `takeFault` -/

@[simp] theorem State.takeFault_mem (c : Cause) (addr opcode : Option Word) : (s.takeFault c addr opcode).mem = s.mem := rfl
@[simp] theorem State.takeFault_V (c : Cause) (addr opcode : Option Word) : (s.takeFault c addr opcode).V = s.V := rfl
@[simp] theorem State.takeFault_I (c : Cause) (addr opcode : Option Word) : (s.takeFault c addr opcode).I = s.I := rfl
@[simp] theorem State.takeFault_pc (c : Cause) (addr opcode : Option Word) : (s.takeFault c addr opcode).pc = s.pc := rfl
@[simp] theorem State.takeFault_stack (c : Cause) (addr opcode : Option Word) : (s.takeFault c addr opcode).stack = s.stack := rfl
@[simp] theorem State.takeFault_SP (c : Cause) (addr opcode : Option Word) : (s.takeFault c addr opcode).SP = s.SP := rfl
@[simp] theorem State.takeFault_DT (c : Cause) (addr opcode : Option Word) : (s.takeFault c addr opcode).DT = s.DT := rfl
@[simp] theorem State.takeFault_ST (c : Cause) (addr opcode : Option Word) : (s.takeFault c addr opcode).ST = s.ST := rfl
@[simp] theorem State.takeFault_keys (c : Cause) (addr opcode : Option Word) : (s.takeFault c addr opcode).keys = s.keys := rfl
@[simp] theorem State.takeFault_execState (c : Cause) (addr opcode : Option Word) : (s.takeFault c addr opcode).execState = s.execState := rfl
@[simp] theorem State.takeFault_fb (c : Cause) (addr opcode : Option Word) : (s.takeFault c addr opcode).fb = s.fb := rfl
@[simp] theorem State.takeFault_run (c : Cause) (addr opcode : Option Word) : (s.takeFault c addr opcode).run = .faulted c addr opcode := rfl
@[simp] theorem State.takeFault_loadTruncated (c : Cause) (addr opcode : Option Word) : (s.takeFault c addr opcode).loadTruncated = s.loadTruncated := rfl
@[simp] theorem State.takeFault_loaded (c : Cause) (addr opcode : Option Word) : (s.takeFault c addr opcode).loaded = s.loaded := rfl
@[simp] theorem State.takeFault_phase (c : Cause) (addr opcode : Option Word) : (s.takeFault c addr opcode).phase = s.phase := rfl
@[simp] theorem State.takeFault_drawFlag (c : Cause) (addr opcode : Option Word) : (s.takeFault c addr opcode).drawFlag = s.drawFlag := rfl
@[simp] theorem State.takeFault_inputs (c : Cause) (addr opcode : Option Word) : (s.takeFault c addr opcode).inputs = s.inputs := rfl
@[simp] theorem State.takeFault_draws (c : Cause) (addr opcode : Option Word) : (s.takeFault c addr opcode).draws = s.draws := rfl
@[simp] theorem State.takeFault_refreshes (c : Cause) (addr opcode : Option Word) : (s.takeFault c addr opcode).refreshes = s.refreshes := rfl

/-! `raiseAt` -/

@[simp] theorem State.raiseAt_mem (c : Cause) (i : Instr) : (s.raiseAt c i).mem = s.mem := rfl
@[simp] theorem State.raiseAt_V (c : Cause) (i : Instr) : (s.raiseAt c i).V = s.V := rfl
@[simp] theorem State.raiseAt_I (c : Cause) (i : Instr) : (s.raiseAt c i).I = s.I := rfl
@[simp] theorem State.raiseAt_pc (c : Cause) (i : Instr) : (s.raiseAt c i).pc = s.pc := rfl
@[simp] theorem State.raiseAt_stack (c : Cause) (i : Instr) : (s.raiseAt c i).stack = s.stack := rfl
@[simp] theorem State.raiseAt_SP (c : Cause) (i : Instr) : (s.raiseAt c i).SP = s.SP := rfl
@[simp] theorem State.raiseAt_DT (c : Cause) (i : Instr) : (s.raiseAt c i).DT = s.DT := rfl
@[simp] theorem State.raiseAt_ST (c : Cause) (i : Instr) : (s.raiseAt c i).ST = s.ST := rfl
@[simp] theorem State.raiseAt_keys (c : Cause) (i : Instr) : (s.raiseAt c i).keys = s.keys := rfl
@[simp] theorem State.raiseAt_execState (c : Cause) (i : Instr) : (s.raiseAt c i).execState = s.execState := rfl
@[simp] theorem State.raiseAt_fb (c : Cause) (i : Instr) : (s.raiseAt c i).fb = s.fb := rfl
@[simp] theorem State.raiseAt_run (c : Cause) (i : Instr) : (s.raiseAt c i).run = .faulted c (some s.pc) (some (encode i)) := rfl
@[simp] theorem State.raiseAt_loadTruncated (c : Cause) (i : Instr) : (s.raiseAt c i).loadTruncated = s.loadTruncated := rfl
@[simp] theorem State.raiseAt_loaded (c : Cause) (i : Instr) : (s.raiseAt c i).loaded = s.loaded := rfl
@[simp] theorem State.raiseAt_phase (c : Cause) (i : Instr) : (s.raiseAt c i).phase = s.phase := rfl
@[simp] theorem State.raiseAt_drawFlag (c : Cause) (i : Instr) : (s.raiseAt c i).drawFlag = s.drawFlag := rfl
@[simp] theorem State.raiseAt_inputs (c : Cause) (i : Instr) : (s.raiseAt c i).inputs = s.inputs := rfl
@[simp] theorem State.raiseAt_draws (c : Cause) (i : Instr) : (s.raiseAt c i).draws = s.draws := rfl
@[simp] theorem State.raiseAt_refreshes (c : Cause) (i : Instr) : (s.raiseAt c i).refreshes = s.refreshes := rfl

/-! `loadRegsUpTo` -/

@[simp] theorem State.loadRegsUpTo_mem (x : Reg) : (s.loadRegsUpTo x).mem = s.mem := rfl
@[simp] theorem State.loadRegsUpTo_I (x : Reg) : (s.loadRegsUpTo x).I = s.I := rfl
@[simp] theorem State.loadRegsUpTo_pc (x : Reg) : (s.loadRegsUpTo x).pc = s.pc := rfl
@[simp] theorem State.loadRegsUpTo_stack (x : Reg) : (s.loadRegsUpTo x).stack = s.stack := rfl
@[simp] theorem State.loadRegsUpTo_SP (x : Reg) : (s.loadRegsUpTo x).SP = s.SP := rfl
@[simp] theorem State.loadRegsUpTo_DT (x : Reg) : (s.loadRegsUpTo x).DT = s.DT := rfl
@[simp] theorem State.loadRegsUpTo_ST (x : Reg) : (s.loadRegsUpTo x).ST = s.ST := rfl
@[simp] theorem State.loadRegsUpTo_keys (x : Reg) : (s.loadRegsUpTo x).keys = s.keys := rfl
@[simp] theorem State.loadRegsUpTo_execState (x : Reg) : (s.loadRegsUpTo x).execState = s.execState := rfl
@[simp] theorem State.loadRegsUpTo_fb (x : Reg) : (s.loadRegsUpTo x).fb = s.fb := rfl
@[simp] theorem State.loadRegsUpTo_run (x : Reg) : (s.loadRegsUpTo x).run = s.run := rfl
@[simp] theorem State.loadRegsUpTo_loadTruncated (x : Reg) : (s.loadRegsUpTo x).loadTruncated = s.loadTruncated := rfl
@[simp] theorem State.loadRegsUpTo_loaded (x : Reg) : (s.loadRegsUpTo x).loaded = s.loaded := rfl
@[simp] theorem State.loadRegsUpTo_phase (x : Reg) : (s.loadRegsUpTo x).phase = s.phase := rfl
@[simp] theorem State.loadRegsUpTo_drawFlag (x : Reg) : (s.loadRegsUpTo x).drawFlag = s.drawFlag := rfl
@[simp] theorem State.loadRegsUpTo_inputs (x : Reg) : (s.loadRegsUpTo x).inputs = s.inputs := rfl
@[simp] theorem State.loadRegsUpTo_draws (x : Reg) : (s.loadRegsUpTo x).draws = s.draws := rfl
@[simp] theorem State.loadRegsUpTo_refreshes (x : Reg) : (s.loadRegsUpTo x).refreshes = s.refreshes := rfl

/-! `countTimers` -/

@[simp] theorem State.countTimers_mem : (s.countTimers).mem = s.mem := rfl
@[simp] theorem State.countTimers_V : (s.countTimers).V = s.V := rfl
@[simp] theorem State.countTimers_I : (s.countTimers).I = s.I := rfl
@[simp] theorem State.countTimers_pc : (s.countTimers).pc = s.pc := rfl
@[simp] theorem State.countTimers_stack : (s.countTimers).stack = s.stack := rfl
@[simp] theorem State.countTimers_SP : (s.countTimers).SP = s.SP := rfl
@[simp] theorem State.countTimers_DT : (s.countTimers).DT = countdown s.DT := rfl
@[simp] theorem State.countTimers_ST : (s.countTimers).ST = countdown s.ST := rfl
@[simp] theorem State.countTimers_keys : (s.countTimers).keys = s.keys := rfl
@[simp] theorem State.countTimers_execState : (s.countTimers).execState = s.execState := rfl
@[simp] theorem State.countTimers_fb : (s.countTimers).fb = s.fb := rfl
@[simp] theorem State.countTimers_run : (s.countTimers).run = s.run := rfl
@[simp] theorem State.countTimers_loadTruncated : (s.countTimers).loadTruncated = s.loadTruncated := rfl
@[simp] theorem State.countTimers_loaded : (s.countTimers).loaded = s.loaded := rfl
@[simp] theorem State.countTimers_phase : (s.countTimers).phase = s.phase := rfl
@[simp] theorem State.countTimers_drawFlag : (s.countTimers).drawFlag = s.drawFlag := rfl
@[simp] theorem State.countTimers_inputs : (s.countTimers).inputs = s.inputs := rfl
@[simp] theorem State.countTimers_draws : (s.countTimers).draws = s.draws := rfl
@[simp] theorem State.countTimers_refreshes : (s.countTimers).refreshes = s.refreshes := rfl

/-! `emitRefresh` -/

@[simp] theorem State.emitRefresh_mem : (s.emitRefresh).mem = s.mem := rfl
@[simp] theorem State.emitRefresh_V : (s.emitRefresh).V = s.V := rfl
@[simp] theorem State.emitRefresh_I : (s.emitRefresh).I = s.I := rfl
@[simp] theorem State.emitRefresh_pc : (s.emitRefresh).pc = s.pc := rfl
@[simp] theorem State.emitRefresh_stack : (s.emitRefresh).stack = s.stack := rfl
@[simp] theorem State.emitRefresh_SP : (s.emitRefresh).SP = s.SP := rfl
@[simp] theorem State.emitRefresh_DT : (s.emitRefresh).DT = s.DT := rfl
@[simp] theorem State.emitRefresh_ST : (s.emitRefresh).ST = s.ST := rfl
@[simp] theorem State.emitRefresh_keys : (s.emitRefresh).keys = s.keys := rfl
@[simp] theorem State.emitRefresh_execState : (s.emitRefresh).execState = s.execState := rfl
@[simp] theorem State.emitRefresh_fb : (s.emitRefresh).fb = s.fb := rfl
@[simp] theorem State.emitRefresh_run : (s.emitRefresh).run = s.run := rfl
@[simp] theorem State.emitRefresh_loadTruncated : (s.emitRefresh).loadTruncated = s.loadTruncated := rfl
@[simp] theorem State.emitRefresh_loaded : (s.emitRefresh).loaded = s.loaded := rfl
@[simp] theorem State.emitRefresh_phase : (s.emitRefresh).phase = s.phase := rfl
@[simp] theorem State.emitRefresh_drawFlag : (s.emitRefresh).drawFlag = s.drawFlag := rfl
@[simp] theorem State.emitRefresh_inputs : (s.emitRefresh).inputs = s.inputs := rfl
@[simp] theorem State.emitRefresh_draws : (s.emitRefresh).draws = s.draws := rfl
@[simp] theorem State.emitRefresh_refreshes : (s.emitRefresh).refreshes = s.refreshes + 1 := rfl

/-! `leaveFrame` -/

@[simp] theorem State.leaveFrame_mem : (s.leaveFrame).mem = s.mem := rfl
@[simp] theorem State.leaveFrame_V : (s.leaveFrame).V = s.V := rfl
@[simp] theorem State.leaveFrame_I : (s.leaveFrame).I = s.I := rfl
@[simp] theorem State.leaveFrame_pc : (s.leaveFrame).pc = s.pc := rfl
@[simp] theorem State.leaveFrame_stack : (s.leaveFrame).stack = s.stack := rfl
@[simp] theorem State.leaveFrame_SP : (s.leaveFrame).SP = s.SP := rfl
@[simp] theorem State.leaveFrame_DT : (s.leaveFrame).DT = s.DT := rfl
@[simp] theorem State.leaveFrame_ST : (s.leaveFrame).ST = s.ST := rfl
@[simp] theorem State.leaveFrame_keys : (s.leaveFrame).keys = s.keys := rfl
@[simp] theorem State.leaveFrame_execState : (s.leaveFrame).execState = s.execState := rfl
@[simp] theorem State.leaveFrame_fb : (s.leaveFrame).fb = s.fb := rfl
@[simp] theorem State.leaveFrame_run : (s.leaveFrame).run = s.run := rfl
@[simp] theorem State.leaveFrame_loadTruncated : (s.leaveFrame).loadTruncated = s.loadTruncated := rfl
@[simp] theorem State.leaveFrame_loaded : (s.leaveFrame).loaded = s.loaded := rfl
@[simp] theorem State.leaveFrame_phase : (s.leaveFrame).phase = .between := rfl
@[simp] theorem State.leaveFrame_drawFlag : (s.leaveFrame).drawFlag = false := rfl
@[simp] theorem State.leaveFrame_inputs : (s.leaveFrame).inputs = s.inputs := rfl
@[simp] theorem State.leaveFrame_draws : (s.leaveFrame).draws = s.draws := rfl
@[simp] theorem State.leaveFrame_refreshes : (s.leaveFrame).refreshes = s.refreshes := rfl

/-! `enterFrame` -/

@[simp] theorem State.enterFrame_mem : (s.enterFrame).mem = s.mem := rfl
@[simp] theorem State.enterFrame_V : (s.enterFrame).V = s.V := rfl
@[simp] theorem State.enterFrame_I : (s.enterFrame).I = s.I := rfl
@[simp] theorem State.enterFrame_pc : (s.enterFrame).pc = s.pc := rfl
@[simp] theorem State.enterFrame_stack : (s.enterFrame).stack = s.stack := rfl
@[simp] theorem State.enterFrame_SP : (s.enterFrame).SP = s.SP := rfl
@[simp] theorem State.enterFrame_DT : (s.enterFrame).DT = s.DT := rfl
@[simp] theorem State.enterFrame_ST : (s.enterFrame).ST = s.ST := rfl
@[simp] theorem State.enterFrame_keys : (s.enterFrame).keys = s.keys := rfl
@[simp] theorem State.enterFrame_execState : (s.enterFrame).execState = s.execState := rfl
@[simp] theorem State.enterFrame_fb : (s.enterFrame).fb = s.fb := rfl
@[simp] theorem State.enterFrame_run : (s.enterFrame).run = s.run := rfl
@[simp] theorem State.enterFrame_loadTruncated : (s.enterFrame).loadTruncated = s.loadTruncated := rfl
@[simp] theorem State.enterFrame_loaded : (s.enterFrame).loaded = s.loaded := rfl
@[simp] theorem State.enterFrame_phase : (s.enterFrame).phase = .burst 0 := rfl
@[simp] theorem State.enterFrame_drawFlag : (s.enterFrame).drawFlag = false := rfl
@[simp] theorem State.enterFrame_inputs : (s.enterFrame).inputs = s.inputs := rfl
@[simp] theorem State.enterFrame_draws : (s.enterFrame).draws = s.draws := rfl
@[simp] theorem State.enterFrame_refreshes : (s.enterFrame).refreshes = s.refreshes := rfl

/-! `skipIf` -/

@[simp] theorem State.skipIf_mem (c : Bool) : (s.skipIf c).mem = s.mem := by cases c <;> rfl
@[simp] theorem State.skipIf_V (c : Bool) : (s.skipIf c).V = s.V := by cases c <;> rfl
@[simp] theorem State.skipIf_I (c : Bool) : (s.skipIf c).I = s.I := by cases c <;> rfl
@[simp] theorem State.skipIf_stack (c : Bool) : (s.skipIf c).stack = s.stack := by cases c <;> rfl
@[simp] theorem State.skipIf_SP (c : Bool) : (s.skipIf c).SP = s.SP := by cases c <;> rfl
@[simp] theorem State.skipIf_DT (c : Bool) : (s.skipIf c).DT = s.DT := by cases c <;> rfl
@[simp] theorem State.skipIf_ST (c : Bool) : (s.skipIf c).ST = s.ST := by cases c <;> rfl
@[simp] theorem State.skipIf_keys (c : Bool) : (s.skipIf c).keys = s.keys := by cases c <;> rfl
@[simp] theorem State.skipIf_execState (c : Bool) : (s.skipIf c).execState = s.execState := by cases c <;> rfl
@[simp] theorem State.skipIf_fb (c : Bool) : (s.skipIf c).fb = s.fb := by cases c <;> rfl
@[simp] theorem State.skipIf_run (c : Bool) : (s.skipIf c).run = s.run := by cases c <;> rfl
@[simp] theorem State.skipIf_loadTruncated (c : Bool) : (s.skipIf c).loadTruncated = s.loadTruncated := by cases c <;> rfl
@[simp] theorem State.skipIf_loaded (c : Bool) : (s.skipIf c).loaded = s.loaded := by cases c <;> rfl
@[simp] theorem State.skipIf_phase (c : Bool) : (s.skipIf c).phase = s.phase := by cases c <;> rfl
@[simp] theorem State.skipIf_drawFlag (c : Bool) : (s.skipIf c).drawFlag = s.drawFlag := by cases c <;> rfl
@[simp] theorem State.skipIf_inputs (c : Bool) : (s.skipIf c).inputs = s.inputs := by cases c <;> rfl
@[simp] theorem State.skipIf_draws (c : Bool) : (s.skipIf c).draws = s.draws := by cases c <;> rfl
@[simp] theorem State.skipIf_refreshes (c : Bool) : (s.skipIf c).refreshes = s.refreshes := by cases c <;> rfl

/-! `logicFlag` -/

@[simp] theorem State.logicFlag_mem (q : Config.Quirks) : (s.logicFlag q).mem = s.mem := by unfold State.logicFlag; split <;> rfl
@[simp] theorem State.logicFlag_I (q : Config.Quirks) : (s.logicFlag q).I = s.I := by unfold State.logicFlag; split <;> rfl
@[simp] theorem State.logicFlag_pc (q : Config.Quirks) : (s.logicFlag q).pc = s.pc := by unfold State.logicFlag; split <;> rfl
@[simp] theorem State.logicFlag_stack (q : Config.Quirks) : (s.logicFlag q).stack = s.stack := by unfold State.logicFlag; split <;> rfl
@[simp] theorem State.logicFlag_SP (q : Config.Quirks) : (s.logicFlag q).SP = s.SP := by unfold State.logicFlag; split <;> rfl
@[simp] theorem State.logicFlag_DT (q : Config.Quirks) : (s.logicFlag q).DT = s.DT := by unfold State.logicFlag; split <;> rfl
@[simp] theorem State.logicFlag_ST (q : Config.Quirks) : (s.logicFlag q).ST = s.ST := by unfold State.logicFlag; split <;> rfl
@[simp] theorem State.logicFlag_keys (q : Config.Quirks) : (s.logicFlag q).keys = s.keys := by unfold State.logicFlag; split <;> rfl
@[simp] theorem State.logicFlag_execState (q : Config.Quirks) : (s.logicFlag q).execState = s.execState := by unfold State.logicFlag; split <;> rfl
@[simp] theorem State.logicFlag_fb (q : Config.Quirks) : (s.logicFlag q).fb = s.fb := by unfold State.logicFlag; split <;> rfl
@[simp] theorem State.logicFlag_run (q : Config.Quirks) : (s.logicFlag q).run = s.run := by unfold State.logicFlag; split <;> rfl
@[simp] theorem State.logicFlag_loadTruncated (q : Config.Quirks) : (s.logicFlag q).loadTruncated = s.loadTruncated := by unfold State.logicFlag; split <;> rfl
@[simp] theorem State.logicFlag_loaded (q : Config.Quirks) : (s.logicFlag q).loaded = s.loaded := by unfold State.logicFlag; split <;> rfl
@[simp] theorem State.logicFlag_phase (q : Config.Quirks) : (s.logicFlag q).phase = s.phase := by unfold State.logicFlag; split <;> rfl
@[simp] theorem State.logicFlag_drawFlag (q : Config.Quirks) : (s.logicFlag q).drawFlag = s.drawFlag := by unfold State.logicFlag; split <;> rfl
@[simp] theorem State.logicFlag_inputs (q : Config.Quirks) : (s.logicFlag q).inputs = s.inputs := by unfold State.logicFlag; split <;> rfl
@[simp] theorem State.logicFlag_draws (q : Config.Quirks) : (s.logicFlag q).draws = s.draws := by unfold State.logicFlag; split <;> rfl
@[simp] theorem State.logicFlag_refreshes (q : Config.Quirks) : (s.logicFlag q).refreshes = s.refreshes := by unfold State.logicFlag; split <;> rfl

/-! `resultThenFlag` -/

@[simp] theorem State.resultThenFlag_mem (x : Reg) (r f : Byte) : (s.resultThenFlag x r f).mem = s.mem := rfl
@[simp] theorem State.resultThenFlag_V (x : Reg) (r f : Byte) : (s.resultThenFlag x r f).V = (s.V.set x r).set VF f := rfl
@[simp] theorem State.resultThenFlag_I (x : Reg) (r f : Byte) : (s.resultThenFlag x r f).I = s.I := rfl
@[simp] theorem State.resultThenFlag_pc (x : Reg) (r f : Byte) : (s.resultThenFlag x r f).pc = s.pc := rfl
@[simp] theorem State.resultThenFlag_stack (x : Reg) (r f : Byte) : (s.resultThenFlag x r f).stack = s.stack := rfl
@[simp] theorem State.resultThenFlag_SP (x : Reg) (r f : Byte) : (s.resultThenFlag x r f).SP = s.SP := rfl
@[simp] theorem State.resultThenFlag_DT (x : Reg) (r f : Byte) : (s.resultThenFlag x r f).DT = s.DT := rfl
@[simp] theorem State.resultThenFlag_ST (x : Reg) (r f : Byte) : (s.resultThenFlag x r f).ST = s.ST := rfl
@[simp] theorem State.resultThenFlag_keys (x : Reg) (r f : Byte) : (s.resultThenFlag x r f).keys = s.keys := rfl
@[simp] theorem State.resultThenFlag_execState (x : Reg) (r f : Byte) : (s.resultThenFlag x r f).execState = s.execState := rfl
@[simp] theorem State.resultThenFlag_fb (x : Reg) (r f : Byte) : (s.resultThenFlag x r f).fb = s.fb := rfl
@[simp] theorem State.resultThenFlag_run (x : Reg) (r f : Byte) : (s.resultThenFlag x r f).run = s.run := rfl
@[simp] theorem State.resultThenFlag_loadTruncated (x : Reg) (r f : Byte) : (s.resultThenFlag x r f).loadTruncated = s.loadTruncated := rfl
@[simp] theorem State.resultThenFlag_loaded (x : Reg) (r f : Byte) : (s.resultThenFlag x r f).loaded = s.loaded := rfl
@[simp] theorem State.resultThenFlag_phase (x : Reg) (r f : Byte) : (s.resultThenFlag x r f).phase = s.phase := rfl
@[simp] theorem State.resultThenFlag_drawFlag (x : Reg) (r f : Byte) : (s.resultThenFlag x r f).drawFlag = s.drawFlag := rfl
@[simp] theorem State.resultThenFlag_inputs (x : Reg) (r f : Byte) : (s.resultThenFlag x r f).inputs = s.inputs := rfl
@[simp] theorem State.resultThenFlag_draws (x : Reg) (r f : Byte) : (s.resultThenFlag x r f).draws = s.draws := rfl
@[simp] theorem State.resultThenFlag_refreshes (x : Reg) (r f : Byte) : (s.resultThenFlag x r f).refreshes = s.refreshes := rfl

/-! `logicOp` -/

@[simp] theorem State.logicOp_mem (q : Config.Quirks) (x : Reg) (r : Byte) : (s.logicOp q x r).mem = s.mem := by simp [State.logicOp]
@[simp] theorem State.logicOp_I (q : Config.Quirks) (x : Reg) (r : Byte) : (s.logicOp q x r).I = s.I := by simp [State.logicOp]
@[simp] theorem State.logicOp_pc (q : Config.Quirks) (x : Reg) (r : Byte) : (s.logicOp q x r).pc = s.pc := by simp [State.logicOp]
@[simp] theorem State.logicOp_stack (q : Config.Quirks) (x : Reg) (r : Byte) : (s.logicOp q x r).stack = s.stack := by simp [State.logicOp]
@[simp] theorem State.logicOp_SP (q : Config.Quirks) (x : Reg) (r : Byte) : (s.logicOp q x r).SP = s.SP := by simp [State.logicOp]
@[simp] theorem State.logicOp_DT (q : Config.Quirks) (x : Reg) (r : Byte) : (s.logicOp q x r).DT = s.DT := by simp [State.logicOp]
@[simp] theorem State.logicOp_ST (q : Config.Quirks) (x : Reg) (r : Byte) : (s.logicOp q x r).ST = s.ST := by simp [State.logicOp]
@[simp] theorem State.logicOp_keys (q : Config.Quirks) (x : Reg) (r : Byte) : (s.logicOp q x r).keys = s.keys := by simp [State.logicOp]
@[simp] theorem State.logicOp_execState (q : Config.Quirks) (x : Reg) (r : Byte) : (s.logicOp q x r).execState = s.execState := by simp [State.logicOp]
@[simp] theorem State.logicOp_fb (q : Config.Quirks) (x : Reg) (r : Byte) : (s.logicOp q x r).fb = s.fb := by simp [State.logicOp]
@[simp] theorem State.logicOp_run (q : Config.Quirks) (x : Reg) (r : Byte) : (s.logicOp q x r).run = s.run := by simp [State.logicOp]
@[simp] theorem State.logicOp_loadTruncated (q : Config.Quirks) (x : Reg) (r : Byte) : (s.logicOp q x r).loadTruncated = s.loadTruncated := by simp [State.logicOp]
@[simp] theorem State.logicOp_loaded (q : Config.Quirks) (x : Reg) (r : Byte) : (s.logicOp q x r).loaded = s.loaded := by simp [State.logicOp]
@[simp] theorem State.logicOp_phase (q : Config.Quirks) (x : Reg) (r : Byte) : (s.logicOp q x r).phase = s.phase := by simp [State.logicOp]
@[simp] theorem State.logicOp_drawFlag (q : Config.Quirks) (x : Reg) (r : Byte) : (s.logicOp q x r).drawFlag = s.drawFlag := by simp [State.logicOp]
@[simp] theorem State.logicOp_inputs (q : Config.Quirks) (x : Reg) (r : Byte) : (s.logicOp q x r).inputs = s.inputs := by simp [State.logicOp]
@[simp] theorem State.logicOp_draws (q : Config.Quirks) (x : Reg) (r : Byte) : (s.logicOp q x r).draws = s.draws := by simp [State.logicOp]
@[simp] theorem State.logicOp_refreshes (q : Config.Quirks) (x : Reg) (r : Byte) : (s.logicOp q x r).refreshes = s.refreshes := by simp [State.logicOp]

/-! `shiftRight` -/

@[simp] theorem State.shiftRight_mem (q : Config.Quirks) (x y : Reg) : (s.shiftRight q x y).mem = s.mem := by unfold State.shiftRight; split <;> rfl
@[simp] theorem State.shiftRight_I (q : Config.Quirks) (x y : Reg) : (s.shiftRight q x y).I = s.I := by unfold State.shiftRight; split <;> rfl
@[simp] theorem State.shiftRight_pc (q : Config.Quirks) (x y : Reg) : (s.shiftRight q x y).pc = s.pc := by unfold State.shiftRight; split <;> rfl
@[simp] theorem State.shiftRight_stack (q : Config.Quirks) (x y : Reg) : (s.shiftRight q x y).stack = s.stack := by unfold State.shiftRight; split <;> rfl
@[simp] theorem State.shiftRight_SP (q : Config.Quirks) (x y : Reg) : (s.shiftRight q x y).SP = s.SP := by unfold State.shiftRight; split <;> rfl
@[simp] theorem State.shiftRight_DT (q : Config.Quirks) (x y : Reg) : (s.shiftRight q x y).DT = s.DT := by unfold State.shiftRight; split <;> rfl
@[simp] theorem State.shiftRight_ST (q : Config.Quirks) (x y : Reg) : (s.shiftRight q x y).ST = s.ST := by unfold State.shiftRight; split <;> rfl
@[simp] theorem State.shiftRight_keys (q : Config.Quirks) (x y : Reg) : (s.shiftRight q x y).keys = s.keys := by unfold State.shiftRight; split <;> rfl
@[simp] theorem State.shiftRight_execState (q : Config.Quirks) (x y : Reg) : (s.shiftRight q x y).execState = s.execState := by unfold State.shiftRight; split <;> rfl
@[simp] theorem State.shiftRight_fb (q : Config.Quirks) (x y : Reg) : (s.shiftRight q x y).fb = s.fb := by unfold State.shiftRight; split <;> rfl
@[simp] theorem State.shiftRight_run (q : Config.Quirks) (x y : Reg) : (s.shiftRight q x y).run = s.run := by unfold State.shiftRight; split <;> rfl
@[simp] theorem State.shiftRight_loadTruncated (q : Config.Quirks) (x y : Reg) : (s.shiftRight q x y).loadTruncated = s.loadTruncated := by unfold State.shiftRight; split <;> rfl
@[simp] theorem State.shiftRight_loaded (q : Config.Quirks) (x y : Reg) : (s.shiftRight q x y).loaded = s.loaded := by unfold State.shiftRight; split <;> rfl
@[simp] theorem State.shiftRight_phase (q : Config.Quirks) (x y : Reg) : (s.shiftRight q x y).phase = s.phase := by unfold State.shiftRight; split <;> rfl
@[simp] theorem State.shiftRight_drawFlag (q : Config.Quirks) (x y : Reg) : (s.shiftRight q x y).drawFlag = s.drawFlag := by unfold State.shiftRight; split <;> rfl
@[simp] theorem State.shiftRight_inputs (q : Config.Quirks) (x y : Reg) : (s.shiftRight q x y).inputs = s.inputs := by unfold State.shiftRight; split <;> rfl
@[simp] theorem State.shiftRight_draws (q : Config.Quirks) (x y : Reg) : (s.shiftRight q x y).draws = s.draws := by unfold State.shiftRight; split <;> rfl
@[simp] theorem State.shiftRight_refreshes (q : Config.Quirks) (x y : Reg) : (s.shiftRight q x y).refreshes = s.refreshes := by unfold State.shiftRight; split <;> rfl

/-! `shiftLeft` -/

@[simp] theorem State.shiftLeft_mem (q : Config.Quirks) (x y : Reg) : (s.shiftLeft q x y).mem = s.mem := by unfold State.shiftLeft; split <;> rfl
@[simp] theorem State.shiftLeft_I (q : Config.Quirks) (x y : Reg) : (s.shiftLeft q x y).I = s.I := by unfold State.shiftLeft; split <;> rfl
@[simp] theorem State.shiftLeft_pc (q : Config.Quirks) (x y : Reg) : (s.shiftLeft q x y).pc = s.pc := by unfold State.shiftLeft; split <;> rfl
@[simp] theorem State.shiftLeft_stack (q : Config.Quirks) (x y : Reg) : (s.shiftLeft q x y).stack = s.stack := by unfold State.shiftLeft; split <;> rfl
@[simp] theorem State.shiftLeft_SP (q : Config.Quirks) (x y : Reg) : (s.shiftLeft q x y).SP = s.SP := by unfold State.shiftLeft; split <;> rfl
@[simp] theorem State.shiftLeft_DT (q : Config.Quirks) (x y : Reg) : (s.shiftLeft q x y).DT = s.DT := by unfold State.shiftLeft; split <;> rfl
@[simp] theorem State.shiftLeft_ST (q : Config.Quirks) (x y : Reg) : (s.shiftLeft q x y).ST = s.ST := by unfold State.shiftLeft; split <;> rfl
@[simp] theorem State.shiftLeft_keys (q : Config.Quirks) (x y : Reg) : (s.shiftLeft q x y).keys = s.keys := by unfold State.shiftLeft; split <;> rfl
@[simp] theorem State.shiftLeft_execState (q : Config.Quirks) (x y : Reg) : (s.shiftLeft q x y).execState = s.execState := by unfold State.shiftLeft; split <;> rfl
@[simp] theorem State.shiftLeft_fb (q : Config.Quirks) (x y : Reg) : (s.shiftLeft q x y).fb = s.fb := by unfold State.shiftLeft; split <;> rfl
@[simp] theorem State.shiftLeft_run (q : Config.Quirks) (x y : Reg) : (s.shiftLeft q x y).run = s.run := by unfold State.shiftLeft; split <;> rfl
@[simp] theorem State.shiftLeft_loadTruncated (q : Config.Quirks) (x y : Reg) : (s.shiftLeft q x y).loadTruncated = s.loadTruncated := by unfold State.shiftLeft; split <;> rfl
@[simp] theorem State.shiftLeft_loaded (q : Config.Quirks) (x y : Reg) : (s.shiftLeft q x y).loaded = s.loaded := by unfold State.shiftLeft; split <;> rfl
@[simp] theorem State.shiftLeft_phase (q : Config.Quirks) (x y : Reg) : (s.shiftLeft q x y).phase = s.phase := by unfold State.shiftLeft; split <;> rfl
@[simp] theorem State.shiftLeft_drawFlag (q : Config.Quirks) (x y : Reg) : (s.shiftLeft q x y).drawFlag = s.drawFlag := by unfold State.shiftLeft; split <;> rfl
@[simp] theorem State.shiftLeft_inputs (q : Config.Quirks) (x y : Reg) : (s.shiftLeft q x y).inputs = s.inputs := by unfold State.shiftLeft; split <;> rfl
@[simp] theorem State.shiftLeft_draws (q : Config.Quirks) (x y : Reg) : (s.shiftLeft q x y).draws = s.draws := by unfold State.shiftLeft; split <;> rfl
@[simp] theorem State.shiftLeft_refreshes (q : Config.Quirks) (x y : Reg) : (s.shiftLeft q x y).refreshes = s.refreshes := by unfold State.shiftLeft; split <;> rfl

/-! `drawSprite` -/

@[simp] theorem State.drawSprite_mem (q : Config.Quirks) (x y : Reg) (n : Nat) : (s.drawSprite q x y n).mem = s.mem := rfl
@[simp] theorem State.drawSprite_I (q : Config.Quirks) (x y : Reg) (n : Nat) : (s.drawSprite q x y n).I = s.I := rfl
@[simp] theorem State.drawSprite_pc (q : Config.Quirks) (x y : Reg) (n : Nat) : (s.drawSprite q x y n).pc = s.pc := rfl
@[simp] theorem State.drawSprite_stack (q : Config.Quirks) (x y : Reg) (n : Nat) : (s.drawSprite q x y n).stack = s.stack := rfl
@[simp] theorem State.drawSprite_SP (q : Config.Quirks) (x y : Reg) (n : Nat) : (s.drawSprite q x y n).SP = s.SP := rfl
@[simp] theorem State.drawSprite_DT (q : Config.Quirks) (x y : Reg) (n : Nat) : (s.drawSprite q x y n).DT = s.DT := rfl
@[simp] theorem State.drawSprite_ST (q : Config.Quirks) (x y : Reg) (n : Nat) : (s.drawSprite q x y n).ST = s.ST := rfl
@[simp] theorem State.drawSprite_keys (q : Config.Quirks) (x y : Reg) (n : Nat) : (s.drawSprite q x y n).keys = s.keys := rfl
@[simp] theorem State.drawSprite_execState (q : Config.Quirks) (x y : Reg) (n : Nat) : (s.drawSprite q x y n).execState = s.execState := rfl
@[simp] theorem State.drawSprite_run (q : Config.Quirks) (x y : Reg) (n : Nat) : (s.drawSprite q x y n).run = s.run := rfl
@[simp] theorem State.drawSprite_loadTruncated (q : Config.Quirks) (x y : Reg) (n : Nat) : (s.drawSprite q x y n).loadTruncated = s.loadTruncated := rfl
@[simp] theorem State.drawSprite_loaded (q : Config.Quirks) (x y : Reg) (n : Nat) : (s.drawSprite q x y n).loaded = s.loaded := rfl
@[simp] theorem State.drawSprite_phase (q : Config.Quirks) (x y : Reg) (n : Nat) : (s.drawSprite q x y n).phase = s.phase := rfl
@[simp] theorem State.drawSprite_drawFlag (q : Config.Quirks) (x y : Reg) (n : Nat) : (s.drawSprite q x y n).drawFlag = true := rfl
@[simp] theorem State.drawSprite_inputs (q : Config.Quirks) (x y : Reg) (n : Nat) : (s.drawSprite q x y n).inputs = s.inputs := rfl
@[simp] theorem State.drawSprite_draws (q : Config.Quirks) (x y : Reg) (n : Nat) : (s.drawSprite q x y n).draws = s.draws := rfl
@[simp] theorem State.drawSprite_refreshes (q : Config.Quirks) (x y : Reg) (n : Nat) : (s.drawSprite q x y n).refreshes = s.refreshes := rfl

/-! `reset` (R34) -/

@[simp] theorem State.reset_mem : State.reset.mem = [] := rfl
@[simp] theorem State.reset_I : State.reset.I = 0 := rfl
@[simp] theorem State.reset_pc : State.reset.pc = 0x200 := rfl
@[simp] theorem State.reset_SP : State.reset.SP = 0 := rfl
@[simp] theorem State.reset_DT : State.reset.DT = 0 := rfl
@[simp] theorem State.reset_ST : State.reset.ST = 0 := rfl
@[simp] theorem State.reset_execState : State.reset.execState = .running := rfl
@[simp] theorem State.reset_run : State.reset.run = .powerOn := rfl
@[simp] theorem State.reset_loadTruncated : State.reset.loadTruncated = false := rfl
@[simp] theorem State.reset_loaded : State.reset.loaded = false := rfl
@[simp] theorem State.reset_phase : State.reset.phase = .between := rfl
@[simp] theorem State.reset_drawFlag : State.reset.drawFlag = false := rfl
@[simp] theorem State.reset_inputs : State.reset.inputs = [] := rfl
@[simp] theorem State.reset_draws : State.reset.draws = 0 := rfl
@[simp] theorem State.reset_refreshes : State.reset.refreshes = 0 := rfl

/-! `closeFrame` -/

@[simp] theorem State.closeFrame_mem : (s.closeFrame).mem = s.mem := rfl
@[simp] theorem State.closeFrame_V : (s.closeFrame).V = s.V := rfl
@[simp] theorem State.closeFrame_I : (s.closeFrame).I = s.I := rfl
@[simp] theorem State.closeFrame_pc : (s.closeFrame).pc = s.pc := rfl
@[simp] theorem State.closeFrame_stack : (s.closeFrame).stack = s.stack := rfl
@[simp] theorem State.closeFrame_SP : (s.closeFrame).SP = s.SP := rfl
@[simp] theorem State.closeFrame_DT : (s.closeFrame).DT = countdown s.DT := rfl
@[simp] theorem State.closeFrame_ST : (s.closeFrame).ST = countdown s.ST := rfl
@[simp] theorem State.closeFrame_keys : (s.closeFrame).keys = s.keys := rfl
@[simp] theorem State.closeFrame_execState : (s.closeFrame).execState = s.execState := rfl
@[simp] theorem State.closeFrame_fb : (s.closeFrame).fb = s.fb := rfl
@[simp] theorem State.closeFrame_run : (s.closeFrame).run = s.run := rfl
@[simp] theorem State.closeFrame_loadTruncated : (s.closeFrame).loadTruncated = s.loadTruncated := rfl
@[simp] theorem State.closeFrame_loaded : (s.closeFrame).loaded = s.loaded := rfl
@[simp] theorem State.closeFrame_phase : (s.closeFrame).phase = .between := rfl
@[simp] theorem State.closeFrame_drawFlag : (s.closeFrame).drawFlag = false := rfl
@[simp] theorem State.closeFrame_inputs : (s.closeFrame).inputs = s.inputs := rfl
@[simp] theorem State.closeFrame_draws : (s.closeFrame).draws = s.draws := rfl
@[simp] theorem State.closeFrame_refreshes : (s.closeFrame).refreshes = s.refreshes + 1 := rfl

/-! `loadImage` -/

@[simp] theorem State.loadImage_mem (font rom : List Byte) : (s.loadImage font rom).mem = (s.mem.writeBytes 0 font).writeBytes 0x200 (rom.take 3584) := rfl
@[simp] theorem State.loadImage_V (font rom : List Byte) : (s.loadImage font rom).V = s.V := rfl
@[simp] theorem State.loadImage_I (font rom : List Byte) : (s.loadImage font rom).I = s.I := rfl
@[simp] theorem State.loadImage_pc (font rom : List Byte) : (s.loadImage font rom).pc = s.pc := rfl
@[simp] theorem State.loadImage_stack (font rom : List Byte) : (s.loadImage font rom).stack = s.stack := rfl
@[simp] theorem State.loadImage_SP (font rom : List Byte) : (s.loadImage font rom).SP = s.SP := rfl
@[simp] theorem State.loadImage_DT (font rom : List Byte) : (s.loadImage font rom).DT = s.DT := rfl
@[simp] theorem State.loadImage_ST (font rom : List Byte) : (s.loadImage font rom).ST = s.ST := rfl
@[simp] theorem State.loadImage_keys (font rom : List Byte) : (s.loadImage font rom).keys = s.keys := rfl
@[simp] theorem State.loadImage_execState (font rom : List Byte) : (s.loadImage font rom).execState = s.execState := rfl
@[simp] theorem State.loadImage_fb (font rom : List Byte) : (s.loadImage font rom).fb = s.fb := rfl
@[simp] theorem State.loadImage_run (font rom : List Byte) : (s.loadImage font rom).run = s.run := rfl
@[simp] theorem State.loadImage_loadTruncated (font rom : List Byte) : (s.loadImage font rom).loadTruncated = (s.loadTruncated || decide (3584 < rom.length)) := rfl
@[simp] theorem State.loadImage_loaded (font rom : List Byte) : (s.loadImage font rom).loaded = true := rfl
@[simp] theorem State.loadImage_phase (font rom : List Byte) : (s.loadImage font rom).phase = s.phase := rfl
@[simp] theorem State.loadImage_drawFlag (font rom : List Byte) : (s.loadImage font rom).drawFlag = s.drawFlag := rfl
@[simp] theorem State.loadImage_inputs (font rom : List Byte) : (s.loadImage font rom).inputs = s.inputs := rfl
@[simp] theorem State.loadImage_draws (font rom : List Byte) : (s.loadImage font rom).draws = s.draws := rfl
@[simp] theorem State.loadImage_refreshes (font rom : List Byte) : (s.loadImage font rom).refreshes = s.refreshes := rfl

/-! `applyReset` -/

@[simp] theorem State.applyReset_mem : (s.applyReset).mem = State.reset.mem := rfl
@[simp] theorem State.applyReset_V : (s.applyReset).V = State.reset.V := rfl
@[simp] theorem State.applyReset_I : (s.applyReset).I = State.reset.I := rfl
@[simp] theorem State.applyReset_pc : (s.applyReset).pc = State.reset.pc := rfl
@[simp] theorem State.applyReset_stack : (s.applyReset).stack = State.reset.stack := rfl
@[simp] theorem State.applyReset_SP : (s.applyReset).SP = State.reset.SP := rfl
@[simp] theorem State.applyReset_DT : (s.applyReset).DT = State.reset.DT := rfl
@[simp] theorem State.applyReset_ST : (s.applyReset).ST = State.reset.ST := rfl
@[simp] theorem State.applyReset_keys : (s.applyReset).keys = State.reset.keys := rfl
@[simp] theorem State.applyReset_execState : (s.applyReset).execState = State.reset.execState := rfl
@[simp] theorem State.applyReset_fb : (s.applyReset).fb = State.reset.fb := rfl
@[simp] theorem State.applyReset_run : (s.applyReset).run = State.reset.run := rfl
@[simp] theorem State.applyReset_loadTruncated : (s.applyReset).loadTruncated = State.reset.loadTruncated := rfl
@[simp] theorem State.applyReset_loaded : (s.applyReset).loaded = State.reset.loaded := rfl
@[simp] theorem State.applyReset_phase : (s.applyReset).phase = State.reset.phase := rfl
@[simp] theorem State.applyReset_drawFlag : (s.applyReset).drawFlag = State.reset.drawFlag := rfl
@[simp] theorem State.applyReset_inputs : (s.applyReset).inputs = s.inputs := rfl
@[simp] theorem State.applyReset_draws : (s.applyReset).draws = s.draws := rfl
@[simp] theorem State.applyReset_refreshes : (s.applyReset).refreshes = s.refreshes := rfl

/-! `hostView` -/

@[simp] theorem State.hostView_grid : s.hostView.grid = s.fb.pixels := rfl
@[simp] theorem State.hostView_refreshes : s.hostView.refreshes = s.refreshes := rfl
@[simp] theorem State.hostView_run : s.hostView.run = s.run := rfl
@[simp] theorem State.hostView_loadTruncated : s.hostView.loadTruncated = s.loadTruncated := rfl

theorem State.hostSees_between (h : s.phase = .between) : s.hostSees = some s.hostView := by simp only [State.hostSees, h]

theorem State.hostSees_burst {count : Nat} (h : s.phase = .burst count) : s.hostSees = none := by simp only [State.hostSees, h]

/-- The view depends on these four fields only (R207). -/
theorem State.hostView_congr {s t : State} (hf : t.fb = s.fb) (hr : t.refreshes = s.refreshes) (hu : t.run = s.run)
    (hl : t.loadTruncated = s.loadTruncated) : t.hostView = s.hostView := by simp only [State.hostView, hf, hr, hu, hl]

/-- A skip's `pc` (R98). -/
theorem State.skipIf_pc (c : Bool) : (s.skipIf c).pc = if c then s.pc + 2 else s.pc := by cases c <;> rfl

theorem State.pop_SP_val : s.pop.SP.val = s.SP.val - 1 := rfl

theorem State.push_SP_val (v : Word) (h : s.SP.val < Config.stackDepth) : (s.push v h).SP.val = s.SP.val + 1 := rfl

end Sys2Proof.Machine
end

