-- ==== Sys2Proof/Laws/Registers.lean ====
section
/-! SUPPORT. What reading a register, a key or a stack entry gives after each operation that writes one, and what the operand and
flag operations answer. -/

namespace Sys2Proof.Machine

variable (s : State)

@[simp] theorem State.reg_setReg_same (x : Reg) (v : Byte) : (s.setReg x v).reg x = v := by
  simp [State.reg, State.setReg]

theorem State.reg_setReg_other {x r : Reg} (h : r ≠ x) (v : Byte) : (s.setReg x v).reg r = s.reg r := by
  have : (x : Nat) ≠ r := fun e => h (Fin.ext e.symm)
  simp [State.reg, State.setReg, this]

/-- A register after a write (R20). -/
theorem State.reg_setReg (x r : Reg) (v : Byte) : (s.setReg x v).reg r = if r = x then v else s.reg r := by
  split
  · next h => subst h; simp
  · next h => exact s.reg_setReg_other h v

/-- A register depends on the register file alone. -/
theorem State.reg_congr {s t : State} (h : t.V = s.V) (r : Reg) : t.reg r = s.reg r := by simp [State.reg, h]

@[simp] theorem State.reg_advance (r : Reg) : s.advance.reg r = s.reg r := rfl
@[simp] theorem State.reg_writeBytes (a : Nat) (bs : List Byte) (r : Reg) : (s.writeBytes a bs).reg r = s.reg r := rfl
@[simp] theorem State.reg_setI (v : Word) (r : Reg) : (s.setI v).reg r = s.reg r := rfl
@[simp] theorem State.reg_setPc (v : Word) (r : Reg) : (s.setPc v).reg r = s.reg r := rfl
@[simp] theorem State.reg_skipIf (c : Bool) (r : Reg) : (s.skipIf c).reg r = s.reg r := State.reg_congr (by simp) r
@[simp] theorem State.reg_push (v : Word) (h : s.SP.val < Config.stackDepth) (r : Reg) : (s.push v h).reg r = s.reg r := rfl
@[simp] theorem State.reg_pop (r : Reg) : s.pop.reg r = s.reg r := rfl
@[simp] theorem State.reg_setDT (v : Byte) (r : Reg) : (s.setDT v).reg r = s.reg r := rfl
@[simp] theorem State.reg_setST (v : Byte) (r : Reg) : (s.setST v).reg r = s.reg r := rfl
@[simp] theorem State.reg_setKey (k : Key) (p : Bool) (r : Reg) : (s.setKey k p).reg r = s.reg r := rfl
@[simp] theorem State.reg_setExec (e : ExecState) (r : Reg) : (s.setExec e).reg r = s.reg r := rfl
@[simp] theorem State.reg_setFb (f : Screen) (r : Reg) : (s.setFb f).reg r = s.reg r := rfl
@[simp] theorem State.reg_markDraw (r : Reg) : s.markDraw.reg r = s.reg r := rfl
@[simp] theorem State.reg_takeRandom (r : Reg) : s.takeRandom.reg r = s.reg r := rfl
@[simp] theorem State.reg_takeFault (c : Cause) (a o : Option Word) (r : Reg) : (s.takeFault c a o).reg r = s.reg r := rfl
@[simp] theorem State.reg_raiseAt (c : Cause) (i : Instr) (r : Reg) : (s.raiseAt c i).reg r = s.reg r := rfl

/-- The result first, the flag second: with `x = F` the flag stays (R122). -/
theorem State.reg_resultThenFlag (x r : Reg) (v f : Byte) :
    (s.resultThenFlag x v f).reg r = if r = VF then f else if r = x then v else s.reg r := by
  simp only [State.resultThenFlag, State.reg_setReg]

/-- The result, then the quirk's reset (R114, R122). -/
theorem State.reg_logicOp (q : Config.Quirks) (x r : Reg) (v : Byte) :
    (s.logicOp q x v).reg r = if q.logicResetsVF = true ∧ r = VF then 0 else if r = x then v else s.reg r := by
  unfold State.logicOp State.logicFlag
  cases q.logicResetsVF <;> simp [State.reg_setReg]

/-- `8xy6` in every form (R119, R122). -/
theorem State.reg_shiftRight (q : Config.Quirks) (x y r : Reg) :
    (s.shiftRight q x y).reg r =
      if q.shiftUsesVy then (if r = x then s.reg y >>> 1 else if r = VF then shrFlag (s.reg y) else s.reg r)
      else if r = x then (if x = VF then shrFlag (s.reg x) else s.reg x) >>> 1
      else if r = VF then shrFlag (s.reg x) else s.reg r := by
  unfold State.shiftRight
  split <;> simp only [State.reg_setReg]

/-- `8xyE` in every form (R121, R122). -/
theorem State.reg_shiftLeft (q : Config.Quirks) (x y r : Reg) :
    (s.shiftLeft q x y).reg r =
      if q.shiftUsesVy then (if r = x then s.reg y <<< 1 else if r = VF then shlFlag (s.reg y) else s.reg r)
      else if r = x then (if x = VF then shlFlag (s.reg x) else s.reg x) <<< 1
      else if r = VF then shlFlag (s.reg x) else s.reg r := by
  unfold State.shiftLeft
  split <;> simp only [State.reg_setReg]

/-- `Fx65`: `V0..Vx` from memory, the rest as before (R135). -/
theorem State.reg_loadRegsUpTo (x r : Reg) :
    (s.loadRegsUpTo x).reg r = if r ≤ x then s.mem.read (s.base + r.val) else s.reg r := by
  simp [State.reg, State.loadRegsUpTo]

/-- `Dxyn` writes `VF` only, after the coordinates are read (R157). -/
theorem State.reg_drawSprite (q : Config.Quirks) (x y r : Reg) (n : Nat) :
    (s.drawSprite q x y n).reg r =
      if r = VF then collisionFlag (draw q s.fb (s.reg x) (s.reg y) (s.sprite n)).2 else s.reg r := by
  simp only [State.drawSprite, State.reg_markDraw, State.reg_setReg, State.reg_setFb]

@[simp] theorem State.drawSprite_fb (q : Config.Quirks) (x y : Reg) (n : Nat) :
    (s.drawSprite q x y n).fb = (draw q s.fb (s.reg x) (s.reg y) (s.sprite n)).1 := rfl

theorem State.length_regsUpTo (x : Reg) : (s.regsUpTo x).length = x.val + 1 := by
  have := x.isLt
  simp [State.regsUpTo]

/-- Byte `j` of the block `Fx55` stores is `V[j]` (R134). -/
theorem State.getElem_regsUpTo (x : Reg) (j : Nat) (h : j < (s.regsUpTo x).length) :
    (s.regsUpTo x)[j] = s.reg ⟨j, by rw [State.length_regsUpTo] at h; have := x.isLt; omega⟩ := by
  simp [State.regsUpTo, State.reg]

/-- The key a register names: its value, where that is at most 15 (R170). -/
theorem State.keyOf_eq_some {x : Reg} {k : Key} : s.keyOf x = some k ↔ (s.reg x).toNat = k.val := by
  unfold State.keyOf
  constructor
  · intro h
    split at h
    · have := Option.some.inj h
      rw [← this]
    · cases h
  · intro h
    have hk := k.isLt
    rw [dif_pos (by omega)]
    exact congrArg some (Fin.ext h)

theorem State.keyOf_eq_none {x : Reg} : s.keyOf x = none ↔ 15 < (s.reg x).toNat := by
  unfold State.keyOf
  constructor
  · intro h
    split at h
    · cases h
    · omega
  · intro h
    rw [dif_neg (by omega)]

/-- A key after a key is set (R182). -/
theorem State.key_setKey (k j : Key) (p : Bool) : (s.setKey k p).key j = if j = k then p else s.key j := by
  unfold State.key State.setKey
  by_cases h : j = k
  · subst h; simp
  · have : (k : Nat) ≠ j := fun e => h (Fin.ext e.symm)
    simp [h, this]

/-- A stack entry after a push (R24). -/
theorem State.push_entry (v : Word) (h : s.SP.val < Config.stackDepth) (j : Fin 16) :
    (s.push v h).stack[j] = if j.val = s.SP.val then v else s.stack[j] := by
  by_cases hj : j.val = s.SP.val
  · simp [State.push, hj]
  · have : s.SP.val ≠ j.val := fun e => hj e.symm
    simp [State.push, hj, this]

theorem flagByte_eq_one {b : Bool} : flagByte b = 1 ↔ b = true := by cases b <;> decide

theorem flagByte_eq_zero {b : Bool} : flagByte b = 0 ↔ b = false := by cases b <;> decide

theorem toNat_flagByte (b : Bool) : (flagByte b).toNat = if b then 1 else 0 := by cases b <;> decide

theorem toNat_carryFlag (a b : Byte) : (carryFlag a b).toNat = if 255 < a.toNat + b.toNat then 1 else 0 := by
  simp only [carryFlag, toNat_flagByte, decide_eq_true_eq]

theorem toNat_noBorrowFlag (m s : Byte) : (noBorrowFlag m s).toNat = if s.toNat ≤ m.toNat then 1 else 0 := by
  simp only [noBorrowFlag, toNat_flagByte, decide_eq_true_eq]

/-- The bit shifted out to the right is bit 0 (R119). -/
theorem toNat_shrFlag (t : Byte) : (shrFlag t).toNat = t.toNat % 2 := by
  simp [shrFlag, BitVec.toNat_and, Nat.and_one_is_mod]

/-- The bit shifted out to the left is bit 7 (R121). -/
theorem toNat_shlFlag (t : Byte) : (shlFlag t).toNat = t.toNat / 128 := by
  simp [shlFlag, BitVec.toNat_ushiftRight, Nat.shiftRight_eq_div_pow]

/-- The sum of a word and a byte, modulo 65536 (R97, R131). -/
theorem toNat_addByte (w : Word) (v : Byte) : (addByte w v).toNat = (w.toNat + v.toNat) % 65536 := by
  have := v.isLt
  simp [addByte]

/-- The glyph address is exact (R132). -/
theorem toNat_glyphAddress (v : Byte) : (glyphAddress v).toNat = 5 * v.toNat := by
  have := v.isLt
  simp only [glyphAddress, Config.fontBase, Config.glyphBytes, BitVec.toNat_ofNat]
  omega

/-- Every font byte has a low nibble of 0 (R33). -/
theorem fontByte_low_nibble (j : Nat) : (fontByte j).toNat % 16 = 0 := by
  have := (Config.glyphRow j).isLt
  simp only [fontByte, BitVec.toNat_ofNat]
  omega

theorem length_fontSet : fontSet.length = 80 := by simp [fontSet]

end Sys2Proof.Machine
end

