-- ==== Sys2Proof/Laws/Screen.lean ====
section
/-! SUPPORT. Pixels of the framebuffer after a clear and after one XOR, and where a scan coordinate lands. -/

namespace Sys2Proof.Machine

/-- After `clear()` every pixel is unlit (R151). -/
@[simp] theorem Screen.pixel_blank (row col : Nat) : Screen.blank.pixel row col = false := by
  unfold Screen.pixel
  split <;> simp [Screen.blank]

/-- One XOR changes its own pixel and no other (R153, R156). -/
theorem Screen.pixel_flip (f : Screen) (row col r c : Nat) :
    (f.flip row col).pixel r c =
      if r = row ∧ c = col ∧ row < 32 ∧ col < 64 then !f.pixel r c else f.pixel r c := by
  by_cases hin : row < 32 ∧ col < 64
  · by_cases hrc : r < 32 ∧ c < 64
    · by_cases hr : r = row
      · subst hr
        by_cases hc : c = col
        · subst hc
          simp [Screen.flip, Screen.pixel, hin]
        · have : col ≠ c := fun e => hc e.symm
          simp [Screen.flip, Screen.pixel, hin, hrc, hc, this]
      · have : row ≠ r := fun e => hr e.symm
        simp [Screen.flip, Screen.pixel, hin, hrc, hr, this]
    · have hne : ¬(r = row ∧ c = col) := by rintro ⟨rfl, rfl⟩; exact hrc hin
      have : ¬(r = row ∧ c = col ∧ row < 32 ∧ col < 64) := fun h => hne ⟨h.1, h.2.1⟩
      simp only [Screen.pixel, Config.fbHeight, Config.fbWidth, hrc, dif_neg, not_false_eq_true, if_neg this]
  · have hf : f.flip row col = f := by simp only [Screen.flip, Config.fbHeight, Config.fbWidth, dif_neg hin]
    have : ¬(r = row ∧ c = col ∧ row < 32 ∧ col < 64) := fun h => hin h.2.2
    rw [hf, if_neg this]

/-- Two grids with equal pixels are equal. -/
theorem Screen.ext_pixel {f g : Screen} (h : ∀ r c, r < 32 → c < 64 → f.pixel r c = g.pixel r c) : f = g := by
  apply Vector.ext
  intro r hr
  apply Vector.ext
  intro c hc
  have := h r c hr hc
  simpa [Screen.pixel, hr, hc] using this

/-- Where a coordinate of the scan lands by default: itself inside the grid, nowhere past the edge (R155). -/
theorem scanCoord_clip {size c k : Nat} : scanCoord false size c = some k ↔ c < size ∧ k = c := by
  unfold scanCoord
  split
  · next h => simp; omega
  · next h => simp; omega

/-- Under the wrap quirk every coordinate lands, modulo the size (R155). -/
theorem scanCoord_wrap {size c : Nat} : scanCoord true size c = some (c % size) := by
  unfold scanCoord
  split
  · rfl
  · next h => rw [Nat.mod_eq_of_lt (by omega)]

end Sys2Proof.Machine
end

