-- ==== Sys2Proof/Laws/Exec.lean ====
section
/-! SUPPORT. What execution can do, said once: every instruction answers a next state, which is either the fatal error it raises or
its own effect with the lifecycle, the keypad and the scheduling fields as before. -/

namespace Sys2Proof.Machine

/-- The two instructions that mark draw (R192). -/
def Instr.marksDraw : Instr → Bool
  | .cls | .drw _ _ _ => true
  | _ => false

/-- The state before the tick with a fault record of this instruction (R11, R230). -/
def RaisedBy (i : Instr) (s t : State) : Prop :=
  ∃ c, (c = .memOutOfRange ∨ c = .stackOverflow ∨ c = .stackUnderflow ∨ c = .keyIndexOutOfRange) ∧ t = s.raiseAt c i

/-- An instruction's own effect: these fields no instruction writes. -/
structure OwnEffect (i : Instr) (s t : State) : Prop where
  run : t.run = s.run
  drawFlag : t.drawFlag = Instr.marksDraw i
  keys : t.keys = s.keys
  loadTruncated : t.loadTruncated = s.loadTruncated
  loaded : t.loaded = s.loaded
  phase : t.phase = s.phase
  inputs : t.inputs = s.inputs
  refreshes : t.refreshes = s.refreshes

theorem raisedBy_memOutOfRange (i : Instr) (s : State) : RaisedBy i s (s.raiseAt .memOutOfRange i) :=
  ⟨_, .inl rfl, rfl⟩

theorem raisedBy_stackOverflow (i : Instr) (s : State) : RaisedBy i s (s.raiseAt .stackOverflow i) :=
  ⟨_, .inr (.inl rfl), rfl⟩

theorem raisedBy_stackUnderflow (i : Instr) (s : State) : RaisedBy i s (s.raiseAt .stackUnderflow i) :=
  ⟨_, .inr (.inr (.inl rfl)), rfl⟩

theorem raisedBy_keyIndexOutOfRange (i : Instr) (s : State) : RaisedBy i s (s.raiseAt .keyIndexOutOfRange i) :=
  ⟨_, .inr (.inr (.inr rfl)), rfl⟩

/-- An outcome that is a next state of which `P` holds. -/
def Answers (r : Result) (P : State → Prop) : Prop := ∃ t, r = .next t ∧ P t

theorem Answers.own {i : Instr} {s t : State} (h : OwnEffect i s t) :
    Answers (.next t) fun t => RaisedBy i s t ∨ OwnEffect i s t :=
  ⟨t, rfl, .inr h⟩

theorem Answers.raised {i : Instr} {s t : State} (h : RaisedBy i s t) :
    Answers (.next t) fun t => RaisedBy i s t ∨ OwnEffect i s t :=
  ⟨t, rfl, .inl h⟩

theorem OwnEffect.skip {i : Instr} (h : Instr.marksDraw i = false) (s : State) (c : Bool) :
    OwnEffect i s (s.advance.skipIf c) := by
  constructor <;> simp [h]

/-- What a meaning answers: the error its instruction raises, or its own effect. -/
def MeaningOk (i : Instr) (s : State) (r : Result) : Prop := Answers r fun t => RaisedBy i s t ∨ OwnEffect i s t

theorem execRet_ok (s : State) : MeaningOk .ret s (execRet s) := by
  unfold execRet
  split
  · exact .own ⟨rfl, rfl, rfl, rfl, rfl, rfl, rfl, rfl⟩
  · exact .raised (raisedBy_stackUnderflow _ s)

theorem execCall_ok (nnn : Word) (s : State) : MeaningOk (.call nnn) s (execCall nnn s) := by
  unfold execCall
  split
  · exact .own ⟨rfl, rfl, rfl, rfl, rfl, rfl, rfl, rfl⟩
  · exact .raised (raisedBy_stackOverflow _ s)

theorem execDrw_ok (x y : Reg) (n : Nat) (s : State) : MeaningOk (.drw x y n) s (execDrw x y n s) := by
  unfold execDrw
  split
  · exact .raised (raisedBy_memOutOfRange _ s)
  · exact .own ⟨rfl, rfl, rfl, rfl, rfl, rfl, rfl, rfl⟩

theorem execSkp_ok (x : Reg) (s : State) : MeaningOk (.skp x) s (execSkp x s) := by
  unfold execSkp
  split
  · exact .own (.skip rfl s _)
  · exact .raised (raisedBy_keyIndexOutOfRange _ s)

theorem execSknp_ok (x : Reg) (s : State) : MeaningOk (.sknp x) s (execSknp x s) := by
  unfold execSknp
  split
  · exact .own (.skip rfl s _)
  · exact .raised (raisedBy_keyIndexOutOfRange _ s)

theorem execLdB_ok (x : Reg) (s : State) : MeaningOk (.ldB x) s (execLdB x s) := by
  unfold execLdB
  split
  · exact .own ⟨rfl, rfl, rfl, rfl, rfl, rfl, rfl, rfl⟩
  · exact .raised (raisedBy_memOutOfRange _ s)

theorem execStoreRegs_ok (x : Reg) (s : State) : MeaningOk (.storeRegs x) s (execStoreRegs x s) := by
  unfold execStoreRegs
  split
  · exact .own ⟨rfl, rfl, rfl, rfl, rfl, rfl, rfl, rfl⟩
  · exact .raised (raisedBy_memOutOfRange _ s)

theorem execLoadRegs_ok (x : Reg) (s : State) : MeaningOk (.loadRegs x) s (execLoadRegs x s) := by
  unfold execLoadRegs
  split
  · exact .own (by constructor <;> simp [Instr.marksDraw])
  · exact .raised (raisedBy_memOutOfRange _ s)

/-- Everything an instruction can do to the fields no instruction's own effect writes. -/
theorem exec_ok (i : Instr) (s : State) : MeaningOk i s (exec i s) := by
  cases i
  case seImm | sneImm | seReg | sneReg => exact .own (.skip rfl s _)
  case ret => exact execRet_ok s
  case call nnn => exact execCall_ok nnn s
  case drw x y n => exact execDrw_ok x y n s
  case skp x => exact execSkp_ok x s
  case sknp x => exact execSknp_ok x s
  case ldB x => exact execLdB_ok x s
  case storeRegs x => exact execStoreRegs_ok x s
  case loadRegs x => exact execLoadRegs_ok x s
  all_goals exact .own ⟨rfl, rfl, rfl, rfl, rfl, rfl, rfl, rfl⟩

/-- Every instruction answers a next state. -/
theorem exec_answers (i : Instr) (s : State) : ∃ t, exec i s = .next t :=
  let ⟨t, h, _⟩ := exec_ok i s
  ⟨t, h⟩

/-- The inversion of `exec`: the error it raises, or its own effect. -/
theorem exec_cases {i : Instr} {s t : State} (h : exec i s = .next t) : RaisedBy i s t ∨ OwnEffect i s t := by
  obtain ⟨u, hu, hc⟩ := exec_ok i s
  rw [h] at hu
  cases hu
  exact hc

/-- The state with another phase. -/
def State.inPhase (s : State) (p : Phase) : State := { s with phase := p }

theorem onNext_ite {c : Prop} [Decidable c] {a b : Result} {f : State → State} :
    onNext (if c then a else b) f = if c then onNext a f else onNext b f := apply_ite (onNext · f) c a b

theorem inPhase_skip (s : State) (p : Phase) (c : Bool) :
    (s.inPhase p).advance.skipIf c = (s.advance.skipIf c).inPhase p := by cases c <;> rfl

/-- A meaning that neither reads nor writes the phase. -/
def IgnoresPhase (m : State → Result) : Prop := ∀ s p, m (s.inPhase p) = onNext (m s) fun t => t.inPhase p

theorem execRet_inPhase : IgnoresPhase execRet := by
  intro s p
  unfold execRet
  by_cases h : 0 < s.SP.val
  · rw [dif_pos h, dif_pos (show 0 < (s.inPhase p).SP.val from h)]; rfl
  · rw [dif_neg h, dif_neg (show ¬0 < (s.inPhase p).SP.val from h)]; rfl

theorem execCall_inPhase (nnn : Word) : IgnoresPhase (execCall nnn) := by
  intro s p
  unfold execCall
  by_cases h : s.advance.SP.val < Config.stackDepth
  · rw [dif_pos h, dif_pos (show (s.inPhase p).advance.SP.val < Config.stackDepth from h)]; rfl
  · rw [dif_neg h, dif_neg (show ¬(s.inPhase p).advance.SP.val < Config.stackDepth from h)]; rfl

theorem execDrw_inPhase (x y : Reg) (n : Nat) : IgnoresPhase (execDrw x y n) := by
  intro s p
  unfold execDrw
  rw [onNext_ite]
  rfl

theorem execSkp_inPhase (x : Reg) : IgnoresPhase (execSkp x) := by
  intro s p
  have hk : (s.inPhase p).keyOf x = s.keyOf x := rfl
  unfold execSkp
  rw [hk]
  cases s.keyOf x
  · rfl
  · exact congrArg Host.Outcome.next (inPhase_skip s p _)

theorem execSknp_inPhase (x : Reg) : IgnoresPhase (execSknp x) := by
  intro s p
  have hk : (s.inPhase p).keyOf x = s.keyOf x := rfl
  unfold execSknp
  rw [hk]
  cases s.keyOf x
  · rfl
  · exact congrArg Host.Outcome.next (inPhase_skip s p _)

theorem execLdB_inPhase (x : Reg) : IgnoresPhase (execLdB x) := by
  intro s p
  unfold execLdB
  rw [onNext_ite]
  rfl

theorem execStoreRegs_inPhase (x : Reg) : IgnoresPhase (execStoreRegs x) := by
  intro s p
  unfold execStoreRegs
  rw [onNext_ite]
  rfl

theorem execLoadRegs_inPhase (x : Reg) : IgnoresPhase (execLoadRegs x) := by
  intro s p
  unfold execLoadRegs
  rw [onNext_ite]
  rfl

/-- Execution neither reads nor writes the phase. -/
theorem exec_inPhase (i : Instr) : IgnoresPhase (exec i) := by
  cases i
  case seImm | sneImm | seReg | sneReg => exact fun s p => congrArg Host.Outcome.next (inPhase_skip s p _)
  case ret => exact execRet_inPhase
  case call nnn => exact execCall_inPhase nnn
  case drw x y n => exact execDrw_inPhase x y n
  case skp x => exact execSkp_inPhase x
  case sknp x => exact execSknp_inPhase x
  case ldB x => exact execLdB_inPhase x
  case storeRegs x => exact execStoreRegs_inPhase x
  case loadRegs x => exact execLoadRegs_inPhase x
  all_goals exact fun _ _ => rfl

end Sys2Proof.Machine
end

