-- ==== Sys2Proof/Laws/PerInstr.lean ====
section
/-! SUPPORT. Per instruction: the word the encoder builds belongs to the instruction's own row of the opcode table (R74, R76). -/

namespace Sys2Proof.Laws

/-- The word of the instruction belongs to the row of R76 that bears its name. -/
def InItsRow.Statement (i : Instr) : Prop :=
  ∃ r, r ∈ opcodeTable ∧ r.name = i.rowName ∧ r.holds (encode i) = true

theorem holds_iff {r : OpcodeRow} {op : Word} : r.holds op = true ↔ (op &&& r.mask).toNat = r.pattern.toNat := by
  rw [OpcodeRow.holds, beq_iff_eq]
  exact ⟨congrArg _, BitVec.eq_of_toNat_eq⟩

theorem nnn_holds {c : Nat} (hc : c < 16) (nnn : Word) : (wordNNN c nnn &&& 0xF000#16).toNat = c * 4096 := by
  rw [and_mask_F000, toNat_wordNNN hc]
  omega

theorem xkk_holds {c : Nat} (hc : c < 16) (x : Reg) (kk : Byte) : (wordXKK c x kk &&& 0xF000#16).toNat = c * 4096 := by
  have hx := x.isLt
  have hk := kk.isLt
  rw [and_mask_F000, toNat_wordXKK hc]
  omega

theorem xy_holds {c n : Nat} (hc : c < 16) (hn : n < 16) (x y : Reg) :
    (wordXYN c x y n &&& 0xF00F#16).toNat = c * 4096 + n := by
  have hx := x.isLt
  have hy := y.isLt
  rw [and_mask_F00F, toNat_wordXYN hc]
  omega

theorem xyn_holds {c : Nat} (hc : c < 16) (x y : Reg) (n : Nat) : (wordXYN c x y n &&& 0xF000#16).toNat = c * 4096 := by
  have hx := x.isLt
  have hy := y.isLt
  rw [and_mask_F000, toNat_wordXYN hc]
  omega

theorem x_holds {c sub : Nat} (hc : c < 16) (hs : sub < 256) (x : Reg) :
    (wordX c x sub &&& 0xF0FF#16).toNat = c * 4096 + sub := by
  have hx := x.isLt
  rw [and_mask_F0FF, toNat_wordX hc hs]
  omega

theorem InItsRow.cls : InItsRow.Statement .cls :=
  ⟨⟨"00E0", 0xFFFF, 0x00E0⟩, by decide, rfl, rfl⟩

theorem InItsRow.ret : InItsRow.Statement .ret :=
  ⟨⟨"00EE", 0xFFFF, 0x00EE⟩, by decide, rfl, rfl⟩

theorem InItsRow.jp (nnn : Word) : InItsRow.Statement (.jp nnn) :=
  ⟨⟨"1nnn", 0xF000, 0x1000⟩, by decide, rfl, holds_iff.2 (nnn_holds (by decide) nnn)⟩

theorem InItsRow.call (nnn : Word) : InItsRow.Statement (.call nnn) :=
  ⟨⟨"2nnn", 0xF000, 0x2000⟩, by decide, rfl, holds_iff.2 (nnn_holds (by decide) nnn)⟩

theorem InItsRow.seImm (x : Reg) (kk : Byte) : InItsRow.Statement (.seImm x kk) :=
  ⟨⟨"3xkk", 0xF000, 0x3000⟩, by decide, rfl, holds_iff.2 (xkk_holds (by decide) x kk)⟩

theorem InItsRow.sneImm (x : Reg) (kk : Byte) : InItsRow.Statement (.sneImm x kk) :=
  ⟨⟨"4xkk", 0xF000, 0x4000⟩, by decide, rfl, holds_iff.2 (xkk_holds (by decide) x kk)⟩

theorem InItsRow.seReg (x y : Reg) : InItsRow.Statement (.seReg x y) :=
  ⟨⟨"5xy0", 0xF00F, 0x5000⟩, by decide, rfl, holds_iff.2 (xy_holds (by decide) (by decide) x y)⟩

theorem InItsRow.ldImm (x : Reg) (kk : Byte) : InItsRow.Statement (.ldImm x kk) :=
  ⟨⟨"6xkk", 0xF000, 0x6000⟩, by decide, rfl, holds_iff.2 (xkk_holds (by decide) x kk)⟩

theorem InItsRow.addImm (x : Reg) (kk : Byte) : InItsRow.Statement (.addImm x kk) :=
  ⟨⟨"7xkk", 0xF000, 0x7000⟩, by decide, rfl, holds_iff.2 (xkk_holds (by decide) x kk)⟩

theorem InItsRow.ldReg (x y : Reg) : InItsRow.Statement (.ldReg x y) :=
  ⟨⟨"8xy0", 0xF00F, 0x8000⟩, by decide, rfl, holds_iff.2 (xy_holds (by decide) (by decide) x y)⟩

theorem InItsRow.orReg (x y : Reg) : InItsRow.Statement (.orReg x y) :=
  ⟨⟨"8xy1", 0xF00F, 0x8001⟩, by decide, rfl, holds_iff.2 (xy_holds (by decide) (by decide) x y)⟩

theorem InItsRow.andReg (x y : Reg) : InItsRow.Statement (.andReg x y) :=
  ⟨⟨"8xy2", 0xF00F, 0x8002⟩, by decide, rfl, holds_iff.2 (xy_holds (by decide) (by decide) x y)⟩

theorem InItsRow.xorReg (x y : Reg) : InItsRow.Statement (.xorReg x y) :=
  ⟨⟨"8xy3", 0xF00F, 0x8003⟩, by decide, rfl, holds_iff.2 (xy_holds (by decide) (by decide) x y)⟩

theorem InItsRow.addReg (x y : Reg) : InItsRow.Statement (.addReg x y) :=
  ⟨⟨"8xy4", 0xF00F, 0x8004⟩, by decide, rfl, holds_iff.2 (xy_holds (by decide) (by decide) x y)⟩

theorem InItsRow.subReg (x y : Reg) : InItsRow.Statement (.subReg x y) :=
  ⟨⟨"8xy5", 0xF00F, 0x8005⟩, by decide, rfl, holds_iff.2 (xy_holds (by decide) (by decide) x y)⟩

theorem InItsRow.shrReg (x y : Reg) : InItsRow.Statement (.shrReg x y) :=
  ⟨⟨"8xy6", 0xF00F, 0x8006⟩, by decide, rfl, holds_iff.2 (xy_holds (by decide) (by decide) x y)⟩

theorem InItsRow.subnReg (x y : Reg) : InItsRow.Statement (.subnReg x y) :=
  ⟨⟨"8xy7", 0xF00F, 0x8007⟩, by decide, rfl, holds_iff.2 (xy_holds (by decide) (by decide) x y)⟩

theorem InItsRow.shlReg (x y : Reg) : InItsRow.Statement (.shlReg x y) :=
  ⟨⟨"8xyE", 0xF00F, 0x800E⟩, by decide, rfl, holds_iff.2 (xy_holds (by decide) (by decide) x y)⟩

theorem InItsRow.sneReg (x y : Reg) : InItsRow.Statement (.sneReg x y) :=
  ⟨⟨"9xy0", 0xF00F, 0x9000⟩, by decide, rfl, holds_iff.2 (xy_holds (by decide) (by decide) x y)⟩

theorem InItsRow.ldI (nnn : Word) : InItsRow.Statement (.ldI nnn) :=
  ⟨⟨"Annn", 0xF000, 0xA000⟩, by decide, rfl, holds_iff.2 (nnn_holds (by decide) nnn)⟩

theorem InItsRow.jpV0 (nnn : Word) : InItsRow.Statement (.jpV0 nnn) :=
  ⟨⟨"Bnnn", 0xF000, 0xB000⟩, by decide, rfl, holds_iff.2 (nnn_holds (by decide) nnn)⟩

theorem InItsRow.rnd (x : Reg) (kk : Byte) : InItsRow.Statement (.rnd x kk) :=
  ⟨⟨"Cxkk", 0xF000, 0xC000⟩, by decide, rfl, holds_iff.2 (xkk_holds (by decide) x kk)⟩

theorem InItsRow.drw (x y : Reg) (n : Nat) : InItsRow.Statement (.drw x y n) :=
  ⟨⟨"Dxyn", 0xF000, 0xD000⟩, by decide, rfl, holds_iff.2 (xyn_holds (by decide) x y n)⟩

theorem InItsRow.skp (x : Reg) : InItsRow.Statement (.skp x) :=
  ⟨⟨"Ex9E", 0xF0FF, 0xE09E⟩, by decide, rfl, holds_iff.2 (x_holds (by decide) (by decide) x)⟩

theorem InItsRow.sknp (x : Reg) : InItsRow.Statement (.sknp x) :=
  ⟨⟨"ExA1", 0xF0FF, 0xE0A1⟩, by decide, rfl, holds_iff.2 (x_holds (by decide) (by decide) x)⟩

theorem InItsRow.ldVxDT (x : Reg) : InItsRow.Statement (.ldVxDT x) :=
  ⟨⟨"Fx07", 0xF0FF, 0xF007⟩, by decide, rfl, holds_iff.2 (x_holds (by decide) (by decide) x)⟩

theorem InItsRow.ldVxK (x : Reg) : InItsRow.Statement (.ldVxK x) :=
  ⟨⟨"Fx0A", 0xF0FF, 0xF00A⟩, by decide, rfl, holds_iff.2 (x_holds (by decide) (by decide) x)⟩

theorem InItsRow.ldDTVx (x : Reg) : InItsRow.Statement (.ldDTVx x) :=
  ⟨⟨"Fx15", 0xF0FF, 0xF015⟩, by decide, rfl, holds_iff.2 (x_holds (by decide) (by decide) x)⟩

theorem InItsRow.ldSTVx (x : Reg) : InItsRow.Statement (.ldSTVx x) :=
  ⟨⟨"Fx18", 0xF0FF, 0xF018⟩, by decide, rfl, holds_iff.2 (x_holds (by decide) (by decide) x)⟩

theorem InItsRow.addI (x : Reg) : InItsRow.Statement (.addI x) :=
  ⟨⟨"Fx1E", 0xF0FF, 0xF01E⟩, by decide, rfl, holds_iff.2 (x_holds (by decide) (by decide) x)⟩

theorem InItsRow.ldF (x : Reg) : InItsRow.Statement (.ldF x) :=
  ⟨⟨"Fx29", 0xF0FF, 0xF029⟩, by decide, rfl, holds_iff.2 (x_holds (by decide) (by decide) x)⟩

theorem InItsRow.ldB (x : Reg) : InItsRow.Statement (.ldB x) :=
  ⟨⟨"Fx33", 0xF0FF, 0xF033⟩, by decide, rfl, holds_iff.2 (x_holds (by decide) (by decide) x)⟩

theorem InItsRow.storeRegs (x : Reg) : InItsRow.Statement (.storeRegs x) :=
  ⟨⟨"Fx55", 0xF0FF, 0xF055⟩, by decide, rfl, holds_iff.2 (x_holds (by decide) (by decide) x)⟩

theorem InItsRow.loadRegs (x : Reg) : InItsRow.Statement (.loadRegs x) :=
  ⟨⟨"Fx65", 0xF0FF, 0xF065⟩, by decide, rfl, holds_iff.2 (x_holds (by decide) (by decide) x)⟩

end Sys2Proof.Laws
end

