-- ==== Sys2Proof/Laws/Step.lean ====
section
/-! SUPPORT. What a tick, a burst step, an input and a step can do, said once each. -/

namespace Sys2Proof.Machine

/-- A tick answers a next state, which is one of four (R190, R191, R229). -/
theorem tick_cases {s t : State} (h : tick s = .next t) :
    (∃ r, s.execState = .waitingForKey r ∧ t = s) ∨
    (s.execState = .running ∧ s.fetch = none ∧ t = s.takeFault .memOutOfRange (some s.pc) none) ∨
    (∃ op e, s.execState = .running ∧ s.fetch = some op ∧ decode op = .error e ∧
      t = s.takeFault .decodeError (some s.pc) (some op)) ∨
    (∃ op i, s.execState = .running ∧ s.fetch = some op ∧ decode op = .ok i ∧ exec i s = .next t) := by
  unfold tick at h
  split at h
  · next hr =>
    unfold tickRunning at h
    split at h
    · next hf => cases h; exact .inr (.inl ⟨hr, hf, rfl⟩)
    · next op hf =>
      split at h
      · next e hd => cases h; exact .inr (.inr (.inl ⟨op, e, hr, hf, hd, rfl⟩))
      · next i hd => exact .inr (.inr (.inr ⟨op, i, hr, hf, hd, h⟩))
  · next r hw => cases h; exact .inl ⟨r, hw, rfl⟩

theorem tick_waiting {s : State} {r : Reg} (h : s.execState = .waitingForKey r) : tick s = .next s := by
  unfold tick
  rw [h]

theorem tick_exec {s : State} {op : Word} {i : Instr} (hr : s.execState = .running) (hf : s.fetch = some op)
    (hd : decode op = .ok i) : tick s = exec i s := by
  unfold tick tickRunning
  rw [hr]
  simp only [hf, hd]

theorem tick_answers (s : State) : ∃ t, tick s = .next t := by
  unfold tick
  split
  · unfold tickRunning
    split
    · exact ⟨_, rfl⟩
    · split
      · exact ⟨_, rfl⟩
      · exact exec_answers _ _
  · exact ⟨_, rfl⟩

/-- The fields no tick writes, whatever it does (R199: no host event takes effect inside a frame). -/
structure TickKeeps (s t : State) : Prop where
  keys : t.keys = s.keys
  loadTruncated : t.loadTruncated = s.loadTruncated
  loaded : t.loaded = s.loaded
  phase : t.phase = s.phase
  inputs : t.inputs = s.inputs
  refreshes : t.refreshes = s.refreshes

theorem tick_keeps {s t : State} (h : tick s = .next t) : TickKeeps s t := by
  rcases tick_cases h with ⟨_, _, rfl⟩ | ⟨_, _, rfl⟩ | ⟨_, _, _, _, _, rfl⟩ | ⟨_, i, _, _, _, he⟩
  · exact ⟨rfl, rfl, rfl, rfl, rfl, rfl⟩
  · exact ⟨rfl, rfl, rfl, rfl, rfl, rfl⟩
  · exact ⟨rfl, rfl, rfl, rfl, rfl, rfl⟩
  · rcases exec_cases he with ⟨_, _, rfl⟩ | o
    · exact ⟨rfl, rfl, rfl, rfl, rfl, rfl⟩
    · exact ⟨o.keys, o.loadTruncated, o.loaded, o.phase, o.inputs, o.refreshes⟩

/-- After a tick `run` is as before or a fault record (R230). -/
theorem tick_run {s t : State} (h : tick s = .next t) : t.run = s.run ∨ t.isFaulted = true := by
  rcases tick_cases h with ⟨_, _, rfl⟩ | ⟨_, _, rfl⟩ | ⟨_, _, _, _, _, rfl⟩ | ⟨_, i, _, _, _, he⟩
  · exact .inl rfl
  · exact .inr rfl
  · exact .inr rfl
  · rcases exec_cases he with ⟨_, _, rfl⟩ | o
    · exact .inr rfl
    · exact .inl o.run

/-- A tick neither reads nor writes the phase. -/
theorem tick_inPhase : IgnoresPhase tick := by
  intro s p
  have he : (s.inPhase p).execState = s.execState := rfl
  have hf : (s.inPhase p).fetch = s.fetch := rfl
  unfold tick
  rw [he]
  split
  · unfold tickRunning
    rw [hf]
    split
    · rfl
    · split
      · rfl
      · exact exec_inPhase _ s p
  · rfl

theorem onNext_next (t : State) (f : State → State) : onNext (.next t) f = .next (f t) := rfl

theorem onNext_eq_next {r : Result} {f : State → State} {u : State} :
    onNext r f = .next u ↔ ∃ t, r = .next t ∧ f t = u := by
  cases r <;> simp [onNext]

/-- A step inside a frame is one of three (R196, R200 b). -/
theorem burstStep_cases {count : Nat} {s u : State} (h : burstStep count s = .next u) :
    (s.run ≠ .active ∧ u = s.leaveFrame) ∨
    (s.run = .active ∧ s.burstGoesOn count = false ∧ u = s.closeFrame) ∨
    (s.run = .active ∧ s.burstGoesOn count = true ∧ ∃ t, tick s = .next t ∧ u = t.afterTick count) := by
  unfold burstStep at h
  split at h
  · next hr =>
    split at h
    · next hb =>
      obtain ⟨t, ht, rfl⟩ := onNext_eq_next.1 h
      exact .inr (.inr ⟨hr, hb, t, ht, rfl⟩)
    · next hb =>
      cases h
      exact .inr (.inl ⟨hr, by simpa using hb, rfl⟩)
  · next hr => cases h; exact .inl ⟨hr, rfl⟩

theorem burstGoesOn_iff {s : State} {count : Nat} :
    s.burstGoesOn count = true ↔ count < 12 ∧ s.execState = .running ∧ s.drawFlag = false := by
  simp [State.burstGoesOn, Config.ticksPerFrame, and_assoc]

theorem afterTick_active {t : State} (h : t.run = .active) (count : Nat) :
    t.afterTick count = { t with phase := .burst (count + 1) } := if_pos h

theorem afterTick_stopped {t : State} (h : t.run ≠ .active) (count : Nat) : t.afterTick count = t.leaveFrame := if_neg h

/-- A step is an input, a frame boundary, or a step inside a frame. -/
theorem step_cases {s u : State} (h : step s = .next u) :
    (s.phase = .between ∧ s.inputs = [] ∧ u = onFrame s) ∨
    (∃ e rest, s.phase = .between ∧ s.inputs = e :: rest ∧ onEvent e { s with inputs := rest } = .next u) ∨
    (∃ count, s.phase = .burst count ∧ burstStep count s = .next u) := by
  unfold step at h
  split at h
  · next hp =>
    unfold hostStep at h
    split at h
    · next hi => cases h; exact .inl ⟨hp, hi, rfl⟩
    · next e rest hi => exact .inr (.inl ⟨e, rest, hp, hi, h⟩)
  · next count hp => exact .inr (.inr ⟨count, hp, h⟩)

theorem burstStep_answers (count : Nat) (s : State) : ∃ u, burstStep count s = .next u := by
  unfold burstStep
  split
  · split
    · obtain ⟨t, ht⟩ := tick_answers s
      exact ⟨_, by rw [ht]; rfl⟩
    · exact ⟨_, rfl⟩
  · exact ⟨_, rfl⟩

/-- A key event changes these fields only (R182). -/
theorem handleKey_keeps (s : State) (k : Key) (p : Bool) :
    (s.handleKey k p).mem = s.mem ∧ (s.handleKey k p).pc = s.pc ∧ (s.handleKey k p).stack = s.stack ∧
    (s.handleKey k p).run = s.run ∧ (s.handleKey k p).phase = s.phase ∧ (s.handleKey k p).drawFlag = s.drawFlag ∧
    (s.handleKey k p).loadTruncated = s.loadTruncated ∧ (s.handleKey k p).loaded = s.loaded := by
  unfold State.handleKey
  split <;> simp

/-- An input that is neither `RESET` nor a legal `LOAD` leaves memory, `pc` and the stack, and enters or leaves `run` by the
transitions of R29. -/
theorem onStart_cases (s : State) :
    (s.run = .powerOn ∧ onStart s = { s with run := .active }) ∨ (s.run = .active ∧ onStart s = protocolViolation s) ∨
    (s.run ≠ .powerOn ∧ s.run ≠ .active ∧ onStart s = s) := by
  unfold onStart
  split <;> simp [*]

theorem onStop_cases (s : State) :
    (s.run = .powerOn ∧ onStop s = protocolViolation s) ∨ (s.run = .active ∧ onStop s = { s with run := .stopped }) ∨
    (s.run ≠ .powerOn ∧ s.run ≠ .active ∧ onStop s = s) := by
  unfold onStop
  split <;> simp [*]

theorem onKey_cases (k : Key) (p : Bool) (s : State) :
    (s.run = .powerOn ∧ onKey k p s = protocolViolation s) ∨ (s.run = .active ∧ onKey k p s = s.handleKey k p) ∨
    (s.run ≠ .powerOn ∧ s.run ≠ .active ∧ onKey k p s = s) := by
  unfold onKey
  split <;> simp [*]

theorem onLoad_legal {s : State} (rom : List Byte) (hr : s.run = .powerOn) (hl : s.loaded = false) :
    onLoad rom s = .next (s.loadImage fontSet rom) := if_pos ⟨hr, hl⟩

/-- A step between frames with an input to come is that input's effect (R199). -/
theorem step_event {s : State} {e : Event} {rest : List Event} (hp : s.phase = .between) (hi : s.inputs = e :: rest) :
    step s = onEvent e { s with inputs := rest } := by simp only [step, hp, hostStep, hi]

/-- A step between frames with no input to come is a frame boundary (log entry 3). -/
theorem step_idle {s : State} (hp : s.phase = .between) (hi : s.inputs = []) : step s = .next (onFrame s) := by
  simp only [step, hp, hostStep, hi]

theorem step_burst {s : State} {count : Nat} (hp : s.phase = .burst count) : step s = burstStep count s := by
  simp only [step, hp]

theorem runSteps_next {s t : State} (k : Nat) (h : step s = .next t) : runSteps (k + 1) s = runSteps k t := by
  simp only [runSteps, h]

theorem onLoad_next {rom : List Byte} {s t : State} (h : onLoad rom s = .next t) :
    s.run = .powerOn ∧ s.loaded = false ∧ t = s.loadImage fontSet rom := by
  unfold onLoad at h
  split at h
  · next hc => cases h; exact ⟨hc.1, hc.2, rfl⟩
  · cases h

end Sys2Proof.Machine
end

