-- ==== Sys2Proof/Tests/Slice0.lean ====
section
/-! SUPPORT. Tests: ill-formed terms, words written out from the spec's encodings, one step on small states with the results spec/95
gives, and for each statement with hypotheses a witness that meets them all, at the boundaries of its clauses. -/

namespace Sys2Proof.Tests

open Sys2Proof Sys2Proof.Machine

/-! ### Well-formedness (R72) -/

theorem test_wf_nnn_has_12_bits :
    Instr.wf (.jp 0x1000) = false ∧ Instr.wf (.call 0x1000) = false ∧ Instr.wf (.ldI 0xFFFF) = false ∧
    Instr.wf (.jpV0 0x8000) = false := by decide

theorem test_wf_n_has_4_bits : Instr.wf (.drw 0 0 16) = false := by decide

theorem test_wf_accepts_the_largest_fields :
    Instr.wf (.jp 0xFFF) = true ∧ Instr.wf (.drw 15 15 15) = true ∧ Instr.wf (.ldImm 15 0xFF) = true := by decide

/-! ### Decoding: one word of every row, its fields placed by hand after R12 and R76 -/

theorem test_decode_fixed : decode 0x00E0 = .ok .cls ∧ decode 0x00EE = .ok .ret := by decide

theorem test_decode_nnn :
    decode 0x1ABC = .ok (.jp 0xABC) ∧ decode 0x2FFE = .ok (.call 0xFFE) ∧ decode 0xA123 = .ok (.ldI 0x123) ∧
    decode 0xB300 = .ok (.jpV0 0x300) := by decide

theorem test_decode_xkk :
    decode 0x3C7F = .ok (.seImm 12 0x7F) ∧ decode 0x4180 = .ok (.sneImm 1 0x80) ∧ decode 0x6A7F = .ok (.ldImm 10 0x7F) ∧
    decode 0x7F01 = .ok (.addImm 15 1) ∧ decode 0xC20F = .ok (.rnd 2 0x0F) := by decide

theorem test_decode_xy :
    decode 0x5120 = .ok (.seReg 1 2) ∧ decode 0x9AB0 = .ok (.sneReg 10 11) ∧ decode 0x8AB0 = .ok (.ldReg 10 11) ∧
    decode 0x8AB1 = .ok (.orReg 10 11) ∧ decode 0x8AB2 = .ok (.andReg 10 11) ∧ decode 0x8AB3 = .ok (.xorReg 10 11) := by
  decide

theorem test_decode_xy_flags :
    decode 0x8AB4 = .ok (.addReg 10 11) ∧ decode 0x8AB5 = .ok (.subReg 10 11) ∧ decode 0x8AB6 = .ok (.shrReg 10 11) ∧
    decode 0x8AB7 = .ok (.subnReg 10 11) ∧ decode 0x8ABE = .ok (.shlReg 10 11) := by decide

theorem test_decode_xyn : decode 0xD12A = .ok (.drw 1 2 10) ∧ decode 0xDFF0 = .ok (.drw 15 15 0) := by decide

theorem test_decode_keys : decode 0xE09E = .ok (.skp 0) ∧ decode 0xEFA1 = .ok (.sknp 15) := by decide

theorem test_decode_class_F :
    decode 0xF107 = .ok (.ldVxDT 1) ∧ decode 0xF20A = .ok (.ldVxK 2) ∧ decode 0xF315 = .ok (.ldDTVx 3) ∧
    decode 0xF418 = .ok (.ldSTVx 4) ∧ decode 0xF51E = .ok (.addI 5) ∧ decode 0xF629 = .ok (.ldF 6) ∧
    decode 0xF733 = .ok (.ldB 7) ∧ decode 0xF855 = .ok (.storeRegs 8) ∧ decode 0xFF65 = .ok (.loadRegs 15) := by decide

/-- V-DEC-3, 4, 5, 9, 11, 14: classes 0, 5, 8 and 9. -/
theorem test_illegal_words :
    decode 0x0000 = .error .class0 ∧ decode 0x00E1 = .error .class0 ∧ decode 0x01E0 = .error .class0 ∧
    decode 0x0FEE = .error .class0 ∧ decode 0x512F = .error .class5 ∧ decode 0x8008 = .error .class8 ∧
    decode 0x800D = .error .class8 ∧ decode 0x800F = .error .class8 ∧ decode 0x9ABF = .error .class9 := by decide

/-- V-DEC-17, 19: classes E and F. -/
theorem test_illegal_words_E_F :
    decode 0xE19D = .error .classE ∧ decode 0xE1A0 = .error .classE ∧ decode 0xF000 = .error .classF ∧
    decode 0xF075 = .error .classF ∧ decode 0xF00B = .error .classF ∧ decode 0xF1FF = .error .classF := by decide

/-- R52: the byte at the lower address is the high byte. -/
theorem test_bytes_are_big_endian : decodeBytes 0x61 0x42 = .ok (.ldImm 1 0x42) ∧ decodeTableWord 16 0x6142 = some (.ldImm 1 0x42) := by
  decide

/-! ### One instruction: a step from the state after reset with the word at 0x200 -/

/-- The machine about to run the word, everything else as after reset. -/
def start (w : Nat) : State := State.reset.withFetchWord 16 w

/-- The outcome is a next state of which `p` is true. -/
def gives (r : Result) (p : State → Bool) : Bool :=
  match r with
  | .next t => p t
  | .fault _ => false
  | .refused _ => false

/-- The next state of an outcome, or the state after reset. -/
def after (r : Result) : State :=
  match r with
  | .next t => t
  | .fault _ => State.reset
  | .refused _ => State.reset

/-- The stack holds `v` in entry `j` and `n` entries are in use. -/
def withStack (s : State) (n : Fin 17) (j : Fin 16) (v : Word) : State := { s with SP := n, stack := s.stack.set j v }

/-- V-DRAW-12. -/
theorem test_cls :
    gives (exec .cls (((start 0x00E0).setReg VF 1).setFb (Screen.blank.flip 31 63))) fun t =>
      !t.fb.pixel 31 63 && t.reg VF == 1 && t.drawFlag && t.pc == 0x202 := by decide

/-- V-FLOW-4. -/
theorem test_ret :
    gives (step (withStack (start 0x00EE) 1 0 0x456)) fun t => t.SP == 0 && t.pc == 0x456 && t.stack[0] == 0x456 := by decide

/-- V-FLOW-5. -/
theorem test_ret_underflow :
    gives (step (start 0x00EE)) fun t => t.run == .faulted .stackUnderflow (some 0x200) (some 0x00EE) && t.pc == 0x200 := by
  decide

/-- V-FLOW-1. -/
theorem test_jp : gives (step (start 0x1ABC)) fun t => t.pc == 0xABC := by decide

/-- V-FLOW-7: the 16th nested call is legal. -/
theorem test_call :
    gives (step (withStack (start 0x2ABC) 15 0 0)) fun t => t.stack[15] == 0x202 && t.SP == 16 && t.pc == 0xABC := by decide

/-- V-FLOW-6. -/
theorem test_call_overflow :
    gives (step (withStack (start 0x2ABC) 16 15 0x31E)) fun t =>
      t.run == .faulted .stackOverflow (some 0x200) (some 0x2ABC) && t.stack[15] == 0x31E && t.SP == 16 := by decide

/-- V-FLOW-9. -/
theorem test_seImm : gives (step ((start 0x3342).setReg 3 0x42)) fun t => t.pc == 0x204 := by decide

/-- V-FLOW-11. -/
theorem test_sneImm : gives (step ((start 0x4342).setReg 3 0x42)) fun t => t.pc == 0x202 := by decide

/-- V-FLOW-13. -/
theorem test_seReg : gives (step (((start 0x5120).setReg 1 7).setReg 2 7)) fun t => t.pc == 0x204 := by decide

/-- V-FLOW-16. -/
theorem test_sneReg : gives (step (((start 0x9120).setReg 1 7).setReg 2 8)) fun t => t.pc == 0x204 := by decide

/-- V-FLOW-19: the sum is not masked. -/
theorem test_jpV0 : gives (step ((start 0xBFFF).setReg 0 0xFF)) fun t => t.pc == 0x10FE := by decide

/-- S7. -/
theorem test_ldImm : gives (step (start 0x6142)) fun t => t.reg 1 == 0x42 && t.pc == 0x202 := by decide

/-- V-ALU-4: no flag. -/
theorem test_addImm :
    gives (step (((start 0x7120).setReg 1 0xF0).setReg VF 1)) fun t => t.reg 1 == 0x10 && t.reg VF == 1 := by decide

/-- V-ALU-6. -/
theorem test_ldReg : gives (step (((start 0x8120).setReg 1 3).setReg 2 9)) fun t => t.reg 1 == 9 && t.reg 2 == 9 := by decide

/-- V-ALU-7: `VF` untouched. -/
theorem test_orReg :
    gives (step ((((start 0x8121).setReg 1 0x0F).setReg 2 0xF0).setReg VF 1)) fun t => t.reg 1 == 0xFF && t.reg VF == 1 := by
  decide

/-- V-ALU-8. -/
theorem test_andReg :
    gives (step ((((start 0x8122).setReg 1 0x3C).setReg 2 0x0F).setReg VF 1)) fun t => t.reg 1 == 0x0C && t.reg VF == 1 := by
  decide

/-- V-ALU-9. -/
theorem test_xorReg :
    gives (step (((start 0x8123).setReg 1 0x3C).setReg 2 0x0F)) fun t => t.reg 1 == 0x33 := by decide

/-- V-ALU-10q: under the quirk the reset comes last. -/
theorem test_logic_quirk :
    (((start 0x8F13).setReg VF 0x5A).logicOp { quirks with logicResetsVF := true } VF (0x5A ^^^ 0x0F)).reg VF = 0 := by decide

/-- V-ALU-13: a sum of 255 is no carry. -/
theorem test_addReg :
    gives (step ((((start 0x8124).setReg 1 0x80).setReg 2 0x7F).setReg VF 1)) fun t => t.reg 1 == 0xFF && t.reg VF == 0 := by
  decide

/-- V-ALU-15: with `x = F` the flag wins. -/
theorem test_addReg_x_F : gives (step (((start 0x8F14).setReg VF 200).setReg 1 100)) fun t => t.reg VF == 1 := by decide

/-- V-ALU-20. -/
theorem test_subReg :
    gives (step ((((start 0x8125).setReg 1 3).setReg 2 5).setReg VF 1)) fun t => t.reg 1 == 0xFE && t.reg VF == 0 := by decide

/-- V-ALU-21: equal operands do not borrow. -/
theorem test_subReg_equal :
    gives (step (((start 0x8125).setReg 1 7).setReg 2 7)) fun t => t.reg 1 == 0 && t.reg VF == 1 := by decide

/-- V-ALU-24: `Vy` unused. -/
theorem test_shrReg :
    gives (step (((start 0x8126).setReg 1 5).setReg 2 0xAA)) fun t => t.reg 1 == 2 && t.reg VF == 1 && t.reg 2 == 0xAA := by
  decide

/-- V-ALU-26. -/
theorem test_shrReg_x_F : gives (step ((start 0x8F06).setReg VF 3)) fun t => t.reg VF == 0 := by decide

/-- V-ALU-24q and 26q. -/
theorem test_shrReg_quirk :
    ((((start 0x8126).setReg 1 0xAA).setReg 2 5).shiftRight { quirks with shiftUsesVy := true } 1 2).reg 1 = 2 ∧
    ((((start 0x8F26).setReg VF 0x77).setReg 2 5).shiftRight { quirks with shiftUsesVy := true } VF 2).reg VF = 2 := by decide

/-- V-ALU-28. -/
theorem test_subnReg :
    gives (step ((((start 0x8127).setReg 1 5).setReg 2 3).setReg VF 1)) fun t => t.reg 1 == 0xFE && t.reg VF == 0 := by decide

/-- V-ALU-29b. -/
theorem test_subnReg_x_F : gives (step (((start 0x8F17).setReg VF 3).setReg 1 5)) fun t => t.reg VF == 1 := by decide

/-- V-ALU-30. -/
theorem test_shlReg :
    gives (step (((start 0x812E).setReg 1 0x81).setReg 2 0x11)) fun t => t.reg 1 == 2 && t.reg VF == 1 := by decide

/-- V-ALU-32. -/
theorem test_shlReg_x_F : gives (step ((start 0x8F0E).setReg VF 0x81)) fun t => t.reg VF == 2 := by decide

/-- V-ALU-30q and 32q. -/
theorem test_shlReg_quirk :
    (((start 0x812E).setReg 2 0xC0).shiftLeft { quirks with shiftUsesVy := true } 1 2).reg 1 = 0x80 ∧
    (((start 0x8F2E).setReg 2 0xC0).shiftLeft { quirks with shiftUsesVy := true } VF 2).reg VF = 0x80 := by decide

/-- R123: with `kk = 0` the result is 0 whatever the byte is (V-ALU-35), and one free byte is taken. -/
theorem test_rnd : ∃ t, exec (.rnd 10 0) ((start 0xCA00).setReg 10 0x77) = .next t ∧ t.reg 10 = 0 ∧ t.draws = 1 :=
  ⟨_, rfl, by show (0 : Byte) &&& _ = 0; exact BitVec.zero_and, rfl⟩

/-- V-IDX-1. -/
theorem test_ldI : gives (step (start 0xA123)) fun t => t.I == 0x123 := by decide

/-- V-IDX-2 and 3: no flag, modulo 65536. -/
theorem test_addI :
    gives (step (((start 0xF11E).setI 0xFFF).setReg 1 1)) (fun t => t.I == 0x1000 && t.reg VF == 0) ∧
    gives (step (((start 0xF11E).setI 0xFFFF).setReg 1 1)) (fun t => t.I == 0 && t.reg VF == 0) := by decide

/-- S8, and the whole byte counts (R132). -/
theorem test_ldF :
    gives (step (((start 0xF029).setI 0x50).setReg 0 7)) (fun t => t.I == 35) ∧
    gives (step ((start 0xF029).setReg 0 255)) (fun t => t.I == 1275) := by decide

/-- R133's example. -/
theorem test_ldB :
    gives (step (((start 0xF433).setI 0x300).setReg 4 0x9C)) fun t =>
      t.mem.read 0x300 == 1 && t.mem.read 0x301 == 5 && t.mem.read 0x302 == 6 && t.I == 0x300 := by decide

/-- R133: `I = 4094` is out of range, and no byte is written. -/
theorem test_ldB_out_of_range :
    gives (step (((start 0xF433).setI 0xFFE).setReg 4 0x9C)) fun t =>
      t.run == .faulted .memOutOfRange (some 0x200) (some 0xF433) && t.mem.read 0xFFE == 0 && t.pc == 0x200 := by decide

/-- R134's example. -/
theorem test_storeRegs :
    gives (step (((((start 0xF255).setReg 0 1).setReg 1 2).setReg 2 3).setI 0x400)) fun t =>
      t.mem.read 0x400 == 1 && t.mem.read 0x401 == 2 && t.mem.read 0x402 == 3 && t.mem.read 0x403 == 0 && t.I == 0x403 := by
  decide

/-- R134: the last legal base for `x = F`, and the first illegal one. -/
theorem test_storeRegs_edge :
    gives (step (((start 0xFF55).setReg VF 9).setI 0xFF0)) (fun t => t.mem.read 0xFFF == 9 && t.I == 0x1000) ∧
    gives (step (((start 0xFF55).setReg VF 9).setI 0xFF1)) (fun t =>
      t.run == .faulted .memOutOfRange (some 0x200) (some 0xFF55) && t.mem.read 0xFF1 == 0 && t.I == 0xFF1) := by decide

/-- R135's example; registers above `Vx` keep their value. -/
theorem test_loadRegs :
    gives (step ((((start 0xF265).writeBytes 0x400 [1, 2, 3, 4]).setReg 3 0x77).setI 0x400)) fun t =>
      t.reg 0 == 1 && t.reg 1 == 2 && t.reg 2 == 3 && t.reg 3 == 0x77 && t.I == 0x403 := by decide

/-- V-DRAW-5: only the anchor wraps. -/
theorem test_drw :
    gives (step ((((start 0xD012).writeBytes 0x300 [0xC0, 0xC0]).setI 0x300 |>.setReg 0 67).setReg 1 255)) fun t =>
      t.fb.pixel 31 3 && t.fb.pixel 31 4 && !t.fb.pixel 31 5 && !t.fb.pixel 0 3 && t.reg VF == 0 && t.drawFlag := by decide

/-- V-DRAW-10: both coordinates are the old `VF`, and a collision clears the pixel. -/
theorem test_drw_collision :
    gives (step ((((start 0xDFF1).writeBytes 0x300 [0x80]).setI 0x300 |>.setReg VF 3).setFb (Screen.blank.flip 3 3))) fun t =>
      !t.fb.pixel 3 3 && t.reg VF == 1 && t.drawFlag := by decide

/-- V-DRAW-8 under the wrap quirk: the wrapped bit collides. -/
theorem test_draw_quirk :
    (draw { quirks with drawWrapsPixels := true } (Screen.blank.flip 0 0) 62 0 [0xFF]).2 = true ∧
    (draw quirks (Screen.blank.flip 0 0) 62 0 [0xFF]).2 = false := by decide

/-- V-DRAW-6 and 16: `n = 0` never faults; all `n` bytes are checked, clipped or not. -/
theorem test_drw_range :
    gives (step (((start 0xD010).setI 0xFFF).setReg VF 1)) (fun t => t.reg VF == 0 && t.drawFlag && t.run == .active) ∧
    gives (step (((start 0xD013).setI 0xFFE).setReg 1 31)) (fun t =>
      t.run == .faulted .memOutOfRange (some 0x200) (some 0xD013)) := by decide

/-- V-KT-1 and 5. -/
theorem test_skp :
    gives (step (((start 0xE19E).setReg 1 5).setKey 5 true)) (fun t => t.pc == 0x204) ∧
    gives (step ((start 0xE19E).setReg 1 16)) (fun t =>
      t.run == .faulted .keyIndexOutOfRange (some 0x200) (some 0xE19E)) := by decide

/-- V-KT-3 and 4. -/
theorem test_sknp :
    gives (step (((start 0xE1A1).setReg 1 5).setKey 5 true)) (fun t => t.pc == 0x202) ∧
    gives (step ((start 0xE1A1).setReg 1 5)) (fun t => t.pc == 0x204) := by decide

/-- V-KT-9. -/
theorem test_ldVxDT : gives (step ((start 0xF107).setDT 0x2A)) fun t => t.reg 1 == 0x2A && t.DT == 0x2A := by decide

/-- V-KT-10. -/
theorem test_ldDTVx : gives (step ((start 0xF115).setReg 1 0x3C)) fun t => t.DT == 60 && t.ST == 0 := by decide

/-- V-KT-11. -/
theorem test_ldSTVx : gives (step ((start 0xF118).setReg 1 0x3C)) fun t => t.ST == 60 && t.DT == 0 := by decide

/-- V-KT-12: a key already held does not end the wait. -/
theorem test_ldVxK :
    gives (step (((start 0xF10A).setReg 1 0x77).setKey 2 true)) fun t =>
      t.execState == .waitingForKey 1 && t.pc == 0x202 && t.reg 1 == 0x77 := by decide

/-! ### Faults of the fetch, frames and host events -/

/-- V-FLOW-20: the second byte would be at 4096. -/
theorem test_fetch_fault :
    gives (step ((start 0x1FFF).setPc 0xFFF)) fun t => t.run == .faulted .memOutOfRange (some 0xFFF) none && t.phase == .between := by
  decide

/-- V-FLOW-21. -/
theorem test_decode_fault :
    gives (step ((start 0x1FFE).setPc 0xFFE)) fun t => t.run == .faulted .decodeError (some 0xFFE) (some 0) && t.refreshes == 0 := by
  decide

/-- An `Active` machine between frames with this input to come. -/
def idle (es : List Event) : State := { State.reset with run := .active, inputs := es }

/-- R197 and R198: a timer at 0 stays 0. -/
theorem test_frame_end :
    gives (step { (start 0x1200).setDT 2 with phase := .burst 12 }) fun t =>
      t.DT == 1 && t.ST == 0 && t.refreshes == 1 && t.phase == .between && t.pc == 0x200 := by decide

/-- S9: the press does not end the wait. -/
theorem test_key_press :
    gives (step ((idle [.key 9 true]).setExec (.waitingForKey 3))) fun t =>
      t.key 9 && t.execState == .waitingForKey 3 && t.reg 3 == 0 := by decide

/-- S9: the release does. -/
theorem test_key_release :
    gives (step (((idle [.key 9 false]).setKey 9 true).setExec (.waitingForKey 3))) fun t =>
      !t.key 9 && t.execState == .running && t.reg 3 == 9 := by decide

/-- V-SCHED-5 and 6. -/
theorem test_protocol_violations :
    gives (step { State.reset with inputs := [.key 3 true] }) (fun t =>
      t.run == .faulted .protocolViolation none none && !t.key 3) ∧
    gives (step (idle [.start])) (fun t => t.run == .faulted .protocolViolation none none) := by decide

/-- V-SCHED-8 and 10. -/
theorem test_frames_without_effect :
    gives (step { State.reset with inputs := [.frame] }) (fun t => t.run == .powerOn && t.refreshes == 0) ∧
    gives (step { State.reset with run := .stopped, inputs := [.key 1 true] }) (fun t => t.run == .stopped && !t.key 1) := by
  decide

/-- V-SCHED-12, in small, with a given font in place of the free one: font at 0, ROM at 0x200, no truncation. -/
theorem test_load_image :
    (State.reset.loadImage [0xF0, 0x90] [0x12, 0x00]).mem = [(0, 0xF0), (1, 0x90), (0x200, 0x12)] ∧
    (State.reset.loadImage [0xF0, 0x90] [0x12, 0x00]).loadTruncated = false := by decide

/-- R201, D21: a second `LOAD` is refused. -/
theorem test_second_load : step { State.reset with loaded := true, inputs := [.load []] } = .refused .loadNotLegal := rfl

/-- R158, R150: the sequence is row-major, so pixel `(2, 1)` is number 66. -/
theorem test_hostView :
    ((start 0x1200).setFb (Screen.blank.flip 1 2)).hostView.grid[66]? = some true ∧
    ((start 0x1200).setFb (Screen.blank.flip 1 2)).hostView.grid[33]? = some false := by decide

/-- R250: `RESET` leaves a faulted machine as after power on. -/
theorem test_reset :
    gives (step { (start 0x6142).setReg 1 5 with
        phase := .between, inputs := [.reset], run := .faulted .decodeError (some 0x300) (some 0) }) fun t =>
      t.run == .powerOn && t.reg 1 == 0 && t.mem == [] && t.pc == 0x200 := by decide

/-! ### Witnesses: for each statement with hypotheses, concrete values that meet them all; where it has clauses, one at the boundary of each -/

theorem witness_DecodeInvertsEncode :
    Instr.wf (.jp 0xFFF) = true ∧ Instr.wf (.drw 15 15 15) = true ∧ Instr.wf (.loadRegs 15) = true := by decide

theorem witness_EncodeInvertsDecode : decode 0xDFFF = .ok (.drw 15 15 15) := by decide

theorem witness_LegalExactlyWhenARowMatches :
    decode 0x8AB4 = .ok (.addReg 10 11) ∧ (⟨"8xy4", 0xF00F, 0x8004⟩ : OpcodeRow) ∈ opcodeTable ∧
    OpcodeRow.holds ⟨"8xy4", 0xF00F, 0x8004⟩ 0x8AB4 = true :=
  ⟨by decide, by simp [opcodeTable], by decide⟩

theorem witness_StepRunsTheDecodedInstruction :
    let s : State := { start 0x6142 with phase := .burst 11 }
    s.phase = .burst 11 ∧ 11 < 12 ∧ s.run = .active ∧ s.execState = .running ∧ s.drawFlag = false ∧ s.pc.toNat ≤ 4094 ∧
    decodeBytes (s.mem.read s.pc.toNat) (s.mem.read (s.pc.toNat + 1)) = .ok (.ldImm 1 0x42) := by decide

theorem witness_FetchFaultThenDecodeFault :
    let s := (start 0).setPc 4095
    let u := (start 0).setPc 4094
    s.execState = .running ∧ 4095 ≤ s.pc.toNat ∧ u.execState = .running ∧ u.pc.toNat ≤ 4094 ∧
    (0 : Word).toNat = (u.mem.read u.pc.toNat).toNat * 256 + (u.mem.read (u.pc.toNat + 1)).toNat ∧
    decode 0 = .error .class0 := by decide

theorem witness_WaitingExecutesNothing :
    let s := (start 0).setExec (.waitingForKey 15)
    s.execState = .waitingForKey 15 ∧ s.phase = .burst 0 ∧ s.run = .active := by decide

theorem witness_DrawFlagExactlyForDisplay :
    let s := start 0x00E0
    s.run = .active ∧ s.drawFlag = false ∧ tick s = .next (after (tick s)) ∧ (after (tick s)).drawFlag = true :=
  ⟨rfl, rfl, rfl, rfl⟩

theorem witness_FaultsArePrecise :
    let s := start 0x00EE
    s.run = .active ∧ tick s = .next (after (tick s)) ∧ (after (tick s)).run ≠ .active :=
  ⟨rfl, rfl, by decide⟩

theorem witness_LoadAddAndMoveRegisters :
    (0x6FFF : Word).toNat = 0x6000 + 256 * (15 : Reg).val + (0xFF : Byte).toNat ∧
    (0x7FFF : Word).toNat = 0x7000 + 256 * (15 : Reg).val + (0xFF : Byte).toNat ∧
    (0x8FF0 : Word).toNat = 0x8000 + 256 * (15 : Reg).val + 16 * (15 : Reg).val := by decide

theorem witness_LogicIsBitwise :
    (0x8FF1 : Word).toNat = 0x8001 + 256 * (15 : Reg).val + 16 * (15 : Reg).val ∧
    (0x8FF2 : Word).toNat = 0x8002 + 256 * (15 : Reg).val + 16 * (15 : Reg).val ∧
    (0x8FF3 : Word).toNat = 0x8003 + 256 * (15 : Reg).val + 16 * (15 : Reg).val ∧
    ({ quirks with logicResetsVF := true } : Config.Quirks).logicResetsVF = true ∧ (14 : Reg) ≠ VF := by decide

theorem witness_AddRegistersWithCarry :
    (0x8EF4 : Word).toNat = 0x8004 + 256 * (14 : Reg).val + 16 * (15 : Reg).val ∧ (14 : Reg) ≠ VF := by decide

theorem witness_SubtractWithNoBorrow :
    (0x8EF5 : Word).toNat = 0x8005 + 256 * (14 : Reg).val + 16 * (15 : Reg).val ∧
    (0x8EF7 : Word).toNat = 0x8007 + 256 * (14 : Reg).val + 16 * (15 : Reg).val ∧ (14 : Reg) ≠ VF := by decide

theorem witness_ShiftRightByOne :
    (0x8EF6 : Word).toNat = 0x8006 + 256 * (14 : Reg).val + 16 * (15 : Reg).val ∧ (14 : Reg) ≠ VF ∧
    ({ quirks with shiftUsesVy := true } : Config.Quirks).shiftUsesVy = true := by decide

theorem witness_ShiftLeftByOne :
    (0x8EFE : Word).toNat = 0x800E + 256 * (14 : Reg).val + 16 * (15 : Reg).val ∧ (14 : Reg) ≠ VF ∧
    ({ quirks with shiftUsesVy := true } : Config.Quirks).shiftUsesVy = true := by decide

theorem witness_RandomByteIsMasked : (0x0F : Byte).getLsbD 4 = false := by decide

theorem witness_FlagRegisterAsSecondOperand : (0 : Reg) ≠ VF ∧ (14 : Reg) ≠ VF := by decide

theorem witness_JumpSetsPc : (0xFFF : Word).toNat < 4096 ∧ (0x1FFF : Word).toNat = 0x1000 + (0xFFF : Word).toNat := by decide

theorem witness_JumpWithOffsetIsNotMasked : (0xFFF : Word).toNat < 4096 := by decide

theorem witness_SkipsOnComparison :
    (0x3FFF : Word).toNat = 0x3000 + 256 * (15 : Reg).val + (0xFF : Byte).toNat ∧
    (0x4FFF : Word).toNat = 0x4000 + 256 * (15 : Reg).val + (0xFF : Byte).toNat ∧
    (0x5FF0 : Word).toNat = 0x5000 + 256 * (15 : Reg).val + 16 * (15 : Reg).val ∧
    (0x9FF0 : Word).toNat = 0x9000 + 256 * (15 : Reg).val + 16 * (15 : Reg).val ∧
    (0x5FF1 : Word).toNat = 0x5000 + 256 * (15 : Reg).val + 16 * (15 : Reg).val + 1 ∧
    (0x9FFF : Word).toNat = 0x9000 + 256 * (15 : Reg).val + 16 * (15 : Reg).val + 15 := by decide

theorem witness_CallPushesReturnAddress :
    (0xFFF : Word).toNat < 4096 ∧ (0x2FFF : Word).toNat = 0x2000 + (0xFFF : Word).toNat ∧
    (withStack (start 0x2FFF) 15 0 0).SP.val < 16 ∧ (withStack (start 0x2FFF) 16 0 0).SP.val = 16 := by decide

theorem witness_ReturnPopsReturnAddress : 0 < (withStack (start 0x00EE) 1 0 0).SP.val ∧ (start 0x00EE).SP.val = 0 := by decide

theorem witness_CallThenReturn :
    let s := withStack (start 0x2ABC) 15 0 0
    s.SP.val < 16 ∧ exec (.call 0xABC) s = .next (after (exec (.call 0xABC) s)) :=
  ⟨by decide, rfl⟩

theorem witness_LoadIndexRegister : (0xFFF : Word).toNat < 4096 ∧ (0xAFFF : Word).toNat = 0xA000 + (0xFFF : Word).toNat := by decide

theorem witness_StoreDecimalDigits :
    (start 0xFF33).mem.wf = true ∧ (0xFF33 : Word).toNat = 0xF033 + 256 * (15 : Reg).val ∧
    ((start 0xFF33).setI 4093).I.toNat ≤ 4093 ∧ 4093 < ((start 0xFF33).setI 4094).I.toNat := by decide

theorem witness_StoreRegisterBlock :
    (start 0xFF55).mem.wf = true ∧ (0xFF55 : Word).toNat = 0xF055 + 256 * (15 : Reg).val ∧
    ((start 0xFF55).setI 4080).I.toNat + (15 : Reg).val ≤ 4095 ∧ 4095 < ((start 0xFF55).setI 4081).I.toNat + (15 : Reg).val := by
  decide

theorem witness_LoadRegisterBlock :
    (0xFF65 : Word).toNat = 0xF065 + 256 * (15 : Reg).val ∧ ((start 0xFF65).setI 4080).I.toNat + (15 : Reg).val ≤ 4095 ∧
    4095 < ((start 0xFF65).setI 4081).I.toNat + (15 : Reg).val := by decide

/-- `u` is the state after the store with `I` set back, as R137 reads "the same `I`". -/
theorem witness_StoreThenLoadRestores :
    let s := ((start 0xF255).setReg 0 1).setI 0x300
    let t := after (exec (.storeRegs 2) s)
    let u := t.setI 0x300
    s.mem.wf = true ∧ s.I.toNat + (2 : Reg).val ≤ 4095 ∧ exec (.storeRegs 2) s = .next t ∧ u.I = s.I ∧
    ∀ a, u.mem.read a = t.mem.read a :=
  ⟨by decide, by decide, rfl, rfl, fun _ => rfl⟩

/-- V-IDX-25: the very next fetch; and a digit that lands on a fetched low byte. -/
theorem witness_StoreIsSeenByTheNextFetch :
    let s := (((start 0xF155).setReg 0 0x61).setReg 1 0x07).setI 0x202
    let t := after (exec (.storeRegs 1) s)
    let v := ((start 0xF433).setReg 4 0x9C).setI 0xFFD
    let w := after (exec (.ldB 4) v)
    let u := w.setPc 0xFFE
    (s.mem.wf = true ∧ s.I.toNat + (1 : Reg).val ≤ 4095 ∧ exec (.storeRegs 1) s = .next t ∧ t.pc.toNat ≤ 4094 ∧
      t.pc.toNat = s.I.toNat + (0 : Reg).val ∧ t.pc.toNat + 1 = s.I.toNat + (1 : Reg).val ∧ t.fetch = some 0x6107) ∧
    (v.mem.wf = true ∧ v.I.toNat ≤ 4093 ∧ exec (.ldB 4) v = .next w ∧ (∀ a, u.mem.read a = w.mem.read a) ∧ u.pc.toNat ≤ 4094 ∧
      u.pc.toNat = v.I.toNat + 1 ∧ u.pc.toNat + 1 = v.I.toNat + 2 ∧ u.fetch = some 0x0506) :=
  ⟨⟨by decide, by decide, rfl, by decide, by decide, by decide, by decide⟩,
    ⟨by decide, by decide, rfl, fun _ => rfl, by decide, by decide, by decide, by decide⟩⟩

/-- A longest sprite; for the draw laws (also `CollisionWhenALitPixelIsHit` and `DrawingTwiceRestoresTheGrid`). -/
theorem witness_DrawXorsTheVisibleSpriteBits : (List.replicate 15 (0xFF : Byte)).length ≤ 15 ∧ 31 < 32 ∧ 63 < 64 := by decide

theorem witness_CollisionWhenALitPixelIsHit :
    ([0x80] : List Byte).length ≤ 15 ∧ (draw quirks (Screen.blank.flip 31 63) 63 31 [0x80]).2 = true := by decide

theorem witness_DrawingTwiceRestoresTheGrid : ([0x80] : List Byte).length ≤ 15 ∧ Screen.blank = Screen.blank := ⟨by decide, rfl⟩

/-- Bytes just inside the range, just outside it, and none. -/
theorem witness_DrawSpriteInstruction :
    let s := ((start 0xD011).writeBytes 0xFFF [0x80]).setI 0xFFF
    let u := (start 0xD012).setI 0xFFF
    quirks.drawWrapsPixels = false ∧ [(0x80 : Byte)].length = 1 ∧ [(0x80 : Byte)][0]? = some (s.mem.read (s.I.toNat + 0)) ∧
    s.I.toNat + 1 - 1 ≤ 4095 ∧ [(0 : Byte), 0].length = 2 ∧
    (∀ j, j < 2 → [(0 : Byte), 0][j]? = some (u.mem.read (u.I.toNat + j))) ∧ 2 ≠ 0 ∧ 4095 < u.I.toNat + 2 - 1 ∧
    ([] : List Byte).length = 0 ∧ (∀ j, j < 0 → ([] : List Byte)[j]? = some (u.mem.read (u.I.toNat + j))) := by decide

theorem witness_SkipOnKeyState :
    (15 : Key).val = (((start 0xE19E).setReg 1 15).reg 1).toNat ∧ 15 < (((start 0xE19E).setReg 1 16).reg 1).toNat := by decide

theorem witness_KeyEventUpdatesKeypadAndEndsWait :
    let s := (idle [.key 15 false]).setExec (.waitingForKey 15)
    s.phase = .between ∧ s.inputs = [.key 15 false] ∧ s.run = .active ∧ s.execState = .waitingForKey 15 ∧
    (idle [.key 15 true]).execState = .running := by decide

theorem witness_StepsRefineTheAtomicFrame :
    (idle [.frame]).phase = .between ∧ (idle [.frame]).inputs = [.frame] ∧ (idle []).phase = .between ∧ (idle []).inputs = [] := by
  decide

/-- After 12 ticks, on waiting, after a draw. -/
theorem witness_FrameEndCountsTimersAndRefreshes :
    let s : State := { start 0x1200 with phase := .burst 12 }
    let u := (start 0x1200).setExec (.waitingForKey 0)
    let v := (start 0x1200).markDraw
    s.phase = .burst 12 ∧ s.run = .active ∧ 12 ≤ 12 ∧ u.phase = .burst 0 ∧ u.run = .active ∧ u.execState ≠ .running ∧
    v.phase = .burst 0 ∧ v.run = .active ∧ v.drawFlag = true := by decide

theorem witness_FaultEndsTheFrame :
    let s := start 0x00EE
    s.phase = .burst 0 ∧ s.run = .active ∧ step s = .next (after (step s)) ∧ (after (step s)).run ≠ .active :=
  ⟨rfl, rfl, rfl, by decide⟩

theorem witness_NoHostEventInsideAFrame :
    let s : State := { start 0x6142 with inputs := [.key 1 true] }
    s.phase = .burst 0 ∧ step s = .next (after (step s)) :=
  ⟨rfl, rfl⟩

theorem witness_StartAndStopChangeRunOnly :
    let s : State := { State.reset with inputs := [.start] }
    s.phase = .between ∧ s.inputs = [.start] ∧ s.run = .powerOn ∧ (idle [.stop]).phase = .between ∧
    (idle [.stop]).inputs = [.stop] ∧ (idle [.stop]).run = .active := by decide

theorem witness_ProtocolViolationsAreFatal :
    let s : State := { State.reset with inputs := [.stop] }
    let u : State := { State.reset with inputs := [.frame] }
    let v : State := { State.reset with inputs := [.load []] }
    (s.phase = .between ∧ s.inputs = [.stop] ∧ s.run = .powerOn) ∧ (u.phase = .between ∧ u.inputs = [.frame] ∧ u.run = .powerOn) ∧
    (v.phase = .between ∧ v.inputs = [.load []] ∧ v.run = .powerOn ∧ v.loaded = false) ∧
    ((idle [.start]).phase = .between ∧ (idle [.start]).inputs = [.start] ∧ (idle [.start]).run = .active) := by decide

theorem witness_TerminalStatesIgnoreEvents :
    let s : State := { State.reset with run := .stopped }
    let u : State := { State.reset with run := .faulted .protocolViolation none none, inputs := [.start] }
    s.phase = .between ∧ s.run = .stopped ∧ s.inputs = [] ∧ u.phase = .between ∧ u.isFaulted = true ∧ u.inputs = [.start] ∧
    Event.start ≠ .reset ∧ (∀ rom, Event.start ≠ .load rom) :=
  ⟨rfl, rfl, rfl, rfl, rfl, rfl, by decide, fun _ h => by cases h⟩

theorem witness_LoadPlacesFontAndRom :
    let s : State := { State.reset with inputs := [.load [0x12]] }
    s.phase = .between ∧ s.inputs = [.load [0x12]] ∧ s.run = .powerOn ∧ s.loaded = false ∧ s.mem.wf = true ∧ 79 < 80 ∧
    0 < 3584 ∧ [(0x12 : Byte)][0]? = some 0x12 ∧ 80 ≤ 80 ∧ 80 < 0x200 ∧
    0x200 + min [(0x12 : Byte)].length 3584 ≤ 0x201 := by decide

/-- Outside `PowerOn`, and a second one. -/
theorem witness_OnlyAnIllegalLoadIsRefused :
    let s : State := { State.reset with loaded := true, inputs := [.load []] }
    ((idle [.load []]).phase = .between ∧ (idle [.load []]).inputs = [.load []] ∧ (idle [.load []]).run ≠ .powerOn) ∧
    s.phase = .between ∧ s.inputs = [.load []] ∧ s.loaded = true := by decide

theorem witness_ResetRestoresEveryField :
    let s : State := { start 0x6142 with phase := .between, inputs := [.reset] }
    s.phase = .between ∧ s.inputs = [.reset] := by decide

theorem witness_EveryStepKeepsTheInvariant : State.reset.Inv ∧ step State.reset = .next State.reset :=
  ⟨⟨rfl, by decide, by decide, by decide, (fun _ h => by cases h), by decide, by decide⟩, rfl⟩

/-- A state inside a frame meets the invariant too. -/
theorem witness_EveryStepKeepsTheInvariant_in_a_frame :
    let s := start 0xBFFF
    s.Inv ∧ step s = .next (after (step s)) ∧ (after (step s)).phase = .burst 1 :=
  ⟨⟨by decide, by decide, by decide, by decide, (fun _ h => by cases h; decide), by decide, by decide⟩, rfl, rfl⟩

theorem witness_EveryStepKeepsFaultRecords :
    let s := start 0x00EE
    s.FaultRecordOk ∧ step s = .next (after (step s)) ∧ (after (step s)).isFaulted = true :=
  ⟨(fun _ _ _ h => by cases h), rfl, rfl⟩

theorem witness_NothingMovesBeforeStart :
    let s : State := { State.reset with inputs := [.load [0x12]] }
    s.FreshBeforeStart ∧ s.run = .powerOn ∧ step s = .next (after (step s)) :=
  ⟨fun _ => ⟨rfl, rfl, rfl, rfl, rfl, rfl, rfl, rfl, rfl, rfl, rfl, rfl⟩, rfl, rfl⟩

theorem witness_OnlyTheNamedInstructionsWrite :
    let s := (start 0xF155).setReg 1 7
    exec (.storeRegs 1) s = .next (after (exec (.storeRegs 1) s)) ∧ (after (exec (.storeRegs 1) s)).I ≠ s.I ∧
    ¬StatePart.memory.same s (after (exec (.storeRegs 1) s)) :=
  ⟨rfl, by decide, fun h => absurd (h 1) (by decide)⟩

/-- A register, `pc` and `run` changed. -/
theorem witness_OnlyTheNamedInstructionsWrite_registers_pc_run :
    let s := start 0x00EE
    exec (.ldImm 15 7) s = .next (after (exec (.ldImm 15 7) s)) ∧ (after (exec (.ldImm 15 7) s)).reg 15 ≠ s.reg 15 ∧
    exec (.jp 0xABC) s = .next (after (exec (.jp 0xABC) s)) ∧ (after (exec (.jp 0xABC) s)).pc ≠ s.pc + 2 ∧
    exec .ret s = .next (after (exec .ret s)) ∧ (after (exec .ret s)).pc ≠ s.pc + 2 ∧ (after (exec .ret s)).run ≠ s.run :=
  ⟨rfl, by decide, rfl, by decide, rfl, by decide, by decide⟩

theorem witness_OnlyFlagWritersTouchVF :
    let s := ((start 0x8124).setReg 1 0xFF).setReg 2 1
    exec (.addReg 1 2) s = .next (after (exec (.addReg 1 2) s)) ∧ (after (exec (.addReg 1 2) s)).reg VF ≠ s.reg VF :=
  ⟨rfl, by decide⟩

theorem witness_InstructionsFaultExactlyWhen :
    (start 0x00EE).run = .active ∧ 0 < 15 ∧ 4095 < ((start 0xD00F).setI 4082).I.toNat + 15 - 1 ∧
    4095 < ((start 0xF033).setI 4094).I.toNat + 2 ∧ 4095 < ((start 0xFF55).setI 4081).I.toNat + (15 : Reg).val ∧
    (withStack (start 0x2200) 16 0 0).SP.val = 16 ∧ (start 0x00EE).SP.val = 0 ∧
    15 < (((start 0xE19E).setReg 1 16).reg 1).toNat := by decide

theorem witness_SelfJumpIsSafeForEver :
    let s : State := { start 0x1200 with phase := .between }
    s.phase = .between ∧ s.inputs = [] ∧ s.run = .active ∧ s.execState = .running ∧ s.pc.toNat ≤ 4094 ∧
    decodeBytes (s.mem.read s.pc.toNat) (s.mem.read (s.pc.toNat + 1)) = .ok (.jp s.pc) := by decide

/-- Between frames, and at the end of a frame's ticks. -/
theorem witness_EveryStepStaysInASelfJump :
    State.InSelfJump { start 0x1200 with phase := .between } ∧ State.InSelfJump { start 0x1200 with phase := .burst 12 } :=
  ⟨⟨by decide, by decide, by decide, by decide, by decide⟩, ⟨by decide, by decide, by decide, by decide, by decide⟩⟩

/-- Two states that differ in `V`, `I` and `pc` only; states between frames and inside one; an instruction that changes the view. -/
theorem witness_HostSeesOnlyItsView :
    let s := start 0x1200
    let t := ((s.setReg 3 7).setI 9).setPc 0x300
    t.phase = s.phase ∧ t.fb = s.fb ∧ t.refreshes = s.refreshes ∧ t.run = s.run ∧ t.loadTruncated = s.loadTruncated ∧
    s.phase = .burst 0 ∧ (idle []).phase = .between ∧ exec .ret s = .next (after (exec .ret s)) ∧
    (after (exec .ret s)).hostView ≠ s.hostView :=
  ⟨rfl, rfl, rfl, rfl, rfl, rfl, rfl, rfl, fun h => absurd (congrArg HostView.run h) (by decide)⟩

end Sys2Proof.Tests
end

/-! Control flow (40_flow.md): the fields of a word given by its number, the frame of each operation the flow instructions use,
what each flow instruction answers, and the obligations of `1nnn`, `2nnn`, `00EE` and the four skips on a comparison. -/

namespace Sys2Proof

/-! ### Decoding a word given by its number (R12, R71, R76) -/

/-- The fields of a word of format NNN. -/
theorem fields_of_nnn {c : Nat} {op nnn : Word} (hn : nnn.toNat < 4096) (h : op.toNat = 4096 * c + nnn.toNat) :
    opClass op = c ∧ fieldNNN op = nnn := by
  refine ⟨?_, BitVec.eq_of_toNat_eq ?_⟩
  · rw [opClass_eq]; omega
  · rw [toNat_fieldNNN]; omega

/-- The fields of a word of format XKK. -/
theorem fields_of_xkk {c : Nat} {op : Word} {x : Reg} {kk : Byte} (h : op.toNat = 4096 * c + 256 * x.val + kk.toNat) :
    opClass op = c ∧ fieldX op = x ∧ fieldKK op = kk := by
  have hx := x.isLt
  have hk := kk.isLt
  refine ⟨?_, Fin.ext ?_, BitVec.eq_of_toNat_eq ?_⟩
  · rw [opClass_eq]; omega
  · rw [val_fieldX]; omega
  · rw [toNat_fieldKK]; omega

/-- The fields of a word of format XY or XYN. -/
theorem fields_of_xyn {c n : Nat} {op : Word} {x y : Reg} (hn : n < 16)
    (h : op.toNat = 4096 * c + 256 * x.val + 16 * y.val + n) :
    opClass op = c ∧ fieldX op = x ∧ fieldY op = y ∧ fieldN op = n := by
  have hx := x.isLt
  have hy := y.isLt
  refine ⟨?_, Fin.ext ?_, Fin.ext ?_, ?_⟩
  · rw [opClass_eq]; omega
  · rw [val_fieldX]; omega
  · rw [val_fieldY]; omega
  · rw [fieldN_eq]; omega

theorem decode_jp {op nnn : Word} (hn : nnn.toNat < 4096) (h : op.toNat = 0x1000 + nnn.toNat) :
    decode op = .ok (.jp nnn) := by
  obtain ⟨hc, hf⟩ := fields_of_nnn (c := 1) hn h
  simp only [decode, hc, hf]

theorem decode_call {op nnn : Word} (hn : nnn.toNat < 4096) (h : op.toNat = 0x2000 + nnn.toNat) :
    decode op = .ok (.call nnn) := by
  obtain ⟨hc, hf⟩ := fields_of_nnn (c := 2) hn h
  simp only [decode, hc, hf]

theorem decode_seImm {op : Word} {x : Reg} {kk : Byte} (h : op.toNat = 0x3000 + 256 * x.val + kk.toNat) :
    decode op = .ok (.seImm x kk) := by
  obtain ⟨hc, hx, hk⟩ := fields_of_xkk (c := 3) h
  simp only [decode, hc, hx, hk]

theorem decode_sneImm {op : Word} {x : Reg} {kk : Byte} (h : op.toNat = 0x4000 + 256 * x.val + kk.toNat) :
    decode op = .ok (.sneImm x kk) := by
  obtain ⟨hc, hx, hk⟩ := fields_of_xkk (c := 4) h
  simp only [decode, hc, hx, hk]

/-- Class 5 is legal with a low nibble of 0 only (R95, R78). -/
theorem decode_class5 {op : Word} {x y : Reg} {n : Nat} (hn : n < 16)
    (h : op.toNat = 0x5000 + 256 * x.val + 16 * y.val + n) :
    decode op = if n = 0 then .ok (.seReg x y) else .error .class5 := by
  obtain ⟨hc, hx, hy, hf⟩ := fields_of_xyn (c := 5) hn h
  simp only [decode, hc, hx, hy, hf]

/-- Class 9 is legal with a low nibble of 0 only (R96, R78). -/
theorem decode_class9 {op : Word} {x y : Reg} {n : Nat} (hn : n < 16)
    (h : op.toNat = 0x9000 + 256 * x.val + 16 * y.val + n) :
    decode op = if n = 0 then .ok (.sneReg x y) else .error .class9 := by
  obtain ⟨hc, hx, hy, hf⟩ := fields_of_xyn (c := 9) hn h
  simp only [decode, hc, hx, hy, hf]

/-- The encoder's word of a call is the word of that number: the opcode of its fault record (R230; log entry 10). -/
theorem encode_call {op nnn : Word} (hn : nnn.toNat < 4096) (h : op.toNat = 0x2000 + nnn.toNat) :
    encode (.call nnn) = op := by
  apply BitVec.eq_of_toNat_eq
  rw [encode, toNat_wordNNN (by decide)]
  omega

end Sys2Proof

namespace Sys2Proof.Machine

/-! ### Frames, composed operation by operation -/

theorem StatePart.same_trans {p : StatePart} {s t u : State} (h : p.same s t) (h' : p.same t u) : p.same s u := by
  cases p
  case memory => exact fun a => (h' a).trans (h a)
  case stack | image => exact ⟨h'.1.trans h.1, h'.2.trans h.2⟩
  case schedule => exact ⟨h'.1.trans h.1, h'.2.1.trans h.2.1, h'.2.2.trans h.2.2⟩
  all_goals exact Eq.trans h' h

theorem SameBut.trans {regs : List Reg} {parts : List StatePart} {s t u : State} (h : SameBut regs parts s t)
    (h' : SameBut regs parts t u) : SameBut regs parts s u :=
  ⟨fun r hr => (h'.1 r hr).trans (h.1 r hr), fun p hp => StatePart.same_trans (h.2 p hp) (h'.2 p hp)⟩

/-- A frame may be stated with more exceptions than it needs. -/
theorem SameBut.mono {regs regs' : List Reg} {parts parts' : List StatePart} {s t : State} (h : SameBut regs parts s t)
    (hr : regs ⊆ regs') (hp : parts ⊆ parts') : SameBut regs' parts' s t :=
  ⟨fun r hn => h.1 r (mt (@hr r) hn), fun p hn => h.2 p (mt (@hp p) hn)⟩

theorem SameBut.of_nil {regs : List Reg} {parts : List StatePart} {s t : State} (h : SameBut [] [] s t) :
    SameBut regs parts s t :=
  h.mono (List.nil_subset _) (List.nil_subset _)

section
variable (s : State)

theorem sameBut_advance : SameBut [] [] s s.advance :=
  ⟨fun _ _ => rfl, fun p _ => by cases p <;> simp [StatePart.same]⟩

theorem sameBut_setPc (v : Word) : SameBut [] [] s (s.setPc v) :=
  ⟨fun _ _ => rfl, fun p _ => by cases p <;> simp [StatePart.same]⟩

theorem sameBut_skipIf (c : Bool) : SameBut [] [] s (s.skipIf c) :=
  ⟨fun r _ => s.reg_skipIf c r, fun p _ => by cases p <;> simp [StatePart.same]⟩

theorem sameBut_push (v : Word) (h : s.SP.val < Config.stackDepth) : SameBut [] [.stack] s (s.push v h) := by
  refine ⟨fun _ _ => rfl, fun p hp => ?_⟩
  cases p
  case stack => exact absurd List.mem_cons_self hp
  all_goals simp [StatePart.same]

theorem sameBut_pop : SameBut [] [.stack] s s.pop := by
  refine ⟨fun _ _ => rfl, fun p hp => ?_⟩
  cases p
  case stack => exact absurd List.mem_cons_self hp
  all_goals simp [StatePart.same]

/-! ### What the flow instructions answer -/

theorem exec_jp (nnn : Word) : exec (.jp nnn) s = .next (s.advance.setPc nnn) := rfl

/-- A call with an entry free pushes the address after itself and jumps (R92). -/
theorem exec_call_of_lt (nnn : Word) (h : s.SP.val < 16) :
    exec (.call nnn) s = .next ((s.advance.push (s.pc + 2) h).setPc nnn) :=
  dif_pos h

theorem exec_call_of_full (nnn : Word) (h : s.SP.val = 16) :
    exec (.call nnn) s = .next (s.raiseAt .stackOverflow (.call nnn)) :=
  dif_neg (Nat.not_lt.2 h.ge)

/-- A return with an entry in use pops it into `pc` (R90). -/
theorem exec_ret_of_pos (h : 0 < s.SP.val) : exec .ret s = .next (s.advance.pop.setPc (s.top h)) :=
  dif_pos h

theorem exec_ret_of_empty (h : s.SP.val = 0) : exec .ret s = .next (s.raiseAt .stackUnderflow .ret) :=
  dif_neg h.not_gt

/-- An instruction's fault record holds its encoder's word (R230; log entry 10). -/
theorem State.raiseAt_eq_faultedAt (c : Cause) (i : Instr) : s.raiseAt c i = s.faultedAt c (encode i) := rfl

/-- The entry a pop reads is the entry at the depth it leaves (R24). -/
theorem State.top_eq_entry (h : 0 < s.SP.val) {j : Fin 16} (hj : j.val = s.SP.val - 1) : s.top h = s.stack[j] := by
  simp [State.top, hj]

/-- `pc` after a tick that may skip: `a + 4` or `a + 2` (R98). -/
theorem State.advance_skipIf_pc (c : Bool) : (s.advance.skipIf c).pc = s.pc + (if c then 4 else 2) := by
  rw [State.skipIf_pc]
  cases c
  · rfl
  · exact BitVec.add_assoc s.pc 2 2

/-- What an instruction that only skips does, when it skips if `P` holds (R98). -/
theorem skip_if_answers (P : Prop) [Decidable P] :
    Answers (.next (s.advance.skipIf (decide P))) fun t =>
      t.pc = s.pc + (if P then 4 else 2) ∧ t.drawFlag = false ∧ SameBut [] [] s t :=
  ⟨_, rfl, by simpa using s.advance_skipIf_pc (decide P), by simp, (sameBut_advance s).trans (sameBut_skipIf _ _)⟩

/-- What an instruction that only skips does, when it skips unless `P` holds (R98). -/
theorem skip_unless_answers (P : Prop) [Decidable P] :
    Answers (.next (s.advance.skipIf (decide (¬P)))) fun t =>
      t.pc = s.pc + (if P then 2 else 4) ∧ t.drawFlag = false ∧ SameBut [] [] s t := by
  simpa only [ite_not] using skip_if_answers s (¬P)

end

/-! ### The obligations -/

/-- Settles O19 (R91). -/
theorem jumpSetsPc : Obligations.JumpSetsPc := fun s nnn _ =>
  ⟨decode_jp, _, exec_jp s nnn, rfl, rfl, (sameBut_advance s).trans (sameBut_setPc _ nnn)⟩

/-- Settles O21: the two classes with a low nibble by `decode_class5` and `decode_class9`, the effects by the skip that the four
instructions share (R93 to R96, R98). -/
theorem skipsOnComparison : Obligations.SkipsOnComparison := by
  intro s x y kk op
  refine ⟨decode_seImm, decode_sneImm, fun h => ?_, fun h => ?_, fun n hpos hlt h => ?_, fun n hpos hlt h => ?_,
    skip_if_answers s _, skip_unless_answers s _, skip_if_answers s _, skip_unless_answers s _⟩
  · exact decode_class5 (n := 0) (by decide) h
  · exact decode_class9 (n := 0) (by decide) h
  · rw [decode_class5 hlt h, if_neg hpos.ne']
  · rw [decode_class9 hlt h, if_neg hpos.ne']

/-- Settles O22 (R92). -/
theorem callPushesReturnAddress : Obligations.CallPushesReturnAddress := by
  intro s nnn op hn hop
  refine ⟨decode_call hn hop, fun hfree => ?_, fun hfull => ?_⟩
  · have hentry := s.advance.push_entry (s.pc + 2) hfree
    have hpush := (sameBut_advance s).of_nil.trans (sameBut_push s.advance (s.pc + 2) hfree)
    exact ⟨_, exec_call_of_lt s nnn hfree, rfl, rfl, fun j hj => (hentry j).trans (if_pos hj),
      fun j hj => (hentry j).trans (if_neg hj), rfl, hpush.trans (sameBut_setPc _ nnn).of_nil⟩
  · rw [exec_call_of_full s nnn hfull, State.raiseAt_eq_faultedAt, encode_call hn hop]

/-- Settles O23 (R90). -/
theorem returnPopsReturnAddress : Obligations.ReturnPopsReturnAddress := by
  intro s
  refine ⟨by decide, fun hpos => ?_, fun hempty => ?_⟩
  · have hpop := (sameBut_advance s).of_nil.trans (sameBut_pop _)
    exact ⟨_, exec_ret_of_pos s hpos, rfl, fun j hj => s.top_eq_entry hpos hj, rfl, rfl,
      hpop.trans (sameBut_setPc _ _).of_nil⟩
  · exact exec_ret_of_empty s hempty

end Sys2Proof.Machine

/-! Register load, arithmetic, logic and shift (41_alu.md): decoding class 8, the frame of each register operation, what a write of
one register and a result with its flag answer, and the obligations of `6xkk`, `7xkk` and `8xy0` to `8xyE`. -/

namespace Sys2Proof

/-! ### Decoding a word given by its number (R12, R71, R75, R76) -/

theorem decode_ldImm {op : Word} {x : Reg} {kk : Byte} (h : op.toNat = 0x6000 + 256 * x.val + kk.toNat) :
    decode op = .ok (.ldImm x kk) := by
  obtain ⟨hc, hx, hk⟩ := fields_of_xkk (c := 6) h
  simp only [decode, hc, hx, hk]

theorem decode_addImm {op : Word} {x : Reg} {kk : Byte} (h : op.toNat = 0x7000 + 256 * x.val + kk.toNat) :
    decode op = .ok (.addImm x kk) := by
  obtain ⟨hc, hx, hk⟩ := fields_of_xkk (c := 7) h
  simp only [decode, hc, hx, hk]

/-- Class 8: a low nibble `n` that the dispatch gives the instruction `f` decodes to `f` of the two registers (R75). -/
theorem decode_class8 (n : Nat) (f : Reg → Reg → Instr) {op : Word} {x y : Reg}
    (h : op.toNat = 0x8000 + n + 256 * x.val + 16 * y.val) (hn : n < 16 := by decide)
    (hf : fieldN op = n → decodeClass8 op = .ok (f (fieldX op) (fieldY op)) := by
      intro hn
      simp only [decodeClass8, hn]) :
    decode op = .ok (f x y) := by
  obtain ⟨hc, hx, hy, hnib⟩ := fields_of_xyn (c := 8) (op := op) (x := x) (y := y) hn (by omega)
  simp only [decode, hc, hf hnib, hx, hy]

end Sys2Proof

namespace Sys2Proof.Machine

/-! ### Arithmetic on bytes -/

/-- The wrapped difference, by whether it borrows (R118, R120). -/
theorem toNat_sub_byte (m b : Byte) :
    (m - b).toNat = if b.toNat ≤ m.toNat then m.toNat - b.toNat else m.toNat + 256 - b.toNat := by
  split
  case isTrue h => exact BitVec.toNat_sub_of_le h
  case isFalse h =>
    rw [BitVec.toNat_sub]
    omega

theorem toNat_byte_shiftRight_one (v : Byte) : (v >>> 1).toNat = v.toNat / 2 :=
  (BitVec.toNat_ushiftRight v 1).trans (Nat.shiftRight_eq_div_pow _ 1)

theorem toNat_byte_shiftLeft_one (v : Byte) : (v <<< 1).toNat = 2 * v.toNat % 256 := by
  rw [BitVec.toNat_shiftLeft, Nat.shiftLeft_eq, Nat.mul_comm]

section
variable (s : State)

/-! ### Frames of the register operations -/

theorem sameBut_setReg (x : Reg) (v : Byte) : SameBut [x] [] s (s.setReg x v) :=
  ⟨fun _ hr => s.reg_setReg_other (List.ne_of_not_mem_cons hr) v, fun p _ => by cases p <;> simp [StatePart.same]⟩

/-- Two writes change at most the two registers written, in whichever order. -/
theorem sameBut_setReg_setReg {regs : List Reg} {a b : Reg} (ha : a ∈ regs) (hb : b ∈ regs) (v w : Byte) :
    SameBut regs [] s ((s.setReg a v).setReg b w) :=
  ((sameBut_setReg s a v).mono (by simpa using ha) (List.Subset.refl _)).trans
    ((sameBut_setReg _ b w).mono (by simpa using hb) (List.Subset.refl _))

theorem sameBut_resultThenFlag (x : Reg) (v f : Byte) : SameBut [x, VF] [] s (s.resultThenFlag x v f) :=
  sameBut_setReg_setReg s (by simp) (by simp) v f

theorem sameBut_logicOp (q : Config.Quirks) (x : Reg) (v : Byte) : SameBut [x, VF] [] s (s.logicOp q x v) := by
  unfold State.logicOp State.logicFlag
  split
  · exact sameBut_setReg_setReg s (by simp) (by simp) v 0
  · exact (sameBut_setReg s x v).mono (by simp) (List.Subset.refl _)

theorem sameBut_shiftRight (q : Config.Quirks) (x y : Reg) : SameBut [x, VF] [] s (s.shiftRight q x y) := by
  unfold State.shiftRight
  split <;> exact sameBut_setReg_setReg s (by simp) (by simp) _ _

theorem sameBut_shiftLeft (q : Config.Quirks) (x y : Reg) : SameBut [x, VF] [] s (s.shiftLeft q x y) := by
  unfold State.shiftLeft
  split <;> exact sameBut_setReg_setReg s (by simp) (by simp) _ _

/-! ### What the register instructions answer -/

/-- An instruction that only writes a value `v` to `Vx`: whatever `Q` says of `v` it says of `Vx` afterwards. -/
theorem setReg_answers (x : Reg) {v : Byte} (Q : Byte → Prop) (h : Q v) :
    Answers (.next (s.advance.setReg x v)) fun t => Q (t.reg x) ∧ Plain s t ∧ SameBut [x] [] s t :=
  ⟨_, rfl, by rwa [State.reg_setReg_same], ⟨rfl, rfl⟩, (sameBut_advance s).of_nil.trans (sameBut_setReg _ x v)⟩

/-- An instruction that writes a result to `Vx`, then a flag to `VF` (R122): `VF` holds the flag, and `Vx` the result unless it is
`VF`. -/
theorem resultThenFlag_answers (x : Reg) (v f : Byte) :
    Answers (.next (s.advance.resultThenFlag x v f)) fun t =>
      (x ≠ VF → t.reg x = v) ∧ t.reg VF = f ∧ Plain s t ∧ SameBut [x, VF] [] s t := by
  refine ⟨_, rfl, fun hx => ?_, ?_, ⟨rfl, rfl⟩, (sameBut_advance s).of_nil.trans (sameBut_resultThenFlag _ x v f)⟩
  · rw [State.reg_resultThenFlag, if_neg hx, if_pos rfl]
  · rw [State.reg_resultThenFlag, if_pos rfl]

/-- What `8xy5` and `8xy7` share: minuend `m`, subtrahend `b` (R118, R120). -/
theorem difference_answers (x : Reg) (m b : Byte) :
    Answers (.next (s.advance.resultThenFlag x (m - b) (noBorrowFlag m b))) fun t =>
      (x ≠ VF → (t.reg x).toNat = if b.toNat ≤ m.toNat then m.toNat - b.toNat else m.toNat + 256 - b.toNat) ∧
      (t.reg VF).toNat = (if b.toNat ≤ m.toNat then 1 else 0) ∧ Plain s t ∧ SameBut [x, VF] [] s t := by
  obtain ⟨t, ht, hresult, hflag, hframe⟩ := resultThenFlag_answers s x (m - b) (noBorrowFlag m b)
  refine ⟨t, ht, fun hx => ?_, ?_, hframe⟩
  · rw [hresult hx, toNat_sub_byte]
  · rw [hflag, toNat_noBorrowFlag]

theorem exec_addReg (x y : Reg) :
    exec (.addReg x y) s = .next (s.advance.resultThenFlag x (s.reg x + s.reg y) (carryFlag (s.reg x) (s.reg y))) := rfl

theorem exec_shrReg (x y : Reg) : exec (.shrReg x y) s = .next (s.advance.shiftRight quirks x y) := rfl

theorem exec_shlReg (x y : Reg) : exec (.shlReg x y) s = .next (s.advance.shiftLeft quirks x y) := rfl

/-! ### The registers after a shift, for this hardware and under `QUIRK_SHIFT_USES_VY` (R119, R121) -/

/-- This hardware writes `VF` first, so with `x = F` the flag is what is shifted. -/
theorem State.reg_shiftRight_default (x y : Reg) :
    (s.shiftRight quirks x y).reg x = (if x = VF then shrFlag (s.reg x) else s.reg x) >>> 1 ∧
    (x ≠ VF → (s.shiftRight quirks x y).reg VF = shrFlag (s.reg x)) := by
  refine ⟨?_, fun hx => ?_⟩
  · rw [State.reg_shiftRight, if_neg (by decide), if_pos rfl]
  · rw [State.reg_shiftRight, if_neg (by decide), if_neg hx.symm, if_pos rfl]

theorem State.reg_shiftRight_usesVy {q : Config.Quirks} (hq : q.shiftUsesVy = true) (x y : Reg) :
    (s.shiftRight q x y).reg x = s.reg y >>> 1 ∧ (x ≠ VF → (s.shiftRight q x y).reg VF = shrFlag (s.reg y)) := by
  refine ⟨?_, fun hx => ?_⟩
  · rw [State.reg_shiftRight, if_pos hq, if_pos rfl]
  · rw [State.reg_shiftRight, if_pos hq, if_neg hx.symm, if_pos rfl]

/-- This hardware writes `VF` first, so with `x = F` the flag is what is shifted. -/
theorem State.reg_shiftLeft_default (x y : Reg) :
    (s.shiftLeft quirks x y).reg x = (if x = VF then shlFlag (s.reg x) else s.reg x) <<< 1 ∧
    (x ≠ VF → (s.shiftLeft quirks x y).reg VF = shlFlag (s.reg x)) := by
  refine ⟨?_, fun hx => ?_⟩
  · rw [State.reg_shiftLeft, if_neg (by decide), if_pos rfl]
  · rw [State.reg_shiftLeft, if_neg (by decide), if_neg hx.symm, if_pos rfl]

theorem State.reg_shiftLeft_usesVy {q : Config.Quirks} (hq : q.shiftUsesVy = true) (x y : Reg) :
    (s.shiftLeft q x y).reg x = s.reg y <<< 1 ∧ (x ≠ VF → (s.shiftLeft q x y).reg VF = shlFlag (s.reg y)) := by
  refine ⟨?_, fun hx => ?_⟩
  · rw [State.reg_shiftLeft, if_pos hq, if_pos rfl]
  · rw [State.reg_shiftLeft, if_pos hq, if_neg hx.symm, if_pos rfl]

end

/-! ### The obligations -/

/-- Settles O11: the three instructions write one register and nothing else (R110, R111, R113). -/
theorem loadAddAndMoveRegisters : Obligations.LoadAddAndMoveRegisters := fun s x y kk _ =>
  ⟨decode_ldImm, decode_addImm, decode_class8 0 .ldReg, setReg_answers s x (· = kk) rfl,
    setReg_answers s x (fun r => r.toNat = ((s.reg x).toNat + kk.toNat) % 256) (BitVec.toNat_add _ _),
    setReg_answers s x (· = s.reg y) rfl⟩

/-- Settles O12: with the quirk off the shared operation writes `Vx` only; under it `VF` is reset after the result (R114, R115,
R116). -/
theorem logicIsBitwise : Obligations.LogicIsBitwise := by
  intro s x y op
  refine ⟨decode_class8 1 .orReg, decode_class8 2 .andReg, decode_class8 3 .xorReg,
    setReg_answers s x (fun r => ∀ b, r.getLsbD b = ((s.reg x).getLsbD b || (s.reg y).getLsbD b)) fun _ => BitVec.getLsbD_or,
    setReg_answers s x (fun r => ∀ b, r.getLsbD b = ((s.reg x).getLsbD b && (s.reg y).getLsbD b)) fun _ => BitVec.getLsbD_and,
    setReg_answers s x (fun r => ∀ b, r.getLsbD b = ((s.reg x).getLsbD b ^^ (s.reg y).getLsbD b)) fun _ => BitVec.getLsbD_xor,
    fun q v hq => ⟨?_, fun hx => ?_, sameBut_logicOp s q x v⟩⟩
  · rw [State.reg_logicOp, if_pos ⟨hq, rfl⟩]
  · rw [State.reg_logicOp, if_neg fun h => hx h.2, if_pos rfl]

/-- Settles O13 (R117). -/
theorem addRegistersWithCarry : Obligations.AddRegistersWithCarry := by
  intro s x y op
  obtain ⟨t, ht, hsum, hcarry, hframe⟩ := resultThenFlag_answers s x (s.reg x + s.reg y) (carryFlag (s.reg x) (s.reg y))
  refine ⟨decode_class8 4 .addReg, t, (exec_addReg s x y).trans ht, fun hx => ?_, ?_, hframe⟩
  · rw [hsum hx]
    exact BitVec.toNat_add _ _
  · rw [hcarry, toNat_carryFlag]

/-- Settles O14: both instructions are the shared difference, with the minuend `Vx` in the one and `Vy` in the other (R118, R120). -/
theorem subtractWithNoBorrow : Obligations.SubtractWithNoBorrow := fun s x y _ =>
  ⟨decode_class8 5 .subReg, decode_class8 7 .subnReg, difference_answers s x (s.reg x) (s.reg y),
    difference_answers s x (s.reg y) (s.reg x)⟩

/-- Settles O15 (R119). -/
theorem shiftRightByOne : Obligations.ShiftRightByOne := by
  intro s x y op
  obtain ⟨hvalue, hflag⟩ := s.advance.reg_shiftRight_default x y
  have hframe := (sameBut_advance s).of_nil.trans (sameBut_shiftRight s.advance quirks x y)
  refine ⟨decode_class8 6 .shrReg, ⟨_, exec_shrReg s x y, ?_, fun hx => ?_, ⟨rfl, rfl⟩, hframe⟩, fun q hq => ?_⟩
  · rw [hvalue, toNat_byte_shiftRight_one]
    split
    · rw [toNat_shrFlag]
      omega
    · rfl
  · rw [hflag hx, toNat_shrFlag, State.reg_advance]
  · obtain ⟨hvalue, hflag⟩ := s.reg_shiftRight_usesVy hq x y
    refine ⟨?_, fun hx => ?_, sameBut_shiftRight s q x y⟩
    · rw [hvalue, toNat_byte_shiftRight_one]
    · rw [hflag hx, toNat_shrFlag]

/-- Settles O16 (R121). -/
theorem shiftLeftByOne : Obligations.ShiftLeftByOne := by
  intro s x y op
  obtain ⟨hvalue, hflag⟩ := s.advance.reg_shiftLeft_default x y
  have hframe := (sameBut_advance s).of_nil.trans (sameBut_shiftLeft s.advance quirks x y)
  refine ⟨decode_class8 14 .shlReg, ⟨_, exec_shlReg s x y, ?_, fun hx => ?_, ⟨rfl, rfl⟩, hframe⟩, fun q hq => ?_⟩
  · rw [hvalue, toNat_byte_shiftLeft_one]
    split
    · rw [toNat_shlFlag, State.reg_advance]
      omega
    · rfl
  · rw [hflag hx, toNat_shlFlag, State.reg_advance]
  · obtain ⟨hvalue, hflag⟩ := s.reg_shiftLeft_usesVy hq x y
    refine ⟨?_, fun hx => ?_, sameBut_shiftLeft s q x y⟩
    · rw [hvalue, toNat_byte_shiftLeft_one]
    · rw [hflag hx, toNat_shlFlag]

end Sys2Proof.Machine

/-! Address register (42_index_memory.md): decoding `Annn`, the frame of a write of `I`, what `Annn` answers, and its obligation. -/

namespace Sys2Proof

theorem decode_ldI {op nnn : Word} (hn : nnn.toNat < 4096) (h : op.toNat = 0xA000 + nnn.toNat) :
    decode op = .ok (.ldI nnn) := by
  obtain ⟨hc, hf⟩ := fields_of_nnn (c := 10) hn h
  simp only [decode, hc, hf]

end Sys2Proof

namespace Sys2Proof.Machine

theorem sameBut_setI (s : State) (v : Word) : SameBut [] [.index] s (s.setI v) := by
  refine ⟨fun _ _ => rfl, fun p hp => ?_⟩
  cases p
  case index => exact absurd List.mem_cons_self hp
  all_goals simp [StatePart.same]

theorem exec_ldI (s : State) (nnn : Word) : exec (.ldI nnn) s = .next (s.advance.setI nnn) := rfl

/-- Settles O25: `pc` advances and then `I` is written, so the frame is that of the two operations (R130). -/
theorem loadIndexRegister : Obligations.LoadIndexRegister := fun s nnn _ =>
  ⟨decode_ldI, _, exec_ldI s nnn, rfl, ⟨rfl, rfl⟩, (sameBut_advance s).of_nil.trans (sameBut_setI _ nnn)⟩

end Sys2Proof.Machine

/-! Framebuffer (43_display.md): the frames of replacing the grid and of marking draw, the end of the burst by a draw, and the
obligation of `00E0`. -/

namespace Sys2Proof.Machine

section
variable (s : State)

theorem sameBut_setFb (f : Screen) : SameBut [] [.screen] s (s.setFb f) := by
  refine ⟨fun _ _ => rfl, fun p hp => ?_⟩
  cases p
  case screen => exact absurd List.mem_cons_self hp
  all_goals simp [StatePart.same]

theorem sameBut_markDraw : SameBut [] [] s s.markDraw :=
  ⟨fun _ _ => rfl, fun p _ => by cases p <;> simp [StatePart.same]⟩

theorem exec_cls : exec .cls s = .next (s.advance.setFb Screen.blank).markDraw := rfl

end

/-- After a tick that marked draw the burst goes no further (R192, R196). -/
theorem State.burstGoesOn_eq_false_of_drawFlag {s : State} (h : s.drawFlag = true) (count : Nat) :
    s.burstGoesOn count = false := by
  refine Bool.eq_false_iff.2 fun hgo => ?_
  obtain ⟨_, _, hclear⟩ := burstGoesOn_iff.1 hgo
  exact absurd h (Bool.eq_false_iff.1 hclear)

/-- Settles O32: `pc` advances, the grid becomes the blank one and draw is marked, so the frame is that of the three operations
(R151, R152). -/
theorem clearUnlightsEveryPixel : Obligations.ClearUnlightsEveryPixel := by
  intro s
  have hframe := (sameBut_advance s).of_nil.trans (sameBut_setFb s.advance Screen.blank)
  exact ⟨by decide, _, exec_cls s, fun row col _ _ => Screen.pixel_blank row col, rfl,
    State.burstGoesOn_eq_false_of_drawFlag rfl, rfl, hframe.trans (sameBut_markDraw _).of_nil⟩

end Sys2Proof.Machine

/-! Keypad events (44_keypad_timers.md section 1): the frames of the operations a `KEY` event uses, its two effects on an `Active`
machine, and its obligation. -/

namespace Sys2Proof.Machine

section
variable (s : State)

/-! ### Frames -/

theorem sameBut_setKey (k : Key) (pressed : Bool) : SameBut [] [.keypad] s (s.setKey k pressed) := by
  refine ⟨fun _ _ => rfl, fun p hp => ?_⟩
  cases p
  case keypad => exact absurd List.mem_cons_self hp
  all_goals simp [StatePart.same]

theorem sameBut_setExec (e : ExecState) : SameBut [] [.execution] s (s.setExec e) := by
  refine ⟨fun _ _ => rfl, fun p hp => ?_⟩
  cases p
  case execution => exact absurd List.mem_cons_self hp
  all_goals simp [StatePart.same]

/-- Taking an input off the list touches the scheduling fields alone (R7). -/
theorem sameBut_takeInput (rest : List Event) : SameBut [] [.schedule] s { s with inputs := rest } := by
  refine ⟨fun _ _ => rfl, fun p hp => ?_⟩
  cases p
  case schedule => exact absurd List.mem_cons_self hp
  all_goals simp [StatePart.same]

end

/-! ### What a key event does to an `Active` machine (R182) -/

theorem toNat_keyByte (k : Key) : (keyByte k).toNat = k.val := Nat.mod_eq_of_lt (by omega)

/-- The event ends a wait, or it leaves the execution state as it is. -/
theorem release_or_running_or_press (s : State) (pressed : Bool) :
    (∃ r, s.execState = .waitingForKey r ∧ pressed = false) ∨ (s.execState = .running ∨ pressed = true) := by
  cases h : s.execState with
  | running => exact .inr (.inl rfl)
  | waitingForKey r =>
    cases pressed
    · exact .inl ⟨r, rfl, rfl⟩
    · exact .inr (.inr rfl)

section
variable {s : State} (k : Key)

theorem handleKey_of_release {r : Reg} (h : s.execState = .waitingForKey r) :
    s.handleKey k false = ((s.setKey k false).setReg r (keyByte k)).setExec .running := by
  simp only [State.handleKey, h]

theorem handleKey_of_running_or_press {pressed : Bool} (h : s.execState = .running ∨ pressed = true) :
    s.handleKey k pressed = s.setKey k pressed := by
  obtain hrun | rfl := h
  · simp only [State.handleKey, hrun]
  · cases hexec : s.execState <;> simp only [State.handleKey, hexec]

theorem key_handleKey (pressed : Bool) (j : Key) :
    (s.handleKey k pressed).key j = if j = k then pressed else s.key j := by
  obtain ⟨r, hwait, rfl⟩ | hkeep := release_or_running_or_press s pressed
  · rw [handleKey_of_release k hwait]
    exact s.key_setKey k j false
  · rw [handleKey_of_running_or_press k hkeep]
    exact s.key_setKey k j pressed

theorem same_handleKey (pressed : Bool) {p : StatePart} (hkeypad : p ≠ .keypad) (hexec : p ≠ .execution) :
    p.same s (s.handleKey k pressed) := by
  have hset : p.same s (s.setKey k pressed) := (sameBut_setKey s k pressed).2 p (by simpa using hkeypad)
  obtain ⟨r, hwait, rfl⟩ | hkeep := release_or_running_or_press s pressed
  · rw [handleKey_of_release k hwait]
    have hreg := (sameBut_setReg (s.setKey k false) r (keyByte k)).2 p List.not_mem_nil
    exact StatePart.same_trans (StatePart.same_trans hset hreg) ((sameBut_setExec _ .running).2 p (by simpa using hexec))
  · rwa [handleKey_of_running_or_press k hkeep]

theorem step_key_of_active {pressed : Bool} {rest : List Event} (hphase : s.phase = .between)
    (hinputs : s.inputs = .key k pressed :: rest) (hrun : s.run = .active) :
    step s = .next (State.handleKey { s with inputs := rest } k pressed) := by
  rw [step_event hphase hinputs]
  simp only [onEvent, onKey, hrun]

end

/-! ### The obligation -/

/-- Settles O40: the step is the key event on the state with this input taken, so its frame is that of the two; a release while
waiting and every other event are the two equations of the key event (R182). -/
theorem keyEventUpdatesKeypadAndEndsWait : Obligations.KeyEventUpdatesKeypadAndEndsWait := by
  intro s k pressed rest hphase hinputs hrun
  obtain ⟨-, hpc, -, -, -, hdraw, -, -⟩ := handleKey_keeps { s with inputs := rest } k pressed
  obtain ⟨hphase', hinputs', hrefreshes⟩ :=
    same_handleKey (s := { s with inputs := rest }) k pressed (p := .schedule) (by decide) (by decide)
  refine ⟨_, step_key_of_active k hphase hinputs hrun, (key_handleKey k pressed k).trans (if_pos rfl),
    fun j hj => (key_handleKey k pressed j).trans (if_neg hj), ?release, ?keep,
    hpc, hdraw, hinputs', hphase'.trans hphase, hrefreshes, ?frame⟩
  case release =>
    rintro r hwait rfl
    rw [handleKey_of_release (s := { s with inputs := rest }) k hwait]
    exact ⟨by simpa using toNat_keyByte k, rfl, fun r' hr' => State.reg_setReg_other _ hr' _⟩
  case keep =>
    intro hkeep
    rw [handleKey_of_running_or_press (s := { s with inputs := rest }) k hkeep]
    exact ⟨rfl, fun _ => rfl⟩
  case frame =>
    intro p hkeypad hexec hschedule
    exact StatePart.same_trans ((sameBut_takeInput s rest).2 p (by simpa using hschedule))
      (same_handleKey k pressed hkeypad hexec)

end Sys2Proof.Machine

/-! Protocol violations (45_scheduler_host.md): the events R204 forbids, the two it does not, and the obligation. -/

namespace Sys2Proof.Machine

section
variable {s : State}

theorem onStart_of_active (h : s.run = .active) : onStart s = protocolViolation s := by simp only [onStart, h]

theorem onStop_of_powerOn (h : s.run = .powerOn) : onStop s = protocolViolation s := by simp only [onStop, h]

theorem onKey_of_powerOn (k : Key) (pressed : Bool) (h : s.run = .powerOn) : onKey k pressed s = protocolViolation s := by
  simp only [onKey, h]

theorem onFrame_of_powerOn (h : s.run = .powerOn) : onFrame s = s := if_neg (by simp [h])

theorem onEvent_frame_of_powerOn (h : s.run = .powerOn) : onEvent .frame s = .next s := congrArg _ (onFrame_of_powerOn h)

theorem onEvent_first_load (rom : List Byte) (hpowerOn : s.run = .powerOn) (hloaded : s.loaded = false) :
    onEvent (.load rom) s = .next (s.loadImage fontSet rom) := onLoad_legal rom hpowerOn hloaded

/-- The events R204 names, each in the lifecycle state where it is forbidden, have the one effect of a violation. -/
theorem onEvent_of_violation {e : Event}
    (h : (s.run = .active ∧ e = .start) ∨ (s.run = .powerOn ∧ (e = .stop ∨ ∃ k pressed, e = .key k pressed))) :
    onEvent e s = .next (protocolViolation s) := by
  obtain ⟨hactive, rfl⟩ | ⟨hpowerOn, rfl | ⟨k, pressed, rfl⟩⟩ := h
  · exact congrArg _ (onStart_of_active hactive)
  · exact congrArg _ (onStop_of_powerOn hpowerOn)
  · exact congrArg _ (onKey_of_powerOn k pressed hpowerOn)

end

/-- Settles O46: the step is the event's effect on the state with this input taken, whose `run` is the same: a violation's fault, no
effect of a frame boundary in `PowerOn`, or the legal first `LOAD`, which does not touch `run` (R204, R201). -/
theorem protocolViolationsAreFatal : Obligations.ProtocolViolationsAreFatal := by
  intro s e rest hphase hinputs
  rw [step_event hphase hinputs]
  refine ⟨?violation, ?frame, ?load⟩
  case violation => exact fun h => onEvent_of_violation h
  case frame =>
    rintro hpowerOn rfl
    exact onEvent_frame_of_powerOn hpowerOn
  case load =>
    rintro rom hpowerOn hloaded rfl
    exact ⟨_, onEvent_first_load rom hpowerOn hloaded, (State.loadImage_run _ fontSet rom).trans hpowerOn⟩

end Sys2Proof.Machine

/-! Encoding (30_encoding.md): the decoder's answer on every word the encoder builds, the encoder's word of every instruction the
decoder answers, the illegal words of each class, the rows of R76 a word can match, and the obligations of the opcode table. -/

namespace Sys2Proof

/-! ### Decoding the remaining formats of a word given by its number (R12, R71, R75) -/

/-- The fields of a word of format X with its sub-opcode byte. -/
theorem fields_of_x {c sub : Nat} {op : Word} {x : Reg} (hs : sub < 256) (h : op.toNat = 4096 * c + 256 * x.val + sub) :
    opClass op = c ∧ fieldX op = x ∧ bits op 7 0 = sub := by
  have hx := x.isLt
  refine ⟨?_, Fin.ext ?_, ?_⟩
  · rw [opClass_eq]; omega
  · rw [val_fieldX]; omega
  · simp only [bits]; omega

theorem decode_jpV0 {op nnn : Word} (hn : nnn.toNat < 4096) (h : op.toNat = 0xB000 + nnn.toNat) :
    decode op = .ok (.jpV0 nnn) := by
  obtain ⟨hc, hf⟩ := fields_of_nnn (c := 11) hn h
  simp only [decode, hc, hf]

theorem decode_rnd {op : Word} {x : Reg} {kk : Byte} (h : op.toNat = 0xC000 + 256 * x.val + kk.toNat) :
    decode op = .ok (.rnd x kk) := by
  obtain ⟨hc, hx, hk⟩ := fields_of_xkk (c := 12) h
  simp only [decode, hc, hx, hk]

theorem decode_drw {op : Word} {x y : Reg} {n : Nat} (hn : n < 16) (h : op.toNat = 0xD000 + 256 * x.val + 16 * y.val + n) :
    decode op = .ok (.drw x y n) := by
  obtain ⟨hc, hx, hy, hf⟩ := fields_of_xyn (c := 13) hn h
  simp only [decode, hc, hx, hy, hf]

/-- Class E: a sub-opcode byte that the dispatch gives the instruction `f` decodes to `f` of the register (R75). -/
theorem decode_classE (sub : Nat) (f : Reg → Instr) {op : Word} {x : Reg} (h : op.toNat = 0xE000 + sub + 256 * x.val)
    (hs : sub < 256 := by decide)
    (hf : bits op 7 0 = sub → decodeClassE op = .ok (f (fieldX op)) := by
      intro hs
      simp only [decodeClassE, hs]) :
    decode op = .ok (f x) := by
  obtain ⟨hc, hx, hb⟩ := fields_of_x (c := 14) (op := op) (x := x) hs (by omega)
  simp only [decode, hc, hf hb, hx]

/-- Class F, in the manner of class E (R75). -/
theorem decode_classF (sub : Nat) (f : Reg → Instr) {op : Word} {x : Reg} (h : op.toNat = 0xF000 + sub + 256 * x.val)
    (hs : sub < 256 := by decide)
    (hf : bits op 7 0 = sub → decodeClassF op = .ok (f (fieldX op)) := by
      intro hs
      simp only [decodeClassF, hs]) :
    decode op = .ok (f x) := by
  obtain ⟨hc, hx, hb⟩ := fields_of_x (c := 15) (op := op) (x := x) hs (by omega)
  simp only [decode, hc, hf hb, hx]

/-! ### The word of each format by its number, in the form the decoding lemmas take -/

theorem toNat_wordNNN_of_wf {c : Nat} (hc : c < 16) {nnn : Word} (hn : decide (nnn.toNat < 4096) = true) :
    (wordNNN c nnn).toNat = c * 4096 + nnn.toNat := by
  rw [toNat_wordNNN hc, Nat.mod_eq_of_lt (of_decide_eq_true hn)]

theorem toNat_wordXKK_comm {c : Nat} (hc : c < 16) (x : Reg) (kk : Byte) :
    (wordXKK c x kk).toNat = c * 4096 + 256 * x.val + kk.toNat := by
  rw [toNat_wordXKK hc, Nat.mul_comm 256]

theorem toNat_wordXYN_of_lt {c n : Nat} (hc : c < 16) (hn : n < 16) (x y : Reg) :
    (wordXYN c x y n).toNat = c * 4096 + n + 256 * x.val + 16 * y.val := by
  rw [toNat_wordXYN hc]
  omega

theorem toNat_wordX_comm {c sub : Nat} (hc : c < 16) (hs : sub < 256) (x : Reg) :
    (wordX c x sub).toNat = c * 4096 + sub + 256 * x.val := by
  rw [toNat_wordX hc hs]
  omega

/-- Settles O1, row by row of R76: the word of each format by its number, then the decoder on that number. -/
theorem decodeInvertsEncode : Obligations.DecodeInvertsEncode := by
  intro i hi
  cases i
  case cls | ret => decide
  case jp nnn => exact decode_jp (of_decide_eq_true hi) (toNat_wordNNN_of_wf (by decide) hi)
  case call nnn => exact decode_call (of_decide_eq_true hi) (toNat_wordNNN_of_wf (by decide) hi)
  case ldI nnn => exact decode_ldI (of_decide_eq_true hi) (toNat_wordNNN_of_wf (by decide) hi)
  case jpV0 nnn => exact decode_jpV0 (of_decide_eq_true hi) (toNat_wordNNN_of_wf (by decide) hi)
  case seImm x kk => exact decode_seImm (toNat_wordXKK_comm (by decide) x kk)
  case sneImm x kk => exact decode_sneImm (toNat_wordXKK_comm (by decide) x kk)
  case ldImm x kk => exact decode_ldImm (toNat_wordXKK_comm (by decide) x kk)
  case addImm x kk => exact decode_addImm (toNat_wordXKK_comm (by decide) x kk)
  case rnd x kk => exact decode_rnd (toNat_wordXKK_comm (by decide) x kk)
  case seReg x y => exact decode_class5 (n := 0) (by decide) (toNat_wordXYN_of_lt (by decide) (by decide) x y)
  case sneReg x y => exact decode_class9 (n := 0) (by decide) (toNat_wordXYN_of_lt (by decide) (by decide) x y)
  case drw x y n =>
    have hn : n < 16 := of_decide_eq_true hi
    exact decode_drw hn ((toNat_wordXYN_of_lt (by decide) hn x y).trans (by omega))
  case ldReg x y => exact decode_class8 0x0 .ldReg (toNat_wordXYN_of_lt (by decide) (by decide) x y)
  case orReg x y => exact decode_class8 0x1 .orReg (toNat_wordXYN_of_lt (by decide) (by decide) x y)
  case andReg x y => exact decode_class8 0x2 .andReg (toNat_wordXYN_of_lt (by decide) (by decide) x y)
  case xorReg x y => exact decode_class8 0x3 .xorReg (toNat_wordXYN_of_lt (by decide) (by decide) x y)
  case addReg x y => exact decode_class8 0x4 .addReg (toNat_wordXYN_of_lt (by decide) (by decide) x y)
  case subReg x y => exact decode_class8 0x5 .subReg (toNat_wordXYN_of_lt (by decide) (by decide) x y)
  case shrReg x y => exact decode_class8 0x6 .shrReg (toNat_wordXYN_of_lt (by decide) (by decide) x y)
  case subnReg x y => exact decode_class8 0x7 .subnReg (toNat_wordXYN_of_lt (by decide) (by decide) x y)
  case shlReg x y => exact decode_class8 0xE .shlReg (toNat_wordXYN_of_lt (by decide) (by decide) x y)
  case skp x => exact decode_classE 0x9E .skp (toNat_wordX_comm (by decide) (by decide) x)
  case sknp x => exact decode_classE 0xA1 .sknp (toNat_wordX_comm (by decide) (by decide) x)
  case ldVxDT x => exact decode_classF 0x07 .ldVxDT (toNat_wordX_comm (by decide) (by decide) x)
  case ldVxK x => exact decode_classF 0x0A .ldVxK (toNat_wordX_comm (by decide) (by decide) x)
  case ldDTVx x => exact decode_classF 0x15 .ldDTVx (toNat_wordX_comm (by decide) (by decide) x)
  case ldSTVx x => exact decode_classF 0x18 .ldSTVx (toNat_wordX_comm (by decide) (by decide) x)
  case addI x => exact decode_classF 0x1E .addI (toNat_wordX_comm (by decide) (by decide) x)
  case ldF x => exact decode_classF 0x29 .ldF (toNat_wordX_comm (by decide) (by decide) x)
  case ldB x => exact decode_classF 0x33 .ldB (toNat_wordX_comm (by decide) (by decide) x)
  case storeRegs x => exact decode_classF 0x55 .storeRegs (toNat_wordX_comm (by decide) (by decide) x)
  case loadRegs x => exact decode_classF 0x65 .loadRegs (toNat_wordX_comm (by decide) (by decide) x)

/-! ### The encoder's word of what the decoder answered -/

theorem wordNNN_fields {c : Nat} {op : Word} (hc : opClass op = c) : wordNNN c (fieldNNN op) = op := by
  subst hc
  apply BitVec.eq_of_toNat_eq
  rw [toNat_wordNNN (opClass_lt op), toNat_fieldNNN, opClass_eq]
  omega

theorem wordXKK_fields {c : Nat} {op : Word} (hc : opClass op = c) : wordXKK c (fieldX op) (fieldKK op) = op := by
  subst hc
  apply BitVec.eq_of_toNat_eq
  rw [toNat_wordXKK (opClass_lt op), val_fieldX, toNat_fieldKK, opClass_eq]
  omega

theorem wordXYN_fields {c n : Nat} {op : Word} (hc : opClass op = c) (hn : fieldN op = n) :
    wordXYN c (fieldX op) (fieldY op) n = op := by
  subst hc hn
  apply BitVec.eq_of_toNat_eq
  rw [toNat_wordXYN (opClass_lt op), val_fieldX, val_fieldY, fieldN_eq, opClass_eq]
  omega

theorem wordX_fields {c sub : Nat} {op : Word} (hc : opClass op = c) (hs : bits op 7 0 = sub) :
    wordX c (fieldX op) sub = op := by
  subst hc hs
  have hlow : bits op 7 0 < 256 := Nat.mod_lt _ (by decide)
  apply BitVec.eq_of_toNat_eq
  rw [toNat_wordX (opClass_lt op) hlow, val_fieldX, opClass_eq]
  simp only [bits]
  omega

/-- A word of class 0 is its field `nnn`. -/
theorem eq_of_class0 {c : Nat} {op : Word} (hc : opClass op = 0) (h : bits op 11 0 = c) : BitVec.ofNat 16 c = op := by
  have hlt := op.isLt
  rw [opClass_eq] at hc
  simp only [bits] at h
  apply BitVec.eq_of_toNat_eq
  rw [BitVec.toNat_ofNat]
  omega

theorem encode_of_decodeClass0 {op : Word} {i : Instr} (hc : opClass op = 0) (h : decodeClass0 op = .ok i) :
    encode i = op := by
  unfold decodeClass0 at h
  split at h <;> cases h
  all_goals exact eq_of_class0 hc ‹_›

theorem encode_of_decodeClass8 {op : Word} {i : Instr} (hc : opClass op = 8) (h : decodeClass8 op = .ok i) :
    encode i = op := by
  unfold decodeClass8 at h
  split at h <;> cases h
  all_goals exact wordXYN_fields hc ‹_›

theorem encode_of_decodeClassE {op : Word} {i : Instr} (hc : opClass op = 14) (h : decodeClassE op = .ok i) :
    encode i = op := by
  unfold decodeClassE at h
  split at h <;> cases h
  all_goals exact wordX_fields hc ‹_›

theorem encode_of_decodeClassF {op : Word} {i : Instr} (hc : opClass op = 15) (h : decodeClassF op = .ok i) :
    encode i = op := by
  unfold decodeClassF at h
  split at h <;> cases h
  all_goals exact wordX_fields hc ‹_›

/-- Settles O2, arm by arm of `decode`: the fields put back at their places are the word. -/
theorem encodeInvertsDecode : Obligations.EncodeInvertsDecode := by
  intro op i h
  unfold decode at h
  split at h
  case h_1 hc => exact encode_of_decodeClass0 hc h
  case h_9 hc => exact encode_of_decodeClass8 hc h
  case h_15 hc => exact encode_of_decodeClassE hc h
  case h_16 =>
    have hlt := opClass_lt op
    simp only [imp_false] at *
    have hc : opClass op = 15 := by omega
    exact encode_of_decodeClassF hc h
  case h_2 hc | h_3 hc | h_11 hc | h_12 hc => cases h; exact wordNNN_fields hc
  case h_4 hc | h_5 hc | h_7 hc | h_8 hc | h_13 hc => cases h; exact wordXKK_fields hc
  case h_14 hc => cases h; exact wordXYN_fields hc rfl
  case h_6 hc | h_10 hc =>
    split at h <;> cases h
    exact wordXYN_fields hc ‹_›

/-! ### The illegal words (R78, R79) -/

theorem decodeClass0_eq_error {op : Word} {e : Illegal} (hc : op.toNat / 4096 = 0) :
    decodeClass0 op = .error e ↔ e = .class0 ∧ op ≠ 0x00E0 ∧ op ≠ 0x00EE := by
  have hbits : bits op 11 0 = op.toNat := by
    simp only [bits]
    omega
  have hword : ∀ c : Word, op = c ↔ op.toNat = c.toNat := fun _ => BitVec.toNat_inj.symm
  unfold decodeClass0
  rw [hbits]
  simp only [ne_eq, hword]
  split
  case h_1 h | h_2 h => simp [h]
  case h_3 =>
    simp only [imp_false] at *
    simp [*, eq_comm (a := e)]

theorem decodeClass8_eq_error {op : Word} {e : Illegal} :
    decodeClass8 op = .error e ↔ e = .class8 ∧ op.toNat % 16 ∈ [0x8, 0x9, 0xA, 0xB, 0xC, 0xD, 0xF] := by
  have hlt : op.toNat % 16 < 16 := Nat.mod_lt _ (by decide)
  unfold decodeClass8
  rw [fieldN_eq]
  generalize op.toNat % 16 = n at hlt ⊢
  interval_cases n <;> simp [eq_comm]

theorem decodeClassE_eq_error {op : Word} {e : Illegal} :
    decodeClassE op = .error e ↔ e = .classE ∧ op.toNat % 256 ∉ [0x9E, 0xA1] := by
  have hbits : bits op 7 0 = op.toNat % 256 := by simp only [bits]; omega
  unfold decodeClassE
  rw [hbits]
  split
  case h_1 h | h_2 h => simp [h]
  case h_3 =>
    simp only [imp_false] at *
    simp [*, eq_comm (a := e)]

theorem decodeClassF_eq_error {op : Word} {e : Illegal} :
    decodeClassF op = .error e ↔
      e = .classF ∧ op.toNat % 256 ∉ [0x07, 0x0A, 0x15, 0x18, 0x1E, 0x29, 0x33, 0x55, 0x65] := by
  have hbits : bits op 7 0 = op.toNat % 256 := by simp only [bits]; omega
  unfold decodeClassF
  rw [hbits]
  split
  case h_10 =>
    simp only [imp_false] at *
    simp [*, eq_comm (a := e)]
  all_goals simp [*]

/-- Settles O4, class by class: the six classes with illegal words by their own dispatch, the others by none. -/
theorem illegalWordsByClass : Obligations.IllegalWordsByClass := by
  intro op e
  have hlt : op.toNat / 4096 < 16 := by have := op.isLt; omega
  unfold decode
  rw [opClass_eq, fieldN_eq]
  generalize hc : op.toNat / 4096 = c at hlt
  match c, hc, hlt with
  | 0, hc, _ => simp [decodeClass0_eq_error hc]
  | 5, _, _ | 9, _, _ => by_cases hn : op.toNat % 16 = 0 <;> simp [hn, eq_comm]
  | 8, _, _ => simp [decodeClass8_eq_error]
  | 14, _, _ => simp [decodeClassE_eq_error]
  | 15, _, _ => simp [decodeClassF_eq_error]
  | 1, _, _ | 2, _, _ | 3, _, _ | 4, _, _ | 6, _, _ | 7, _, _ | 10, _, _ | 11, _, _ | 12, _, _ | 13, _, _ => simp
  | c + 16, _, hlt => omega

/-! ### The rows of the opcode table (R74, R76) -/

/-- What a row fixes of a word: all of it in class 0, the class alone, the class and the low nibble, or the class and the low byte. -/
theorem opcodeTable_masks :
    ∀ r ∈ opcodeTable,
      (r.mask = 0xFFFF ∧ (r.pattern = 0x00E0 ∨ r.pattern = 0x00EE)) ∨
      (r.mask = 0xF000 ∧ r.pattern.toNat ∈
        [0x1000, 0x2000, 0x3000, 0x4000, 0x6000, 0x7000, 0xA000, 0xB000, 0xC000, 0xD000]) ∨
      (r.mask = 0xF00F ∧ r.pattern.toNat ∈
        [0x5000, 0x8000, 0x8001, 0x8002, 0x8003, 0x8004, 0x8005, 0x8006, 0x8007, 0x800E, 0x9000]) ∨
      (r.mask = 0xF0FF ∧ r.pattern.toNat ∈
        [0xE09E, 0xE0A1, 0xF007, 0xF00A, 0xF015, 0xF018, 0xF01E, 0xF029, 0xF033, 0xF055, 0xF065]) := by
  decide

/-- A word that matches a row falls under none of the illegal classes (R79). -/
theorem decode_ne_error_of_holds {r : OpcodeRow} {op : Word} (hr : r ∈ opcodeTable) (h : r.holds op = true) (e : Illegal) :
    decode op ≠ .error e := by
  intro he
  have hclass := (illegalWordsByClass op e).1 he
  have hmatch := Laws.holds_iff.1 h
  simp only [List.mem_cons, List.not_mem_nil, or_false] at hclass
  rcases opcodeTable_masks r hr with ⟨hm, hp⟩ | ⟨hm, hp⟩ | ⟨hm, hp⟩ | ⟨hm, hp⟩ <;> rw [hm] at hmatch
  case inl =>
    have hop : op = r.pattern := BitVec.eq_of_toNat_eq ((congrArg _ (and_mask_FFFF op)).symm.trans hmatch)
    rcases hp with hp | hp <;> rw [hop, hp] at he
    · cases he.symm.trans (show decode 0x00E0 = .ok .cls by decide)
    · cases he.symm.trans (show decode 0x00EE = .ok .ret by decide)
  all_goals simp only [List.mem_cons, List.not_mem_nil, or_false] at hp
  case inr.inl =>
    have := (and_mask_F000 op).symm.trans hmatch
    omega
  case inr.inr.inl =>
    have := (and_mask_F00F op).symm.trans hmatch
    omega
  case inr.inr.inr =>
    have := (and_mask_F0FF op).symm.trans hmatch
    omega

/-- Two rows that both match a word agree where both masks look. -/
theorem pattern_and_mask_eq {r r' : OpcodeRow} {op : Word} (h : r.holds op = true) (h' : r'.holds op = true) :
    r.pattern &&& r'.mask = r'.pattern &&& r.mask := by
  rw [← eq_of_beq h, ← eq_of_beq h', BitVec.and_assoc, BitVec.and_assoc, BitVec.and_comm r.mask]

theorem opcodeTable_pairwise_disjoint :
    opcodeTable.Pairwise fun r r' => r.pattern &&& r'.mask ≠ r'.pattern &&& r.mask := by
  decide

/-- At most one row matches a word (R74). -/
theorem row_unique {r r' : OpcodeRow} {op : Word} (hr : r ∈ opcodeTable) (hr' : r' ∈ opcodeTable) (h : r.holds op = true)
    (h' : r'.holds op = true) : r = r' := by
  by_contra hne
  have : Std.Symm fun r r' : OpcodeRow => r.pattern &&& r'.mask ≠ r'.pattern &&& r.mask := ⟨fun _ _ => Ne.symm⟩
  exact opcodeTable_pairwise_disjoint.forall hr hr' hne (pattern_and_mask_eq h h')

/-- The word of every instruction belongs to the row of R76 that bears its name. -/
theorem inItsRow (i : Instr) : Laws.InItsRow.Statement i := by
  cases i with
  | cls => exact Laws.InItsRow.cls
  | ret => exact Laws.InItsRow.ret
  | jp nnn => exact Laws.InItsRow.jp nnn
  | call nnn => exact Laws.InItsRow.call nnn
  | seImm x kk => exact Laws.InItsRow.seImm x kk
  | sneImm x kk => exact Laws.InItsRow.sneImm x kk
  | seReg x y => exact Laws.InItsRow.seReg x y
  | ldImm x kk => exact Laws.InItsRow.ldImm x kk
  | addImm x kk => exact Laws.InItsRow.addImm x kk
  | ldReg x y => exact Laws.InItsRow.ldReg x y
  | orReg x y => exact Laws.InItsRow.orReg x y
  | andReg x y => exact Laws.InItsRow.andReg x y
  | xorReg x y => exact Laws.InItsRow.xorReg x y
  | addReg x y => exact Laws.InItsRow.addReg x y
  | subReg x y => exact Laws.InItsRow.subReg x y
  | shrReg x y => exact Laws.InItsRow.shrReg x y
  | subnReg x y => exact Laws.InItsRow.subnReg x y
  | shlReg x y => exact Laws.InItsRow.shlReg x y
  | sneReg x y => exact Laws.InItsRow.sneReg x y
  | ldI nnn => exact Laws.InItsRow.ldI nnn
  | jpV0 nnn => exact Laws.InItsRow.jpV0 nnn
  | rnd x kk => exact Laws.InItsRow.rnd x kk
  | drw x y n => exact Laws.InItsRow.drw x y n
  | skp x => exact Laws.InItsRow.skp x
  | sknp x => exact Laws.InItsRow.sknp x
  | ldVxDT x => exact Laws.InItsRow.ldVxDT x
  | ldVxK x => exact Laws.InItsRow.ldVxK x
  | ldDTVx x => exact Laws.InItsRow.ldDTVx x
  | ldSTVx x => exact Laws.InItsRow.ldSTVx x
  | addI x => exact Laws.InItsRow.addI x
  | ldF x => exact Laws.InItsRow.ldF x
  | ldB x => exact Laws.InItsRow.ldB x
  | storeRegs x => exact Laws.InItsRow.storeRegs x
  | loadRegs x => exact Laws.InItsRow.loadRegs x

/-- Settles O3: a legal word is the word of its instruction, which lies in its row; a word in a row is not illegal; and the row of a
word is unique, so it is the one that bears the name. -/
theorem legalExactlyWhenARowMatches : Obligations.LegalExactlyWhenARowMatches := by
  intro op
  have row_of_decode : ∀ i, decode op = .ok i → ∃ r ∈ opcodeTable, r.name = i.rowName ∧ r.holds op = true := by
    intro i hi
    rw [← encodeInvertsDecode op i hi]
    exact inItsRow i
  refine ⟨⟨?legal, ?matched⟩, fun r r' => row_unique, ?named⟩
  case legal =>
    rintro ⟨i, hi⟩
    obtain ⟨r, hr, -, hholds⟩ := row_of_decode i hi
    exact ⟨r, hr, hholds⟩
  case matched =>
    rintro ⟨r, hr, hholds⟩
    cases hd : decode op with
    | ok i => exact ⟨i, rfl⟩
    | error e => exact absurd hd (decode_ne_error_of_holds hr hholds e)
  case named =>
    intro i r hi hr hholds
    obtain ⟨r', hr', hname, hholds'⟩ := row_of_decode i hi
    rw [row_unique hr hr' hholds hholds', hname]

/-- Settles O5: nine closed words, evaluated. -/
theorem sampleWordsDecode : Obligations.SampleWordsDecode := by
  unfold Obligations.SampleWordsDecode
  decide

end Sys2Proof

/-! What each instruction does, over all instructions: the frames of the remaining operations, the one check of an instruction
(R222 to R226, R229), its result on either side of the check, and its footprint. -/

namespace Sys2Proof.Machine

section
variable (s : State)

/-! ### Frames of the remaining operations -/

/-- A frame seen from the state before `pc` advances (R190). -/
theorem SameBut.of_advance {s t : State} {regs : List Reg} {parts : List StatePart} (h : SameBut regs parts s.advance t) :
    SameBut regs parts s t :=
  (sameBut_advance s).of_nil.trans h

/-- An operation that writes one kind of state and no register. -/
theorem sameBut_part {part : StatePart} {s t : State} (hreg : ∀ r, t.reg r = s.reg r) (h : ∀ p, p ≠ part → p.same s t) :
    SameBut [] [part] s t :=
  ⟨fun r _ => hreg r, fun p hp => h p (List.ne_of_not_mem_cons hp)⟩

theorem sameBut_writeBytes (a : Nat) (bs : List Byte) : SameBut [] [.memory] s (s.writeBytes a bs) :=
  sameBut_part (fun _ => rfl) fun p hp => by cases p <;> simp_all [StatePart.same]

theorem sameBut_setDT (v : Byte) : SameBut [] [.delay] s (s.setDT v) :=
  sameBut_part (fun _ => rfl) fun p hp => by cases p <;> simp_all [StatePart.same]

theorem sameBut_setST (v : Byte) : SameBut [] [.sound] s (s.setST v) :=
  sameBut_part (fun _ => rfl) fun p hp => by cases p <;> simp_all [StatePart.same]

theorem sameBut_takeRandom : SameBut [] [.random] s s.takeRandom :=
  sameBut_part (fun _ => rfl) fun p hp => by cases p <;> simp_all [StatePart.same]

theorem sameBut_raiseAt (c : Cause) (i : Instr) : SameBut [] [.lifecycle] s (s.raiseAt c i) :=
  sameBut_part (fun _ => rfl) fun p hp => by cases p <;> simp_all [StatePart.same]

/-- The registers `V0..Vx` (R134, R135). -/
def regsBelow (x : Reg) : List Reg := (List.finRange 16).filter (· ≤ x)

@[simp] theorem mem_regsBelow {x r : Reg} : r ∈ regsBelow x ↔ r ≤ x := by simp [regsBelow]

theorem sameBut_loadRegsUpTo (x : Reg) : SameBut (regsBelow x) [] s (s.loadRegsUpTo x) := by
  refine ⟨fun r hr => ?_, fun p _ => by cases p <;> simp [StatePart.same]⟩
  rw [State.reg_loadRegsUpTo, if_neg (mt mem_regsBelow.2 hr)]

theorem sameBut_drawSprite (q : Config.Quirks) (x y : Reg) (n : Nat) : SameBut [VF] [.screen] s (s.drawSprite q x y n) := by
  refine ⟨fun r hr => ?_, fun p hp => ?_⟩
  · rw [State.reg_drawSprite, if_neg (List.ne_of_not_mem_cons hr)]
  · cases p
    case screen => exact absurd List.mem_cons_self hp
    all_goals simp [StatePart.same]

/-! ### The instructions with a range check, on either side of it (R53, R133 to R135, R157, R170, R171) -/

theorem exec_drw_of_inRange (x y : Reg) {n : Nat} (h : n = 0 ∨ s.I.toNat + n - 1 ≤ 4095) :
    exec (.drw x y n) s = .next (s.advance.drawSprite quirks x y n) := by
  refine if_neg ?_
  rintro ⟨hpos, hout⟩
  rw [Bool.eq_false_iff, Ne, inRange_iff, State.base_eq] at hout
  omega

theorem exec_drw_of_outOfRange (x y : Reg) {n : Nat} (h : 4095 < s.I.toNat + n - 1) (hpos : 0 < n) :
    exec (.drw x y n) s = .next (s.raiseAt .memOutOfRange (.drw x y n)) := by
  refine if_pos ⟨hpos, ?_⟩
  rw [Bool.eq_false_iff, Ne, inRange_iff, State.base_eq]
  omega

theorem exec_ldB_of_inRange (x : Reg) (h : s.I.toNat + 2 ≤ 4095) :
    exec (.ldB x) s = .next (s.advance.writeBytes s.I.toNat (bcdDigits (s.reg x))) :=
  if_pos (inRange_iff.2 (by rw [State.base_eq]; omega))

theorem exec_ldB_of_outOfRange (x : Reg) (h : 4095 < s.I.toNat + 2) :
    exec (.ldB x) s = .next (s.raiseAt .memOutOfRange (.ldB x)) :=
  if_neg (mt inRange_iff.1 (by rw [State.base_eq]; omega))

theorem exec_storeRegs_of_inRange (x : Reg) (h : s.I.toNat + x.val ≤ 4095) :
    exec (.storeRegs x) s =
      .next ((s.advance.writeBytes s.I.toNat (s.regsUpTo x)).setI (BitVec.ofNat 16 (s.I.toNat + x.val + 1))) :=
  if_pos (inRange_iff.2 (by rw [State.base_eq]; omega))

theorem exec_storeRegs_of_outOfRange (x : Reg) (h : 4095 < s.I.toNat + x.val) :
    exec (.storeRegs x) s = .next (s.raiseAt .memOutOfRange (.storeRegs x)) :=
  if_neg (mt inRange_iff.1 (by rw [State.base_eq]; omega))

theorem exec_loadRegs_of_inRange (x : Reg) (h : s.I.toNat + x.val ≤ 4095) :
    exec (.loadRegs x) s = .next ((s.advance.loadRegsUpTo x).setI (BitVec.ofNat 16 (s.I.toNat + x.val + 1))) :=
  if_pos (inRange_iff.2 (by rw [State.base_eq]; omega))

theorem exec_loadRegs_of_outOfRange (x : Reg) (h : 4095 < s.I.toNat + x.val) :
    exec (.loadRegs x) s = .next (s.raiseAt .memOutOfRange (.loadRegs x)) :=
  if_neg (mt inRange_iff.1 (by rw [State.base_eq]; omega))

theorem exec_skp_of_key {x : Reg} {k : Key} (h : k.val = (s.reg x).toNat) :
    exec (.skp x) s = .next (s.advance.skipIf (s.key k)) := by
  rw [exec, execSkp, s.keyOf_eq_some.2 h.symm]

theorem exec_sknp_of_key {x : Reg} {k : Key} (h : k.val = (s.reg x).toNat) :
    exec (.sknp x) s = .next (s.advance.skipIf (!s.key k)) := by
  rw [exec, execSknp, s.keyOf_eq_some.2 h.symm]

theorem exec_skp_of_noKey {x : Reg} (h : 15 < (s.reg x).toNat) :
    exec (.skp x) s = .next (s.raiseAt .keyIndexOutOfRange (.skp x)) := by
  rw [exec, execSkp, s.keyOf_eq_none.2 h]

theorem exec_sknp_of_noKey {x : Reg} (h : 15 < (s.reg x).toNat) :
    exec (.sknp x) s = .next (s.raiseAt .keyIndexOutOfRange (.sknp x)) := by
  rw [exec, execSknp, s.keyOf_eq_none.2 h]

/-- A byte of at most 15 is a key index (R170). -/
theorem exists_key_of_le {v : Byte} (h : v.toNat ≤ 15) : ∃ k : Key, k.val = v.toNat := ⟨⟨v.toNat, by omega⟩, rfl⟩

end

/-! ### The footprint of an instruction -/

/-- The general registers an instruction writes (R20, R21). -/
def Instr.regsWritten : Instr → List Reg
  | .ldImm x _ | .addImm x _ | .ldReg x _ | .orReg x _ | .andReg x _ | .xorReg x _ | .rnd x _ | .ldVxDT x => [x]
  | .addReg x _ | .subReg x _ | .shrReg x _ | .subnReg x _ | .shlReg x _ => [x, VF]
  | .drw _ _ _ => [VF]
  | .loadRegs x => regsBelow x
  | _ => []

/-- The other kinds of state an instruction writes (R22 to R29, R63, R123). -/
def Instr.partsWritten : Instr → List StatePart
  | .cls | .drw _ _ _ => [.screen]
  | .ret | .call _ => [.stack]
  | .ldI _ | .addI _ | .ldF _ | .loadRegs _ => [.index]
  | .ldB _ => [.memory]
  | .storeRegs _ => [.memory, .index]
  | .rnd _ _ => [.random]
  | .ldVxK _ => [.execution]
  | .ldDTVx _ => [.delay]
  | .ldSTVx _ => [.sound]
  | _ => []

/-- The instructions that may leave `pc` elsewhere than two further: jumps, the call, the return and the skips (R23). -/
def Instr.setsPc : Instr → Bool
  | .ret | .jp _ | .call _ | .jpV0 _ | .seImm _ _ | .sneImm _ _ | .seReg _ _ | .sneReg _ _ | .skp _ | .sknp _ => true
  | _ => false

/-- The one check of an instruction fails (R222 to R224, R226, R229). -/
def Instr.checkFails (i : Instr) (s : State) : Prop :=
  match i with
  | .ret => s.SP.val = 0
  | .call _ => s.SP.val = 16
  | .drw _ _ n => 0 < n ∧ 4095 < s.I.toNat + n - 1
  | .skp x | .sknp x => 15 < (s.reg x).toNat
  | .ldB _ => 4095 < s.I.toNat + 2
  | .storeRegs x | .loadRegs x => 4095 < s.I.toNat + x.val
  | _ => False

/-- An instruction's own effect stays within what it writes. -/
structure Footprint (i : Instr) (s t : State) : Prop where
  frame : SameBut (Instr.regsWritten i) (Instr.partsWritten i) s t
  pc : Instr.setsPc i = false → t.pc = s.pc + 2
  stack : (∀ nnn, i ≠ .call nnn) → t.stack = s.stack
  mem : .memory ∉ Instr.partsWritten i → t.mem = s.mem

/-- What an instruction answers: the error it raises when its check fails, its own effect when it does not. -/
def CheckedResult (i : Instr) (s : State) : Prop :=
  Answers (exec i s) fun t => (Instr.checkFails i s ∧ RaisedBy i s t) ∨ (¬Instr.checkFails i s ∧ Footprint i s t)

theorem CheckedResult.raised {i : Instr} {s t : State} (hc : Instr.checkFails i s) (h : exec i s = .next t)
    (hr : RaisedBy i s t) : CheckedResult i s :=
  ⟨t, h, .inl ⟨hc, hr⟩⟩

theorem CheckedResult.own {i : Instr} {s t : State} (hc : ¬Instr.checkFails i s) (h : exec i s = .next t)
    (hf : SameBut (Instr.regsWritten i) (Instr.partsWritten i) s.advance t)
    (hpc : Instr.setsPc i = false → t.pc = s.pc + 2) (hst : (∀ nnn, i ≠ .call nnn) → t.stack = s.stack)
    (hmem : .memory ∉ Instr.partsWritten i → t.mem = s.mem := by exact fun _ => rfl) : CheckedResult i s :=
  ⟨t, h, .inr ⟨hc, hf.of_advance, hpc, hst, hmem⟩⟩

/-- An instruction without a check has its own effect. -/
theorem CheckedResult.unchecked {i : Instr} {s t : State} (h : exec i s = .next t)
    (hf : SameBut (Instr.regsWritten i) (Instr.partsWritten i) s.advance t)
    (hpc : Instr.setsPc i = false → t.pc = s.pc + 2 := by exact fun _ => rfl) (hst : t.stack = s.stack := by rfl)
    (hmem : t.mem = s.mem := by rfl) (hc : Instr.checkFails i s → False := by exact id) : CheckedResult i s :=
  .own hc h hf hpc (fun _ => hst) fun _ => hmem

section
variable (s : State)

theorem checkedResult_skip {i : Instr} {c : Bool} (h : exec i s = .next (s.advance.skipIf c)) (hpc : Instr.setsPc i = true)
    (hc : ¬Instr.checkFails i s) : CheckedResult i s :=
  .own hc h (sameBut_skipIf _ c).of_nil (fun hf => absurd (hpc.symm.trans hf) (by decide)) (fun _ => State.skipIf_stack _ c)
    fun _ => State.skipIf_mem _ c

theorem checkedResult_ret : CheckedResult .ret s := by
  rcases Nat.eq_zero_or_pos s.SP.val with h | h
  · exact .raised h (exec_ret_of_empty s h) (raisedBy_stackUnderflow _ s)
  · exact .own h.ne' (exec_ret_of_pos s h) ((sameBut_pop _).trans (sameBut_setPc _ _).of_nil) nofun fun _ => rfl

theorem checkedResult_call (nnn : Word) : CheckedResult (.call nnn) s := by
  rcases Nat.lt_or_eq_of_le (Nat.le_of_lt_succ s.SP.isLt) with h | h
  · exact .own h.ne (exec_call_of_lt s nnn h) ((sameBut_push _ _ _).trans (sameBut_setPc _ _).of_nil) nofun
      fun hne => absurd rfl (hne nnn)
  · exact .raised h (exec_call_of_full s nnn h) (raisedBy_stackOverflow _ s)

theorem checkedResult_drw (x y : Reg) (n : Nat) : CheckedResult (.drw x y n) s := by
  by_cases h : 0 < n ∧ 4095 < s.I.toNat + n - 1
  · exact .raised h (exec_drw_of_outOfRange s x y h.2 h.1) (raisedBy_memOutOfRange _ s)
  · exact .own h (exec_drw_of_inRange s x y (by omega)) (sameBut_drawSprite _ _ _ _ _) (fun _ => rfl) fun _ => rfl

theorem checkedResult_ldB (x : Reg) : CheckedResult (.ldB x) s := by
  rcases Nat.lt_or_ge 4095 (s.I.toNat + 2) with h | h
  · exact .raised h (exec_ldB_of_outOfRange s x h) (raisedBy_memOutOfRange _ s)
  · exact .own h.not_gt (exec_ldB_of_inRange s x h) (sameBut_writeBytes _ _ _) (fun _ => rfl) (fun _ => rfl)
      fun hmem => absurd List.mem_cons_self hmem

theorem checkedResult_storeRegs (x : Reg) : CheckedResult (.storeRegs x) s := by
  rcases Nat.lt_or_ge 4095 (s.I.toNat + x.val) with h | h
  · exact .raised h (exec_storeRegs_of_outOfRange s x h) (raisedBy_memOutOfRange _ s)
  · have hmem := (sameBut_writeBytes s.advance s.I.toNat (s.regsUpTo x)).mono (List.Subset.refl [])
      (show [StatePart.memory] ⊆ [.memory, .index] by simp)
    exact .own h.not_gt (exec_storeRegs_of_inRange s x h)
      (hmem.trans ((sameBut_setI _ _).mono (List.nil_subset _) (by simp))) (fun _ => rfl) (fun _ => rfl)
      fun hmem => absurd List.mem_cons_self hmem

theorem checkedResult_loadRegs (x : Reg) : CheckedResult (.loadRegs x) s := by
  rcases Nat.lt_or_ge 4095 (s.I.toNat + x.val) with h | h
  · exact .raised h (exec_loadRegs_of_outOfRange s x h) (raisedBy_memOutOfRange _ s)
  · have hregs := (sameBut_loadRegsUpTo s.advance x).mono (List.Subset.refl _) (List.nil_subset [.index])
    have hindex (v : Word) :=
      (sameBut_setI (s.advance.loadRegsUpTo x) v).mono (List.nil_subset (regsBelow x)) (List.Subset.refl _)
    exact .own h.not_gt (exec_loadRegs_of_inRange s x h) (hregs.trans (hindex _)) (fun _ => by simp) (fun _ => by simp)
      fun _ => by simp

theorem checkedResult_skp (x : Reg) : CheckedResult (.skp x) s := by
  rcases Nat.lt_or_ge 15 (s.reg x).toNat with h | h
  · exact .raised h (exec_skp_of_noKey s h) (raisedBy_keyIndexOutOfRange _ s)
  · obtain ⟨k, hk⟩ := exists_key_of_le h
    exact checkedResult_skip s (exec_skp_of_key s hk) rfl h.not_gt

theorem checkedResult_sknp (x : Reg) : CheckedResult (.sknp x) s := by
  rcases Nat.lt_or_ge 15 (s.reg x).toNat with h | h
  · exact .raised h (exec_sknp_of_noKey s h) (raisedBy_keyIndexOutOfRange _ s)
  · obtain ⟨k, hk⟩ := exists_key_of_le h
    exact checkedResult_skip s (exec_sknp_of_key s hk) rfl h.not_gt

/-- Every instruction: the error it raises when its one check fails, its own effect within its footprint when it does not. -/
theorem checkedResult (i : Instr) : CheckedResult i s := by
  cases i
  case ret => exact checkedResult_ret s
  case call nnn => exact checkedResult_call s nnn
  case drw x y n => exact checkedResult_drw s x y n
  case skp x => exact checkedResult_skp s x
  case sknp x => exact checkedResult_sknp s x
  case ldB x => exact checkedResult_ldB s x
  case storeRegs x => exact checkedResult_storeRegs s x
  case loadRegs x => exact checkedResult_loadRegs s x
  case seImm | sneImm | seReg | sneReg => exact checkedResult_skip s rfl rfl id
  case jp | jpV0 => exact .unchecked rfl (sameBut_setPc _ _) (hpc := nofun)
  case cls => exact .unchecked rfl ((sameBut_setFb _ _).trans (sameBut_markDraw _).of_nil)
  case addReg | subReg | subnReg => exact .unchecked rfl (sameBut_resultThenFlag _ _ _ _)
  case shrReg => exact .unchecked rfl (sameBut_shiftRight _ _ _ _)
  case shlReg => exact .unchecked rfl (sameBut_shiftLeft _ _ _ _)
  case rnd x kk =>
    have hrandom := (sameBut_takeRandom s.advance).mono (List.nil_subset [x]) (List.Subset.refl _)
    exact .unchecked rfl (hrandom.trans ((sameBut_setReg _ x _).mono (List.Subset.refl _) (List.nil_subset _)))
  case ldI | addI | ldF => exact .unchecked rfl (sameBut_setI _ _)
  case ldVxK => exact .unchecked rfl (sameBut_setExec _ _)
  case ldDTVx => exact .unchecked rfl (sameBut_setDT _ _)
  case ldSTVx => exact .unchecked rfl (sameBut_setST _ _)
  all_goals exact .unchecked rfl (sameBut_setReg _ _ _)

end

/-- The inversion of `exec` by its check. -/
theorem exec_checked {i : Instr} {s t : State} (h : exec i s = .next t) :
    (Instr.checkFails i s ∧ RaisedBy i s t) ∨ (¬Instr.checkFails i s ∧ Footprint i s t) := by
  obtain ⟨u, hu, hcases⟩ := checkedResult s i
  cases h.symm.trans hu
  exact hcases

theorem exec_footprint {i : Instr} {s t : State} (h : exec i s = .next t) (hc : ¬Instr.checkFails i s) : Footprint i s t :=
  (exec_checked h).elim (fun hfails => absurd hfails.1 hc) fun hpasses => hpasses.2

end Sys2Proof.Machine

/-! The obligations over all instructions, each by the inversion `exec_checked`: a faulting instruction changes `run` alone, any other
stays within its footprint. -/

namespace Sys2Proof.Machine

/-! ### What a footprint says of each instruction -/

theorem SameBut.part_mem {regs : List Reg} {parts : List StatePart} {s t : State} (h : SameBut regs parts s t) {p : StatePart}
    (hp : ¬p.same s t) : p ∈ parts :=
  not_imp_comm.1 (h.2 p) hp

theorem SameBut.reg_mem {regs : List Reg} {parts : List StatePart} {s t : State} (h : SameBut regs parts s t) {r : Reg}
    (hr : t.reg r ≠ s.reg r) : r ∈ regs :=
  not_imp_comm.1 (h.1 r) hr

/-- The instructions that have a check at all. -/
theorem checked_of_checkFails {i : Instr} {s : State} (h : Instr.checkFails i s) :
    i = .ret ∨ (∃ nnn, i = .call nnn) ∨ (∃ x y n, i = .drw x y n) ∨
      ∃ x, i = .ldB x ∨ i = .storeRegs x ∨ i = .loadRegs x ∨ i = .skp x ∨ i = .sknp x := by
  cases i <;> simp_all [Instr.checkFails]

/-- The register clause of R20 and R21: as `Vx`, as one of `V0..Vx`, or as the flag. -/
theorem writer_of_mem_regsWritten {i : Instr} {r : Reg} (h : r ∈ Instr.regsWritten i) :
    (∃ kk, i = .ldImm r kk ∨ i = .addImm r kk ∨ i = .rnd r kk) ∨
    (∃ y, i = .ldReg r y ∨ i = .orReg r y ∨ i = .andReg r y ∨ i = .xorReg r y ∨ i = .addReg r y ∨ i = .subReg r y ∨
      i = .shrReg r y ∨ i = .subnReg r y ∨ i = .shlReg r y) ∨
    i = .ldVxDT r ∨ (∃ x, r ≤ x ∧ i = .loadRegs x) ∨
    (r = VF ∧ ((∃ x y n, i = .drw x y n) ∨
      ∃ x y, i = .addReg x y ∨ i = .subReg x y ∨ i = .shrReg x y ∨ i = .subnReg x y ∨ i = .shlReg x y)) := by
  cases i <;> simp_all [Instr.regsWritten, eq_comm]

theorem mover_of_setsPc {i : Instr} (h : Instr.setsPc i = true) :
    i = .ret ∨ (∃ nnn, i = .jp nnn ∨ i = .call nnn ∨ i = .jpV0 nnn) ∨ (∃ x kk, i = .seImm x kk ∨ i = .sneImm x kk) ∨
      (∃ x y, i = .seReg x y ∨ i = .sneReg x y) ∨ ∃ x, i = .skp x ∨ i = .sknp x := by
  cases i <;> simp_all [Instr.setsPc]

theorem writer_of_memory {i : Instr} (h : .memory ∈ Instr.partsWritten i) : ∃ x, i = .ldB x ∨ i = .storeRegs x := by
  cases i <;> simp_all [Instr.partsWritten]

theorem writer_of_index {i : Instr} (h : .index ∈ Instr.partsWritten i) :
    (∃ nnn, i = .ldI nnn) ∨ ∃ x, i = .addI x ∨ i = .ldF x ∨ i = .storeRegs x ∨ i = .loadRegs x := by
  cases i <;> simp_all [Instr.partsWritten]

theorem writer_of_stack {i : Instr} (h : .stack ∈ Instr.partsWritten i) : i = .ret ∨ ∃ nnn, i = .call nnn := by
  cases i <;> simp_all [Instr.partsWritten]

theorem writer_of_delay {i : Instr} (h : .delay ∈ Instr.partsWritten i) : ∃ x, i = .ldDTVx x := by
  cases i <;> simp_all [Instr.partsWritten]

theorem writer_of_sound {i : Instr} (h : .sound ∈ Instr.partsWritten i) : ∃ x, i = .ldSTVx x := by
  cases i <;> simp_all [Instr.partsWritten]

theorem writer_of_execution {i : Instr} (h : .execution ∈ Instr.partsWritten i) : ∃ x, i = .ldVxK x := by
  cases i <;> simp_all [Instr.partsWritten]

theorem writer_of_screen {i : Instr} (h : .screen ∈ Instr.partsWritten i) : i = .cls ∨ ∃ x y n, i = .drw x y n := by
  cases i <;> simp_all [Instr.partsWritten]

theorem writer_of_random {i : Instr} (h : .random ∈ Instr.partsWritten i) : ∃ x kk, i = .rnd x kk := by
  cases i <;> simp_all [Instr.partsWritten]

/-- No instruction's own effect is on the keypad, the `LOAD` record, the scheduling fields or `run`. -/
theorem not_mem_partsWritten (i : Instr) {p : StatePart} (h : p = .keypad ∨ p = .image ∨ p = .schedule ∨ p = .lifecycle) :
    p ∉ Instr.partsWritten i := by
  rcases h with rfl | rfl | rfl | rfl <;> cases i <;> simp [Instr.partsWritten]

theorem RaisedBy.run {i : Instr} {s t : State} (h : RaisedBy i s t) : t.run ≠ .active ∧ t.isFaulted = true := by
  obtain ⟨c, -, rfl⟩ := h
  exact ⟨nofun, rfl⟩

theorem Footprint.run {i : Instr} {s t : State} (h : Footprint i s t) : t.run = s.run :=
  h.frame.2 .lifecycle (not_mem_partsWritten i (by decide))

/-! ### The obligations -/

/-- Settles O55: after a fault only `run` differs; otherwise what differs is written, and each kind of state has the writers named. -/
theorem onlyTheNamedInstructionsWrite : Obligations.OnlyTheNamedInstructionsWrite := by
  intro i s t h
  rcases exec_checked h with ⟨hfails, c, -, rfl⟩ | ⟨-, hfoot⟩
  case inl =>
    have hframe := sameBut_raiseAt s c i
    exact ⟨fun r hr => absurd rfl hr, fun _ => .inl ⟨rfl, rfl⟩, fun _ => ⟨rfl, checked_of_checkFails hfails⟩,
      fun hm => absurd (fun _ => rfl) hm, absurd rfl, absurd rfl, absurd rfl, absurd rfl, absurd rfl, absurd rfl, absurd rfl,
      absurd rfl, hframe.2 .keypad (by decide), hframe.2 .image (by decide), hframe.2 .schedule (by decide)⟩
  case inr =>
    have hframe := hfoot.frame
    exact ⟨fun r hr => writer_of_mem_regsWritten (hframe.reg_mem hr),
      fun hpc => .inr (mover_of_setsPc (Bool.of_not_eq_false (mt hfoot.pc hpc))),
      fun hrun => absurd hfoot.run hrun,
      fun hm => writer_of_memory (hframe.part_mem hm),
      fun hI => writer_of_index (hframe.part_mem (p := .index) hI),
      fun hsp => writer_of_stack (hframe.part_mem (p := .stack) fun hs => hsp hs.2),
      fun hst => by simpa using mt hfoot.stack hst,
      fun hd => writer_of_delay (hframe.part_mem (p := .delay) hd),
      fun hd => writer_of_sound (hframe.part_mem (p := .sound) hd),
      fun he => writer_of_execution (hframe.part_mem (p := .execution) he),
      fun hf => writer_of_screen (hframe.part_mem (p := .screen) hf),
      fun hd => writer_of_random (hframe.part_mem (p := .random) hd),
      hframe.2 .keypad (not_mem_partsWritten i (by decide)), hframe.2 .image (not_mem_partsWritten i (by decide)),
      hframe.2 .schedule (not_mem_partsWritten i (by decide))⟩

/-- Settles O56: the register clause of the footprint at `VF`, where the highest register is at most `Vx` only if it is `Vx`. -/
theorem onlyFlagWritersTouchVF : Obligations.OnlyFlagWritersTouchVF := by
  intro i s t h hVF
  rcases exec_checked h with ⟨-, c, -, rfl⟩ | ⟨-, hfoot⟩
  · exact absurd rfl hVF
  have hmem := hfoot.frame.reg_mem hVF
  cases i
  case loadRegs x =>
    have hx : x = VF := le_antisymm (Fin.le_last x) (mem_regsBelow.1 hmem)
    simp [hx]
  all_goals simp_all [Instr.regsWritten, eq_comm]

/-- Settles O57: the run of a machine that was `Active` tells the two results of an instruction apart, and `checkFails` lists the
checks. -/
theorem instructionsFaultExactlyWhen : Obligations.InstructionsFaultExactlyWhen := by
  intro i s hactive
  have hfaults : (∃ t, exec i s = .next t ∧ t.run ≠ .active) ↔ Instr.checkFails i s := by
    obtain ⟨t, ht, ⟨hfails, hraised⟩ | ⟨hpasses, hfoot⟩⟩ := checkedResult s i
    · exact iff_of_true ⟨t, ht, hraised.run.1⟩ hfails
    · refine iff_of_false ?_ hpasses
      rintro ⟨u, hu, hrun⟩
      cases ht.symm.trans hu
      exact hrun (hfoot.run.trans hactive)
  rw [hfaults]
  cases i <;> simp [Instr.checkFails]

end Sys2Proof.Machine

/-! Single instructions (40_flow.md to 44_keypad_timers.md): the encoder's words of fault records, blocks of bytes in memory, and the
obligations of the instructions that earlier files leave. -/

namespace Sys2Proof

/-- The encoder's word of a class F instruction is the word of its number: the opcode of its fault record (R230; log entry 10). -/
theorem wordX_classF_eq {sub : Nat} {op : Word} {x : Reg} (hs : sub < 256) (h : op.toNat = 0xF000 + sub + 256 * x.val) :
    wordX 15 x sub = op :=
  BitVec.eq_of_toNat_eq ((toNat_wordX_comm (by decide) hs x).trans h.symm)

end Sys2Proof

namespace Sys2Proof.Machine

/-! ### Registers, timers, `pc` and the stack -/

section
variable (s : State) (x : Reg)

/-- An instruction that only writes a value `v` to `I`: whatever `Q` says of `v` it says of `I` afterwards. -/
theorem setI_answers {v : Word} (Q : Word → Prop) (h : Q v) :
    Answers (.next (s.advance.setI v)) fun t => Q t.I ∧ Plain s t ∧ SameBut [] [.index] s t :=
  ⟨_, rfl, h, ⟨rfl, rfl⟩, (sameBut_setI _ v).of_advance⟩

theorem flagByte_eq_one_or_zero (b : Bool) : flagByte b = 1 ∨ flagByte b = 0 := by cases b <;> decide

/-- `8xy5` and `8xy7` with the flag in `VF`: 1 exactly when nothing is borrowed (R112 b). -/
theorem difference_flag (m b : Byte) :
    Answers (.next (s.advance.resultThenFlag x (m - b) (noBorrowFlag m b))) fun t =>
      (t.reg VF = 1 ∨ t.reg VF = 0) ∧ (t.reg VF = 1 ↔ b.toNat ≤ m.toNat) := by
  obtain ⟨t, ht, -, hflag, -⟩ := resultThenFlag_answers s x (m - b) (noBorrowFlag m b)
  exact ⟨t, ht, hflag ▸ flagByte_eq_one_or_zero _, hflag ▸ flagByte_eq_one.trans decide_eq_true_iff⟩

end

/-- Settles O17: the free byte is a value like any other, masked bit by bit (R123). -/
theorem randomByteIsMasked : Obligations.RandomByteIsMasked := by
  intro s x kk
  have hvalue : (s.advance.takeRandom.setReg x (kk &&& s.randomByte)).reg x = kk &&& s.randomByte :=
    State.reg_setReg_same _ x _
  have hframe : SameBut [x] [.random] s.advance (s.advance.takeRandom.setReg x (kk &&& s.randomByte)) :=
    ((sameBut_takeRandom s.advance).mono (List.nil_subset _) (List.Subset.refl _)).trans
      ((sameBut_setReg _ x _).mono (List.Subset.refl _) (List.nil_subset _))
  refine ⟨_, rfl, fun b => ?_, fun b hb => ?_, rfl, ⟨rfl, rfl⟩, hframe.of_advance⟩
  · rw [hvalue, BitVec.getLsbD_and]
    rfl
  · rw [hvalue, BitVec.getLsbD_and, hb, Bool.false_and]

/-- Settles O18: the operands are read before `VF` is written, and this hardware's shifts do not read `Vy` (R122). -/
theorem flagRegisterAsSecondOperand : Obligations.FlagRegisterAsSecondOperand := by
  intro s x hx
  refine ⟨?_, difference_flag s x (s.reg x) (s.reg VF), difference_flag s x (s.reg VF) (s.reg x), fun _ => ⟨rfl, rfl⟩⟩
  obtain ⟨t, ht, hsum, hflag, -⟩ := resultThenFlag_answers s x (s.reg x + s.reg VF) (carryFlag (s.reg x) (s.reg VF))
  exact ⟨t, ht, (congrArg BitVec.toNat (hsum hx)).trans (BitVec.toNat_add _ _), hflag ▸ flagByte_eq_one_or_zero _,
    hflag ▸ flagByte_eq_one.trans decide_eq_true_iff⟩

/-- Settles O20: the largest sum, `0xFFF + 0xFF`, does not wrap (R97). -/
theorem jumpWithOffsetIsNotMasked : Obligations.JumpWithOffsetIsNotMasked := by
  intro s nnn hn
  have hV0 := (s.reg V0).isLt
  have hsum : (addByte nnn (s.reg V0)).toNat = nnn.toNat + (s.reg V0).toNat := by
    rw [toNat_addByte]
    omega
  exact ⟨s.advance.setPc (addByte nnn (s.reg V0)), rfl, hsum, hsum.trans_le (by omega), rfl, (sameBut_setPc _ _).of_advance⟩

/-- Settles O24: the entry the call wrote is the one the return reads (R99). -/
theorem callThenReturn : Obligations.CallThenReturn := by
  intro s t u nnn hfree hcall hSP hstack
  cases (exec_call_of_lt s nnn hfree).symm.trans hcall
  have hdepth : u.SP.val = s.SP.val + 1 := congrArg Fin.val hSP
  have hpos : 0 < u.SP.val := hdepth ▸ Nat.succ_pos _
  have htop : u.top hpos = s.pc + 2 := by
    rw [u.top_eq_entry (j := ⟨s.SP.val, hfree⟩) hpos (by rw [hdepth]; rfl), hstack]
    exact (s.advance.push_entry (s.pc + 2) hfree _).trans (if_pos rfl)
  refine ⟨_, exec_ret_of_pos u hpos, htop, Fin.ext ?_⟩
  exact (u.advance.pop_SP_val).trans (by rw [State.advance_SP, hdepth]; rfl)

/-- Settles O26 (R131, R132). -/
theorem indexArithmetic : Obligations.IndexArithmetic := fun s x =>
  ⟨setI_answers s (fun v => v.toNat = (s.I.toNat + (s.reg x).toNat) % 65536) (toNat_addByte _ _),
    setI_answers s (fun v => v.toNat = 5 * (s.reg x).toNat) (toNat_glyphAddress _)⟩

/-- Settles O37: the key a register names decides between the skip and the fault (R170, R171). -/
theorem skipOnKeyState : Obligations.SkipOnKeyState := by
  intro s x
  refine ⟨fun k hk => ⟨?_, ?_⟩, fun h => ⟨exec_skp_of_noKey s h, exec_sknp_of_noKey s h⟩⟩
  · obtain ⟨t, ht, hskip⟩ := skip_if_answers s (s.key k = true)
    exact ⟨t, (exec_skp_of_key s hk).trans (by simpa using ht), hskip⟩
  · obtain ⟨t, ht, hskip⟩ := skip_unless_answers s (s.key k = true)
    exact ⟨t, (exec_sknp_of_key s hk).trans (by simpa using ht), hskip⟩

/-- Settles O38 (R173, R174, R175). -/
theorem timerMoves : Obligations.TimerMoves := fun s x =>
  ⟨setReg_answers s x (· = s.DT) rfl, ⟨_, rfl, rfl, ⟨rfl, rfl⟩, (sameBut_setDT s.advance _).of_advance⟩,
    ⟨_, rfl, rfl, ⟨rfl, rfl⟩, (sameBut_setST s.advance _).of_advance⟩⟩

/-- A waiting machine's burst goes no further (R196). -/
theorem State.burstGoesOn_eq_false_of_waiting {s : State} (h : s.execState ≠ .running) (count : Nat) :
    s.burstGoesOn count = false := by
  refine Bool.eq_false_iff.2 fun hgo => ?_
  obtain ⟨_, hrunning, _⟩ := burstGoesOn_iff.1 hgo
  exact h hrunning

/-- Settles O39 (R172). -/
theorem waitForKeySuspends : Obligations.WaitForKeySuspends := fun s x =>
  ⟨s.advance.setExec (.waitingForKey x), rfl, rfl, State.burstGoesOn_eq_false_of_waiting nofun, ⟨rfl, rfl⟩,
    (sameBut_setExec _ _).of_advance⟩

/-! ### Blocks of bytes in memory -/

section
variable {s : State}

theorem toNat_ofNat_base_add {x : Reg} (h : s.I.toNat + x.val ≤ 4095) :
    (BitVec.ofNat 16 (s.I.toNat + x.val + 1)).toNat = s.I.toNat + x.val + 1 := by
  rw [BitVec.toNat_ofNat]
  omega

/-- Every byte of memory outside the block stored reads as before. -/
theorem sameMemoryBut_writeBytes {a n : Nat} {bs : List Byte} {t : State} (hn : bs.length = n)
    (ht : t.mem = s.mem.writeBytes a bs) : SameMemoryBut a n s t := by
  intro b hb
  rw [ht]
  exact Memory.read_writeBytes_other (hn ▸ hb)

/-- What `Fx55` in range leaves in memory: the registers at `I..I+x` (R134). -/
theorem read_regsUpTo (hwf : s.mem.wf = true) {x r : Reg} (h : s.I.toNat + x.val ≤ 4095) (hr : r ≤ x) :
    (s.mem.writeBytes s.I.toNat (s.regsUpTo x)).read (s.I.toNat + r.val) = s.reg r := by
  have hlen := s.length_regsUpTo x
  have hlt : r.val < (s.regsUpTo x).length := by have : r.val ≤ x.val := hr; omega
  rw [Memory.read_writeBytes hwf (by omega) hlt, State.getElem_regsUpTo]

/-- The digits of a byte in decimal, each in a byte of its own (R133). -/
theorem toNat_bcdDigits (v : Byte) {k : Nat} (hk : k < (bcdDigits v).length) :
    ((bcdDigits v)[k]).toNat = v.toNat / 10 ^ (2 - k) % 10 := by
  have hv := v.isLt
  have hk' : k < 3 := hk
  interval_cases k <;> simp [bcdDigits] <;> omega

/-- What `Fx33` in range leaves in memory: the digits at `I`, `I+1`, `I+2` (R133). -/
theorem toNat_read_bcdDigits (hwf : s.mem.wf = true) (v : Byte) {k : Nat} (h : s.I.toNat ≤ 4093) (hk : k < 3) :
    ((s.mem.writeBytes s.I.toNat (bcdDigits v)).read (s.I.toNat + k)).toNat = v.toNat / 10 ^ (2 - k) % 10 := by
  have hk' : k < (bcdDigits v).length := hk
  rw [Memory.read_writeBytes hwf (show s.I.toNat + 3 ≤ 4096 by omega) hk', toNat_bcdDigits]

end

/-- Settles O27 (R133). -/
theorem storeDecimalDigits : Obligations.StoreDecimalDigits := by
  intro s x op hwf hop
  refine ⟨decode_classF 0x33 .ldB hop, fun h => ?_, fun h => ?_⟩
  · have hv := (s.reg x).isLt
    refine ⟨_, exec_ldB_of_inRange s x (by omega), ?_, ?_, ?_, sameMemoryBut_writeBytes rfl rfl,
      Memory.writeBytes_wf hwf (show s.I.toNat + 3 ≤ 4096 by omega), ⟨rfl, rfl⟩, (sameBut_writeBytes _ _ _).of_advance⟩
    · exact (toNat_read_bcdDigits hwf _ h (k := 0) (by decide)).trans (by omega)
    · exact toNat_read_bcdDigits hwf _ h (k := 1) (by decide)
    · exact (toNat_read_bcdDigits hwf _ h (k := 2) (by decide)).trans (by omega)
  · rw [exec_ldB_of_outOfRange s x (by omega), State.raiseAt_eq_faultedAt, encode, wordX_classF_eq (by decide) hop]

/-- Settles O28 (R134). -/
theorem storeRegisterBlock : Obligations.StoreRegisterBlock := by
  intro s x op hwf hop
  refine ⟨decode_classF 0x55 .storeRegs hop, fun h => ?_, fun h => ?_⟩
  · have hlen := s.length_regsUpTo x
    have hexec := exec_storeRegs_of_inRange s x h
    exact ⟨_, hexec, fun r hr => read_regsUpTo hwf h hr, sameMemoryBut_writeBytes hlen rfl,
      Memory.writeBytes_wf hwf (by omega), toNat_ofNat_base_add h, ⟨rfl, rfl⟩,
      (exec_footprint hexec h.not_gt).frame⟩
  · rw [exec_storeRegs_of_outOfRange s x h, State.raiseAt_eq_faultedAt, encode, wordX_classF_eq (by decide) hop]

/-- Settles O29 (R135). -/
theorem loadRegisterBlock : Obligations.LoadRegisterBlock := by
  intro s x op hop
  refine ⟨decode_classF 0x65 .loadRegs hop, fun h => ?_, fun h => ?_⟩
  · have hexec := exec_loadRegs_of_inRange s x h
    have hframe := (exec_footprint hexec h.not_gt).frame
    exact ⟨_, hexec, fun r hr => (s.advance.reg_loadRegsUpTo x r).trans (if_pos hr),
      fun r hr => hframe.1 r (mt mem_regsBelow.1 hr.not_ge), toNat_ofNat_base_add h, ⟨by simp, by simp⟩,
      fun p hp => hframe.2 p (by simpa [Instr.partsWritten] using hp)⟩
  · rw [exec_loadRegs_of_outOfRange s x h, State.raiseAt_eq_faultedAt, encode, wordX_classF_eq (by decide) hop]

/-- Settles O30: the load reads at `I..I+x` what the store left there (R137). -/
theorem storeThenLoadRestores : Obligations.StoreThenLoadRestores := by
  intro s t u x hwf h hstore hI hmem
  cases (exec_storeRegs_of_inRange s x h).symm.trans hstore
  refine ⟨_, exec_loadRegs_of_inRange u x (hI ▸ h), fun r hr => ?_, toNat_ofNat_base_add h,
    by rw [State.setI_I, State.setI_I, hI]⟩
  calc (u.advance.loadRegsUpTo x).reg r
      = u.mem.read (u.I.toNat + r.val) := (u.advance.reg_loadRegsUpTo x r).trans (if_pos hr)
    _ = (s.mem.writeBytes s.I.toNat (s.regsUpTo x)).read (s.I.toNat + r.val) := by rw [hI]; exact hmem _
    _ = s.reg r := read_regsUpTo hwf h hr

/-- The two bytes of a word as it was fetched (R52). -/
theorem toNat_wordOfBytes (a b : Byte) : (wordOfBytes a b).toNat / 256 = a.toNat ∧ (wordOfBytes a b).toNat % 256 = b.toNat := by
  have ha := a.isLt
  have hb := b.isLt
  simp only [wordOfBytes, BitVec.toNat_ofNat]
  omega

/-- Settles O31: the two bytes a fetch reads are bytes the store left (R61). -/
theorem storeIsSeenByTheNextFetch : Obligations.StoreIsSeenByTheNextFetch := by
  intro s t u x i hwf hi hexec hmem hpc
  refine ⟨_, State.fetch_eq_some.2 ⟨hpc, rfl⟩, ?_⟩
  obtain ⟨hhigh, hlow⟩ := toNat_wordOfBytes (u.mem.read u.pc.toNat) (u.mem.read (u.pc.toNat + 1))
  rw [hhigh, hlow, hmem, hmem]
  rcases hi with ⟨rfl, h⟩ | ⟨rfl, h⟩
  · cases (exec_storeRegs_of_inRange s x h).symm.trans hexec
    refine ⟨fun _ r hr => ⟨fun ha => ?_, fun ha => ?_⟩, nofun⟩ <;> rw [ha] <;> exact congrArg _ (read_regsUpTo hwf h hr)
  · cases (exec_ldB_of_inRange s x (by omega)).symm.trans hexec
    refine ⟨nofun, fun _ k hk => ⟨fun ha => ?_, fun ha => ?_⟩⟩ <;> rw [ha] <;> exact toNat_read_bcdDigits hwf _ h hk

end Sys2Proof.Machine

/-! Ticks and frames step by step (45_scheduler_host.md sections 1 and 2): the errors of fetch and decode, what a tick may fault or
draw, a step inside a frame, the end of a frame, and their obligations. -/

namespace Sys2Proof.Machine

section
variable {s t : State} {count : Nat}

/-! ### A tick (R190 to R192, R221, R222) -/

theorem tick_of_fetch_none (hr : s.execState = .running) (hf : s.fetch = none) :
    tick s = .next (s.takeFault .memOutOfRange (some s.pc) none) := by
  simp only [tick, hr, tickRunning, hf]

theorem tick_of_illegal {op : Word} {e : Illegal} (hr : s.execState = .running) (hf : s.fetch = some op)
    (hd : decode op = .error e) : tick s = .next (s.takeFault .decodeError (some s.pc) (some op)) := by
  simp only [tick, hr, tickRunning, hf, hd]

/-- A tick of an `Active` machine that faults is the state before it with a record: a cause of a tick, the address `pc` holds, and
the word there, absent only where there is none to fetch (R220 to R226, R230). -/
theorem tick_fault (hrun : s.run = .active) (h : tick s = .next t) (hfault : t.run ≠ .active) :
    ∃ c, c ≠ .protocolViolation ∧ t = s.takeFault c (some s.pc) s.fetch ∧ (s.fetch = none → c = .memOutOfRange) := by
  rcases tick_cases h with ⟨_, _, rfl⟩ | ⟨_, hf, rfl⟩ | ⟨op, e, _, hf, _, rfl⟩ | ⟨op, i, _, hf, hd, he⟩
  case inl => exact absurd hrun hfault
  case inr.inl => exact ⟨.memOutOfRange, nofun, by rw [hf], fun _ => rfl⟩
  case inr.inr.inl => exact ⟨.decodeError, nofun, by rw [hf], fun hnone => nomatch hf.symm.trans hnone⟩
  case inr.inr.inr =>
    rcases exec_cases he with ⟨c, hc, rfl⟩ | hown
    · refine ⟨c, ?_, ?_, fun hnone => nomatch hf.symm.trans hnone⟩
      · rcases hc with rfl | rfl | rfl | rfl <;> exact nofun
      · rw [State.raiseAt, encodeInvertsDecode op i hd, hf]
    · exact absurd (hown.run.trans hrun) hfault

theorem marksDraw_iff {i : Instr} : Instr.marksDraw i = true ↔ i = .cls ∨ ∃ x y n, i = .drw x y n := by
  cases i <;> simp [Instr.marksDraw]

/-! ### A step inside a frame (R196) -/

theorem step_tick (hp : s.phase = .burst count) (hrun : s.run = .active) (hgo : s.burstGoesOn count = true)
    (ht : tick s = .next t) : step s = .next (t.afterTick count) := by
  rw [step_burst hp, burstStep, if_pos hrun, if_pos hgo, ht, onNext_next]

theorem step_closeFrame (hp : s.phase = .burst count) (hrun : s.run = .active) (hgo : s.burstGoesOn count = false) :
    step s = .next s.closeFrame := by
  rw [step_burst hp, burstStep, if_pos hrun, if_neg (Bool.eq_false_iff.1 hgo)]

/-- After 12 ticks the burst is over (R196). -/
theorem burstGoesOn_eq_false_of_count (h : 12 ≤ count) : s.burstGoesOn count = false := by
  refine Bool.eq_false_iff.2 fun hgo => ?_
  obtain ⟨hlt, _⟩ := burstGoesOn_iff.1 hgo
  omega

/-! ### The end of a frame (R197, R198) -/

theorem toNat_countdown (v : Byte) : (countdown v).toNat = v.toNat - 1 := by
  unfold countdown
  split
  case isTrue h => rw [h]; rfl
  case isFalse h =>
    have hne : v.toNat ≠ 0 := fun h0 => h (BitVec.eq_of_toNat_eq h0)
    have hle : (1 : Byte).toNat ≤ v.toNat := Nat.one_le_iff_ne_zero.2 hne
    exact BitVec.toNat_sub_of_le hle

theorem sameBut_closeFrame : SameBut [] [.delay, .sound, .schedule] s s.closeFrame := by
  refine ⟨fun _ _ => rfl, fun p hp => ?_⟩
  cases p <;> simp_all [StatePart.same]

end

/-! ### The obligations -/

/-- Settles O6 (R190, R196). -/
theorem stepRunsTheDecodedInstruction : Obligations.StepRunsTheDecodedInstruction := by
  intro s count i hp hcount hrun hexec hdraw hpc hdecode
  obtain ⟨t, ht⟩ := exec_answers i s
  have htick : tick s = .next t := (tick_exec hexec (State.fetch_eq_some.2 ⟨hpc, rfl⟩) hdecode).trans ht
  exact ⟨t, ht, step_tick hp hrun (burstGoesOn_iff.2 ⟨hcount, hexec, hdraw⟩) htick⟩

/-- Settles O7: the fetch is checked before the word is decoded (R190). -/
theorem fetchFaultThenDecodeFault : Obligations.FetchFaultThenDecodeFault := by
  intro s hexec
  refine ⟨fun hpc => tick_of_fetch_none hexec (State.fetch_eq_none.2 hpc), fun hpc op e hop hillegal => ?_⟩
  have hword : op = wordOfBytes (s.mem.read s.pc.toNat) (s.mem.read (s.pc.toNat + 1)) := by
    have hlt := op.isLt
    rw [hop] at hlt
    apply BitVec.eq_of_toNat_eq
    rw [hop, wordOfBytes, BitVec.toNat_ofNat, Nat.mod_eq_of_lt hlt]
  exact tick_of_illegal hexec (State.fetch_eq_some.2 ⟨hpc, hword⟩) hillegal

/-- Settles O8: a waiting machine does not tick, and its burst goes no further (R191, R196). -/
theorem waitingExecutesNothing : Obligations.WaitingExecutesNothing := by
  intro s r hwait
  have hgo (count : Nat) := State.burstGoesOn_eq_false_of_waiting (s := s) (by simp [hwait]) count
  exact ⟨tick_waiting hwait, fun count hp hrun => ⟨_, step_closeFrame hp hrun (hgo count), rfl, rfl, rfl, toNat_countdown _,
    toNat_countdown _, rfl, sameBut_closeFrame⟩⟩

/-- Settles O9: a faulting tick leaves the flag, and an instruction's own effect sets it exactly for the two drawing
instructions (R192). -/
theorem drawFlagExactlyForDisplay : Obligations.DrawFlagExactlyForDisplay := by
  intro s t hrun hclear h
  rcases tick_cases h with ⟨r, hwait, rfl⟩ | ⟨_, _, rfl⟩ | ⟨_, _, _, _, _, rfl⟩ | ⟨op, i, hexec, hf, hd, he⟩
  case inl => simp [hclear, hwait]
  case inr.inl | inr.inr.inl => simp [hclear]
  case inr.inr.inr =>
    rcases exec_cases he with ⟨c, -, rfl⟩ | hown
    · simp [hclear]
    · rw [hown.drawFlag, hown.run, marksDraw_iff]
      simp [hexec, hrun, hf, hd]

/-- Settles O10 (R11, R230). -/
theorem faultsArePrecise : Obligations.FaultsArePrecise := by
  intro s t hrun h hfault
  obtain ⟨c, hc, rfl, -⟩ := tick_fault hrun h hfault
  exact ⟨c, s.fetch, rfl, hc⟩

/-- Settles O42: each of the three causes ends the burst, and the end of the frame counts the timers and refreshes (R196 to R198). -/
theorem frameEndCountsTimersAndRefreshes : Obligations.FrameEndCountsTimersAndRefreshes := by
  intro s count hp hrun hover
  have hgo : s.burstGoesOn count = false := by
    rcases hover with hcount | hwait | hdraw
    · exact burstGoesOn_eq_false_of_count hcount
    · exact State.burstGoesOn_eq_false_of_waiting hwait count
    · exact State.burstGoesOn_eq_false_of_drawFlag hdraw count
  exact ⟨_, step_closeFrame hp hrun hgo, toNat_countdown _, toNat_countdown _, rfl, rfl, rfl, rfl, rfl, sameBut_closeFrame⟩

/-- Settles O43: only a tick can take a machine out of `Active` inside a frame, and a faulting tick changes `run` alone (R200 b). -/
theorem faultEndsTheFrame : Obligations.FaultEndsTheFrame := by
  intro s t count hp hrun hstep hfault
  rcases burstStep_cases ((step_burst hp).symm.trans hstep) with ⟨hne, -⟩ | ⟨-, -, rfl⟩ | ⟨-, -, u, hu, rfl⟩
  case inl => exact absurd hrun hne
  case inr.inl => exact absurd hrun hfault
  case inr.inr =>
    have hu_run : u.run ≠ .active := fun hactive => hfault (by rw [afterTick_active hactive]; exact hactive)
    obtain ⟨c, -, rfl, -⟩ := tick_fault hrun hu hu_run
    rw [afterTick_stopped hu_run]
    refine ⟨rfl, rfl, rfl, rfl, rfl, rfl, fun _ _ => rfl, fun p hp => ?_⟩
    cases p <;> simp_all [StatePart.same]

/-- Settles O44 (R199). -/
theorem noHostEventInsideAFrame : Obligations.NoHostEventInsideAFrame := by
  intro s t count hp hstep
  rcases burstStep_cases ((step_burst hp).symm.trans hstep) with ⟨-, rfl⟩ | ⟨-, -, rfl⟩ | ⟨hrun, -, u, hu, rfl⟩
  case inl | inr.inl => exact ⟨rfl, rfl, rfl, rfl, .inl rfl⟩
  case inr.inr =>
    have hkeeps := tick_keeps hu
    by_cases hactive : u.run = .active
    · rw [afterTick_active hactive]
      exact ⟨hkeeps.inputs, hkeeps.keys, hkeeps.loaded, hkeeps.loadTruncated, .inl (hactive.trans hrun.symm)⟩
    · rw [afterTick_stopped hactive]
      exact ⟨hkeeps.inputs, hkeeps.keys, hkeeps.loaded, hkeeps.loadTruncated,
        (tick_run hu).imp id fun hf => ⟨hrun, hf⟩⟩

end Sys2Proof.Machine

/-! Host events (45_scheduler_host.md section 3, 70_reset_and_hazards.md): what each event does in each lifecycle state, the memory
after a `LOAD`, the state after `RESET`, and their obligations. -/

namespace Sys2Proof.Machine

section
variable {s : State}

/-! ### Events by lifecycle state (R203 to R206) -/

theorem onStart_of_powerOn (h : s.run = .powerOn) : onStart s = { s with run := .active } := by simp only [onStart, h]

theorem onStop_of_active (h : s.run = .active) : onStop s = { s with run := .stopped } := by simp only [onStop, h]

theorem onFrame_of_not_active (h : s.run ≠ .active) : onFrame s = s := if_neg h

theorem onFrame_of_active (h : s.run = .active) : onFrame s = s.enterFrame := if_pos h

/-- `Stopped` and `Faulted` are the lifecycle states that are neither `PowerOn` nor `Active` (R29). -/
theorem terminal_iff : (s.run = .stopped ∨ s.isFaulted = true) ↔ s.run ≠ .powerOn ∧ s.run ≠ .active := by
  unfold State.isFaulted
  cases s.run <;> simp

/-- A terminal state ignores every event but `RESET` and `LOAD` (R206). -/
theorem onEvent_of_terminal {e : Event} (hpowerOn : s.run ≠ .powerOn) (hactive : s.run ≠ .active) (hreset : e ≠ .reset)
    (hload : ∀ rom, e ≠ .load rom) : onEvent e s = .next s := by
  cases e with
  | reset => exact absurd rfl hreset
  | load rom => exact absurd rfl (hload rom)
  | frame => exact congrArg _ (onFrame_of_not_active hactive)
  | start =>
    rcases onStart_cases s with ⟨h, -⟩ | ⟨h, -⟩ | ⟨-, -, h⟩
    · exact absurd h hpowerOn
    · exact absurd h hactive
    · exact congrArg _ h
  | stop =>
    rcases onStop_cases s with ⟨h, -⟩ | ⟨h, -⟩ | ⟨-, -, h⟩
    · exact absurd h hpowerOn
    · exact absurd h hactive
    · exact congrArg _ h
  | key k pressed =>
    rcases onKey_cases k pressed s with ⟨h, -⟩ | ⟨h, -⟩ | ⟨-, -, h⟩
    · exact absurd h hpowerOn
    · exact absurd h hactive
    · exact congrArg _ h

theorem onLoad_illegal (rom : List Byte) (h : s.run ≠ .powerOn ∨ s.loaded = true) : onLoad rom s = .refused .loadNotLegal := by
  refine if_neg ?_
  rintro ⟨hrun, hloaded⟩
  rcases h with hne | hl
  · exact hne hrun
  · exact absurd (hl.symm.trans hloaded) (by decide)

/-- An event other than a `LOAD` answers a next state (R201 is the only rule that refuses). -/
theorem onEvent_answers {e : Event} (h : ∀ rom, e ≠ .load rom) (s : State) : ∃ t, onEvent e s = .next t := by
  cases e
  case load rom => exact absurd rfl (h rom)
  all_goals exact ⟨_, rfl⟩

/-! ### The memory after a `LOAD` (R33, R201) -/

theorem length_take_rom (rom : List Byte) : (rom.take 3584).length = min rom.length 3584 := by
  rw [List.length_take, Nat.min_comm]

/-- The font and then the ROM keep memory canonical: both lie below 4096 (R50). -/
theorem loadImage_mem_wf (hwf : s.mem.wf = true) (rom : List Byte) : (s.loadImage fontSet rom).mem.wf = true := by
  have hlen := length_take_rom rom
  have hfont := Memory.writeBytes_wf (bs := fontSet) (a := 0) hwf (by rw [length_fontSet]; decide)
  rw [State.loadImage_mem]
  exact Memory.writeBytes_wf hfont (by omega)

theorem loadImage_read_font (hwf : s.mem.wf = true) (rom : List Byte) {j : Nat} (hj : j < 80) :
    (s.loadImage fontSet rom).mem.read j = fontByte j := by
  have hlen := length_fontSet
  have hread := Memory.read_writeBytes (bs := fontSet) (a := 0) (j := j) hwf (by omega) (by omega)
  rw [State.loadImage_mem, Memory.read_writeBytes_other (.inl (by omega))]
  simpa [fontSet] using hread

theorem loadImage_read_rom (hwf : s.mem.wf = true) {rom : List Byte} {j : Nat} {b : Byte} (hj : j < 3584)
    (hb : rom[j]? = some b) : (s.loadImage fontSet rom).mem.read (0x200 + j) = b := by
  obtain ⟨hlt, hget⟩ := List.getElem?_eq_some_iff.1 hb
  have hlen := length_take_rom rom
  have hfont := Memory.writeBytes_wf (bs := fontSet) (a := 0) hwf (by rw [length_fontSet]; decide)
  rw [State.loadImage_mem, Memory.read_writeBytes hfont (by omega) (by omega), List.getElem_take, hget]

theorem loadImage_read_other (rom : List Byte) {a : Nat} (hfont : 80 ≤ a)
    (hrom : a < 0x200 ∨ 0x200 + min rom.length 3584 ≤ a) : (s.loadImage fontSet rom).mem.read a = s.mem.read a := by
  have hlen := length_take_rom rom
  rw [State.loadImage_mem, Memory.read_writeBytes_other (by omega),
    Memory.read_writeBytes_other (.inr (by rw [length_fontSet]; omega))]

theorem same_loadImage (font rom : List Byte) {p : StatePart} (hmem : p ≠ .memory) (himage : p ≠ .image) :
    p.same s (s.loadImage font rom) := by
  cases p <;> simp_all [StatePart.same]

end

/-! ### The obligations -/

/-- Settles O45 (R203, R205). -/
theorem startAndStopChangeRunOnly : Obligations.StartAndStopChangeRunOnly := by
  intro s rest hp
  refine ⟨fun hi hrun => ?_, fun hi hrun => ?_⟩
  · rw [step_event hp hi]
    exact congrArg _ (onStart_of_powerOn (s := { s with inputs := rest }) hrun)
  · rw [step_event hp hi]
    exact congrArg _ (onStop_of_active (s := { s with inputs := rest }) hrun)

/-- Settles O47 (R206, R231). -/
theorem terminalStatesIgnoreEvents : Obligations.TerminalStatesIgnoreEvents := by
  intro s hp hterminal
  obtain ⟨hpowerOn, hactive⟩ := terminal_iff.1 hterminal
  refine ⟨fun hi => ?_, fun e rest hi hreset hload => ?_⟩
  · rw [step_idle hp hi, onFrame_of_not_active hactive]
  · rw [step_event hp hi]
    exact onEvent_of_terminal hpowerOn hactive hreset hload

/-- Settles O48: the ROM begins above the font, so each is read back as it was written (R201, R202). -/
theorem loadPlacesFontAndRom : Obligations.LoadPlacesFontAndRom := by
  intro s rom rest hp hi hrun hloaded hwf
  have hrom {j b} := loadImage_read_rom (s := { s with inputs := rest }) (rom := rom) (j := j) (b := b) hwf
  have hother {a} := loadImage_read_other (s := { s with inputs := rest }) rom (a := a)
  have hcanonical := loadImage_mem_wf (s := { s with inputs := rest }) hwf rom
  refine ⟨State.loadImage { s with inputs := rest } fontSet rom, ?_, fun j hj => ?_, fun j b => hrom, fun a => hother, hcanonical,
    State.loadImage_loadTruncated _ _ _, State.loadImage_loaded _ _ _, State.loadImage_pc _ _ _, State.loadImage_drawFlag _ _ _,
    State.loadImage_inputs _ _ _, (State.loadImage_phase _ _ _).trans hp, State.loadImage_refreshes _ _ _,
    State.reg_congr (State.loadImage_V _ _ _),
    fun p hmem himage hschedule => ?_⟩
  · exact (step_event hp hi).trans (onEvent_first_load rom hrun hloaded)
  · have hread := loadImage_read_font (s := { s with inputs := rest }) hwf rom hj
    exact ⟨hread, hread ▸ fontByte_low_nibble j⟩
  · exact StatePart.same_trans ((sameBut_takeInput s rest).2 p (by simpa using hschedule)) (same_loadImage _ rom hmem himage)

/-- Settles O49: a tick and the end of a frame always answer, and of the events only `LOAD` has a condition (R201). -/
theorem onlyAnIllegalLoadIsRefused : Obligations.OnlyAnIllegalLoadIsRefused := by
  intro s
  have refused_of_illegal : ∀ rom rest, s.phase = .between → s.inputs = .load rom :: rest →
      (s.run ≠ .powerOn ∨ s.loaded = true) → step s = .refused .loadNotLegal := by
    intro rom rest hp hi hillegal
    exact (step_event hp hi).trans (onLoad_illegal rom hillegal)
  refine ⟨refused_of_illegal, ?_⟩
  cases hp : s.phase with
  | burst count => exact .inl (step_burst hp ▸ burstStep_answers count s)
  | between =>
    match hi : s.inputs with
    | [] => exact .inl ⟨_, step_idle hp hi⟩
    | .load rom :: rest =>
      by_cases hillegal : s.run ≠ .powerOn ∨ s.loaded = true
      · exact .inr ⟨refused_of_illegal rom rest hp hi hillegal, rfl, rom, rest, rfl, hillegal⟩
      · obtain ⟨hrun, hloaded⟩ := not_or.1 hillegal
        exact .inl ⟨_, (step_event hp hi).trans
          (onEvent_first_load rom (not_not.1 hrun) (Bool.eq_false_iff.2 hloaded))⟩
    | .reset :: rest | .start :: rest | .stop :: rest | .frame :: rest | .key _ _ :: rest =>
      exact .inl (step_event hp hi ▸ onEvent_answers (fun _ h => Event.noConfusion h) _)

/-- Settles O50 (R34, R250). -/
theorem resetRestoresEveryField : Obligations.ResetRestoresEveryField := by
  intro s rest hp hi
  refine ⟨State.applyReset { s with inputs := rest }, step_event hp hi, fun _ => rfl, fun r => ?_, rfl, rfl, fun j => ?_, rfl, rfl,
    rfl, fun k => ?_, rfl, Screen.pixel_blank, rfl, rfl, rfl, rfl, rfl, rfl, rfl⟩
  · simp [State.reg, State.reset]
  · simp [State.reset]
  · simp [State.key, State.reset]

/-- Settles O51: the reset state is one closed state (R34). -/
theorem resetMeetsTheInvariants : Obligations.ResetMeetsTheInvariants :=
  ⟨⟨rfl, by decide, by decide, nofun, nofun, fun _ => rfl, nofun⟩, nofun,
    fun _ => ⟨rfl, rfl, rfl, rfl, rfl, rfl, rfl, rfl, rfl, rfl, rfl, rfl⟩⟩

end Sys2Proof.Machine

/-! The invariant of the machine: what a tick keeps of memory, `pc` and the stack, what a step inside a frame and an event keep of the
rest, and the obligation. -/

namespace Sys2Proof.Machine

/-! ### Memory, `pc` and the stack through a tick (R23, R30, R100) -/

/-- The part of the invariant that is about memory, `pc` and the stack, which a tick may write. -/
structure State.Bounded (s : State) : Prop where
  memory : s.mem.wf = true
  pc : s.pc.toNat ≤ 0x10FE
  stack : ∀ j : Fin 16, (s.stack[j]).toNat ≤ 4096

theorem State.Inv.bounded {s : State} (h : s.Inv) : s.Bounded := ⟨h.memory, h.pc, h.stack⟩

section
variable {s t : State} {i : Instr}

theorem toNat_add_two {v : Word} (h : v.toNat ≤ 4094) : (v + 2).toNat = v.toNat + 2 := by
  rw [BitVec.toNat_add]
  exact Nat.mod_eq_of_lt (by change v.toNat + 2 < 65536; omega)

theorem advance_skipIf_pc_le (hpc : s.pc.toNat ≤ 4094) (c : Bool) : (s.advance.skipIf c).pc.toNat ≤ 4098 := by
  have hv : (if c then 4 else 2 : Word).toNat ≤ 4 := by cases c <;> decide
  rw [State.advance_skipIf_pc, BitVec.toNat_add]
  omega

/-- Where an instruction that passes its check leaves `pc`: a 12-bit address, an entry of the stack, the sum of `Bnnn`, or at most
four further (R23). -/
theorem exec_pc_le (hi : i.wf = true) (hpc : s.pc.toNat ≤ 4094) (hstack : ∀ j : Fin 16, (s.stack[j]).toNat ≤ 4096)
    (h : exec i s = .next t) (hc : ¬Instr.checkFails i s) : t.pc.toNat ≤ 0x10FE := by
  cases i
  case ret =>
    have hpos : 0 < s.SP.val := Nat.pos_of_ne_zero hc
    cases (exec_ret_of_pos s hpos).symm.trans h
    have hj : s.SP.val - 1 < 16 := by have := s.SP.isLt; omega
    have hle := hstack ⟨_, hj⟩
    rw [← s.top_eq_entry hpos rfl] at hle
    exact hle.trans (by decide)
  case call nnn =>
    have hfree : s.SP.val < 16 := Nat.lt_of_le_of_ne (Nat.le_of_lt_succ s.SP.isLt) hc
    cases (exec_call_of_lt s nnn hfree).symm.trans h
    exact (of_decide_eq_true hi).le.trans (by decide)
  case jp nnn =>
    cases h
    exact (of_decide_eq_true hi).le.trans (by decide)
  case jpV0 nnn =>
    obtain ⟨u, hu, -, hle, -⟩ := jumpWithOffsetIsNotMasked s nnn (of_decide_eq_true hi)
    cases hu.symm.trans h
    exact hle
  case seImm | sneImm | seReg | sneReg =>
    cases h
    exact (advance_skipIf_pc_le hpc _).trans (by decide)
  case skp x =>
    obtain ⟨k, hk⟩ := exists_key_of_le (Nat.not_lt.1 hc)
    cases (exec_skp_of_key s hk).symm.trans h
    exact (advance_skipIf_pc_le hpc _).trans (by decide)
  case sknp x =>
    obtain ⟨k, hk⟩ := exists_key_of_le (Nat.not_lt.1 hc)
    cases (exec_sknp_of_key s hk).symm.trans h
    exact (advance_skipIf_pc_le hpc _).trans (by decide)
  all_goals
    rw [(exec_footprint h hc).pc rfl, toNat_add_two hpc]
    omega

/-- Only a call writes the stack, with the address after itself (R92, R100). -/
theorem exec_stack_le (hpc : s.pc.toNat ≤ 4094) (hstack : ∀ j : Fin 16, (s.stack[j]).toNat ≤ 4096) (h : exec i s = .next t)
    (hc : ¬Instr.checkFails i s) (j : Fin 16) : (t.stack[j]).toNat ≤ 4096 := by
  by_cases hcall : ∃ nnn, i = .call nnn
  · obtain ⟨nnn, rfl⟩ := hcall
    have hfree : s.SP.val < 16 := Nat.lt_of_le_of_ne (Nat.le_of_lt_succ s.SP.isLt) hc
    cases (exec_call_of_lt s nnn hfree).symm.trans h
    have hentry := s.advance.push_entry (s.pc + 2) hfree j
    refine (congrArg BitVec.toNat hentry).trans_le ?_
    split
    · rw [toNat_add_two hpc]
      omega
    · exact hstack j
  · rw [(exec_footprint h hc).stack fun nnn hi => hcall ⟨nnn, hi⟩]
    exact hstack j

/-- Only the two stores write memory, inside it (R53, R55). -/
theorem exec_mem_wf (hmem : s.mem.wf = true) (h : exec i s = .next t) (hc : ¬Instr.checkFails i s) : t.mem.wf = true := by
  cases i
  case ldB x =>
    have hin : s.I.toNat + 2 ≤ 4095 := Nat.not_lt.1 hc
    cases (exec_ldB_of_inRange s x hin).symm.trans h
    exact Memory.writeBytes_wf hmem (show s.I.toNat + 3 ≤ 4096 by omega)
  case storeRegs x =>
    have hin : s.I.toNat + x.val ≤ 4095 := Nat.not_lt.1 hc
    have hlen := s.length_regsUpTo x
    cases (exec_storeRegs_of_inRange s x hin).symm.trans h
    exact Memory.writeBytes_wf hmem (by omega)
  all_goals
    rw [(exec_footprint h hc).mem (by simp [Instr.partsWritten])]
    exact hmem

theorem exec_bounded (hi : i.wf = true) (hs : s.Bounded) (hpc : s.pc.toNat ≤ 4094) (h : exec i s = .next t) : t.Bounded := by
  rcases exec_checked h with ⟨-, c, -, rfl⟩ | ⟨hc, -⟩
  · exact ⟨hs.memory, hs.pc, hs.stack⟩
  · exact ⟨exec_mem_wf hs.memory h hc, exec_pc_le hi hpc hs.stack h hc, exec_stack_le hpc hs.stack h hc⟩

theorem tick_bounded (hs : s.Bounded) (h : tick s = .next t) : t.Bounded := by
  rcases tick_cases h with ⟨_, _, rfl⟩ | ⟨_, _, rfl⟩ | ⟨_, _, _, _, _, rfl⟩ | ⟨op, i, _, hf, hd, he⟩
  case inl => exact hs
  case inr.inl | inr.inr.inl => exact ⟨hs.memory, hs.pc, hs.stack⟩
  case inr.inr.inr => exact exec_bounded (decode_wf hd) hs (State.fetch_eq_some.1 hf).1 he

end

/-! ### The invariant through a step -/

section
variable {s t : State}

/-- Between frames, with memory, `pc`, the stack and the `LOAD` record of a state of the invariant. -/
theorem State.Inv.between (hs : s.Bounded) (hload : s.loadTruncated = true → s.loaded = true) (hmem : t.mem = s.mem)
    (hpc : t.pc = s.pc) (hstack : t.stack = s.stack) (hphase : t.phase = .between) (hdraw : t.drawFlag = false)
    (htrunc : t.loadTruncated = s.loadTruncated) (hloaded : t.loaded = s.loaded) : t.Inv where
  memory := hmem ▸ hs.memory
  pc := hpc ▸ hs.pc
  stack := hstack ▸ hs.stack
  frame h := absurd hphase h
  ticks _ h := nomatch hphase.symm.trans h
  drawFlag _ := hdraw
  truncated h := hloaded.trans (hload (htrunc.symm.trans h))

theorem inv_leaveFrame (hs : s.Bounded) (hload : s.loadTruncated = true → s.loaded = true) : s.leaveFrame.Inv :=
  .between hs hload rfl rfl rfl rfl rfl rfl rfl

theorem inv_closeFrame (hs : s.Inv) : s.closeFrame.Inv :=
  .between hs.bounded hs.truncated rfl rfl rfl rfl rfl rfl rfl

theorem inv_afterTick {count : Nat} (hs : s.Inv) (hcount : count < 12) (h : tick s = .next t) : (t.afterTick count).Inv := by
  have hbounded := tick_bounded hs.bounded h
  have hkeeps := tick_keeps h
  have hload : t.loadTruncated = true → t.loaded = true := by
    rw [hkeeps.loadTruncated, hkeeps.loaded]
    exact hs.truncated
  by_cases hrun : t.run = .active
  · rw [afterTick_active hrun]
    exact ⟨hbounded.memory, hbounded.pc, hbounded.stack, fun _ => hrun, fun _ h => by cases h; exact hcount, nofun, hload⟩
  · rw [afterTick_stopped hrun]
    exact inv_leaveFrame hbounded hload

theorem inv_burstStep {count : Nat} (hs : s.Inv) (h : burstStep count s = .next t) : t.Inv := by
  rcases burstStep_cases h with ⟨-, rfl⟩ | ⟨-, -, rfl⟩ | ⟨-, hgo, u, hu, rfl⟩
  · exact inv_leaveFrame hs.bounded hs.truncated
  · exact inv_closeFrame hs
  · exact inv_afterTick hs (burstGoesOn_iff.1 hgo).1 hu

theorem inv_onFrame (hs : s.Inv) : (onFrame s).Inv := by
  by_cases hrun : s.run = .active
  · rw [onFrame_of_active hrun]
    exact ⟨hs.memory, hs.pc, hs.stack, fun _ => hrun, fun _ h => by cases h; decide, nofun, hs.truncated⟩
  · rwa [onFrame_of_not_active hrun]

theorem inv_handleKey (hs : s.Inv) (hp : s.phase = .between) (k : Key) (pressed : Bool) : (s.handleKey k pressed).Inv := by
  obtain ⟨hmem, hpc, hstack, -, hphase, hdraw, htrunc, hloaded⟩ := handleKey_keeps s k pressed
  exact .between hs.bounded hs.truncated hmem hpc hstack (hphase.trans hp) (hdraw.trans (hs.drawFlag hp)) htrunc hloaded

theorem inv_loadImage (hs : s.Inv) (hp : s.phase = .between) {font rom : List Byte}
    (hmem : (s.loadImage font rom).mem.wf = true) : (s.loadImage font rom).Inv where
  memory := hmem
  pc := hs.pc
  stack := hs.stack
  frame h := absurd hp h
  ticks _ h := nomatch hp.symm.trans h
  drawFlag := hs.drawFlag
  truncated _ := rfl

theorem inv_applyReset : s.applyReset.Inv :=
  .between (s := State.reset) ⟨rfl, by decide, by decide⟩ nofun rfl rfl rfl rfl rfl rfl rfl

/-- An event that writes `run` and nothing else keeps the invariant between frames. -/
theorem inv_setRun (hs : s.Inv) (hp : s.phase = .between) (r : RunState) : State.Inv { s with run := r } :=
  .between hs.bounded hs.truncated rfl rfl rfl hp (hs.drawFlag hp) rfl rfl

theorem inv_onEvent {e : Event} (hs : s.Inv) (hp : s.phase = .between) (h : onEvent e s = .next t) : t.Inv := by
  cases e with
  | reset => cases h; exact inv_applyReset
  | load rom =>
    obtain ⟨-, -, rfl⟩ := onLoad_next h
    exact inv_loadImage hs hp (loadImage_mem_wf hs.memory rom)
  | start =>
    cases h
    rcases onStart_cases s with ⟨-, h⟩ | ⟨-, h⟩ | ⟨-, -, h⟩ <;> rw [h]
    · exact inv_setRun hs hp _
    · exact inv_setRun hs hp _
    · exact hs
  | key k pressed =>
    cases h
    rcases onKey_cases k pressed s with ⟨-, h⟩ | ⟨-, h⟩ | ⟨-, -, h⟩ <;> rw [h]
    · exact inv_setRun hs hp _
    · exact inv_handleKey hs hp k pressed
    · exact hs
  | stop =>
    cases h
    rcases onStop_cases s with ⟨-, h⟩ | ⟨-, h⟩ | ⟨-, -, h⟩ <;> rw [h]
    · exact inv_setRun hs hp _
    · exact inv_setRun hs hp _
    · exact hs
  | frame => cases h; exact inv_onFrame hs

end

/-- Settles O52, by the three kinds of step: a frame boundary, an event, a step inside a frame. -/
theorem everyStepKeepsTheInvariant : Obligations.EveryStepKeepsTheInvariant := by
  intro s t hs h
  rcases step_cases h with ⟨-, -, rfl⟩ | ⟨e, rest, hp, -, he⟩ | ⟨count, -, hb⟩
  · exact inv_onFrame hs
  · have hinput : State.Inv { s with inputs := rest } :=
      .between hs.bounded hs.truncated rfl rfl rfl hp (hs.drawFlag hp) rfl rfl
    exact inv_onEvent hinput hp he
  · exact inv_burstStep hs hb

end Sys2Proof.Machine

/-! What else every step keeps: the rule of fault records, the rule of the state before `START`, and the loop of a self-jump. -/

namespace Sys2Proof.Machine

section
variable {s t : State}

/-! ### Fault records (R220, R230) -/

/-- A state that is not `Faulted` has no record to be wrong. -/
theorem faultRecordOk_of_not_faulted (h : t.isFaulted = false) : t.FaultRecordOk := by
  intro c addr opcode hrun
  simp [State.isFaulted, hrun] at h

theorem isFaulted_of_active (h : t.run = .active) : t.isFaulted = false := by simp [State.isFaulted, h]

/-- The rule depends on `run`, `pc` and memory alone. -/
theorem faultRecordOk_congr (hs : s.FaultRecordOk) (hrun : t.run = s.run) (hpc : t.pc = s.pc) (hmem : t.mem = s.mem) :
    t.FaultRecordOk := by
  intro c addr opcode h
  have hfetch : t.fetch = s.fetch := by simp only [State.fetch, hpc, hmem]
  rw [hpc, hfetch]
  exact hs c addr opcode (hrun.symm.trans h)

theorem faultRecordOk_protocolViolation : (protocolViolation s).FaultRecordOk := by
  intro c addr opcode h
  cases h
  exact .inl ⟨rfl, rfl, rfl⟩

/-- The record a tick leaves: the address `pc` holds and the word there (R220 to R226). -/
theorem faultRecordOk_takeFault {c : Cause} (hc : c ≠ .protocolViolation) (hnone : s.fetch = none → c = .memOutOfRange)
    (hrun : t.run = .faulted c (some s.pc) s.fetch) (hpc : t.pc = s.pc) (hmem : t.mem = s.mem) : t.FaultRecordOk := by
  intro c' addr opcode h
  cases hrun.symm.trans h
  have hfetch : t.fetch = s.fetch := by simp only [State.fetch, hpc, hmem]
  rw [hpc, hfetch]
  exact .inr ⟨hc, rfl, fun hf => ⟨hnone hf, State.fetch_eq_none.1 hf⟩, fun op hf => ⟨(State.fetch_eq_some.1 hf).1, hf⟩⟩

theorem faultRecordOk_burstStep {count : Nat} (hs : s.FaultRecordOk) (h : burstStep count s = .next t) : t.FaultRecordOk := by
  rcases burstStep_cases h with ⟨-, rfl⟩ | ⟨-, -, rfl⟩ | ⟨hrun, -, u, hu, rfl⟩
  · exact faultRecordOk_congr hs rfl rfl rfl
  · exact faultRecordOk_congr hs rfl rfl rfl
  · by_cases hactive : u.run = .active
    · rw [afterTick_active hactive]
      exact faultRecordOk_of_not_faulted (isFaulted_of_active hactive)
    · obtain ⟨c, hc, rfl, hnone⟩ := tick_fault hrun hu hactive
      rw [afterTick_stopped hactive]
      exact faultRecordOk_takeFault hc hnone rfl rfl rfl

theorem faultRecordOk_onFrame (hs : s.FaultRecordOk) : (onFrame s).FaultRecordOk := by
  by_cases hrun : s.run = .active
  · rw [onFrame_of_active hrun]
    exact faultRecordOk_congr hs rfl rfl rfl
  · rwa [onFrame_of_not_active hrun]

theorem faultRecordOk_onEvent {e : Event} (hs : s.FaultRecordOk) (h : onEvent e s = .next t) : t.FaultRecordOk := by
  cases e with
  | reset => cases h; exact faultRecordOk_of_not_faulted rfl
  | load rom =>
    obtain ⟨hrun, -, rfl⟩ := onLoad_next h
    exact faultRecordOk_of_not_faulted (by simp [State.isFaulted, hrun])
  | start =>
    cases h
    rcases onStart_cases s with ⟨-, h⟩ | ⟨-, h⟩ | ⟨-, -, h⟩ <;> rw [h]
    · exact faultRecordOk_of_not_faulted rfl
    · exact faultRecordOk_protocolViolation
    · exact hs
  | key k pressed =>
    cases h
    rcases onKey_cases k pressed s with ⟨-, h⟩ | ⟨hrun, h⟩ | ⟨-, -, h⟩ <;> rw [h]
    · exact faultRecordOk_protocolViolation
    · obtain ⟨-, -, -, hkeep, -⟩ := handleKey_keeps s k pressed
      exact faultRecordOk_of_not_faulted (isFaulted_of_active (hkeep.trans hrun))
    · exact hs
  | stop =>
    cases h
    rcases onStop_cases s with ⟨-, h⟩ | ⟨-, h⟩ | ⟨-, -, h⟩ <;> rw [h]
    · exact faultRecordOk_protocolViolation
    · exact faultRecordOk_of_not_faulted rfl
    · exact hs
  | frame => cases h; exact faultRecordOk_onFrame hs

/-! ### Before `START` (R193, R201, R252) -/

/-- A state that is not in `PowerOn` owes nothing. -/
theorem fresh_of_not_powerOn (h : t.run ≠ .powerOn) : t.FreshBeforeStart := fun hrun => absurd hrun h

theorem fresh_applyReset : s.applyReset.FreshBeforeStart :=
  fun _ => ⟨rfl, rfl, rfl, rfl, rfl, rfl, rfl, rfl, rfl, rfl, rfl, rfl⟩

theorem fresh_loadImage (hs : s.FreshBeforeStart) (font rom : List Byte) : (s.loadImage font rom).FreshBeforeStart := hs

/-- Inside a frame a machine is past `START`. -/
theorem run_ne_powerOn_of_burst {count : Nat} (hs : s.FreshBeforeStart) (hp : s.phase = .burst count) : s.run ≠ .powerOn := by
  intro hrun
  obtain ⟨-, -, -, -, -, -, -, -, -, -, hphase, -⟩ := hs hrun
  exact nomatch hp.symm.trans hphase

theorem fresh_onEvent {e : Event} (hs : s.FreshBeforeStart) (h : onEvent e s = .next t) : t.FreshBeforeStart := by
  cases e with
  | reset => cases h; exact fresh_applyReset
  | load rom =>
    obtain ⟨-, -, rfl⟩ := onLoad_next h
    exact fresh_loadImage hs fontSet rom
  | start =>
    cases h
    rcases onStart_cases s with ⟨-, h⟩ | ⟨-, h⟩ | ⟨-, -, h⟩ <;> rw [h]
    · exact fresh_of_not_powerOn nofun
    · exact fresh_of_not_powerOn nofun
    · exact hs
  | key k pressed =>
    cases h
    rcases onKey_cases k pressed s with ⟨-, h⟩ | ⟨hrun, h⟩ | ⟨-, -, h⟩ <;> rw [h]
    · exact fresh_of_not_powerOn nofun
    · obtain ⟨-, -, -, hkeep, -⟩ := handleKey_keeps s k pressed
      exact fresh_of_not_powerOn (by simp [hkeep, hrun])
    · exact hs
  | stop =>
    cases h
    rcases onStop_cases s with ⟨-, h⟩ | ⟨-, h⟩ | ⟨-, -, h⟩ <;> rw [h]
    · exact fresh_of_not_powerOn nofun
    · exact fresh_of_not_powerOn nofun
    · exact hs
  | frame =>
    cases h
    by_cases hrun : s.run = .active
    · rw [onFrame_of_active hrun]
      exact fresh_of_not_powerOn (by simp [hrun])
    · rwa [onFrame_of_not_active hrun]

/-! ### The loop of a self-jump (R91, R208) -/

/-- The loop depends on these five fields alone; where in a frame the machine is does not matter. -/
theorem inSelfJump_congr (hs : s.InSelfJump) (hrun : t.run = s.run) (hexec : t.execState = s.execState)
    (hinputs : t.inputs = s.inputs) (hpc : t.pc = s.pc) (hmem : t.mem = s.mem) : t.InSelfJump where
  run := hrun.trans hs.run
  execState := hexec.trans hs.execState
  inputs := hinputs.trans hs.inputs
  fetchable := hpc ▸ hs.fetchable
  word := by rw [hpc, hmem]; exact hs.word

/-- A tick in the loop is the jump (R91). -/
theorem tick_selfJump (hs : s.InSelfJump) : tick s = .next (s.advance.setPc s.pc) :=
  tick_exec hs.execState (State.fetch_eq_some.2 ⟨hs.fetchable, rfl⟩) hs.word

theorem step_selfJump (hs : s.InSelfJump) : ∃ t, step s = .next t ∧ t.InSelfJump ∧ t.pc = s.pc := by
  cases hp : s.phase with
  | between =>
    rw [step_idle hp hs.inputs, onFrame_of_active hs.run]
    exact ⟨_, rfl, inSelfJump_congr hs rfl rfl rfl rfl rfl, rfl⟩
  | burst count =>
    by_cases hgo : s.burstGoesOn count = true
    · rw [step_tick hp hs.run hgo (tick_selfJump hs), afterTick_active (t := s.advance.setPc s.pc) hs.run]
      exact ⟨_, rfl, inSelfJump_congr hs rfl rfl rfl rfl rfl, rfl⟩
    · rw [step_closeFrame hp hs.run (Bool.eq_false_iff.2 hgo)]
      exact ⟨_, rfl, inSelfJump_congr hs rfl rfl rfl rfl rfl, rfl⟩

theorem safeRun_of_inSelfJump (k : Nat) (hs : s.InSelfJump) : SafeRun k s := by
  induction k generalizing s with
  | zero => exact isFaulted_of_active hs.run
  | succ k ih =>
    obtain ⟨t, ht, hloop, -⟩ := step_selfJump hs
    exact ⟨isFaulted_of_active hs.run, t, ht, ih hloop⟩

end

/-! ### The obligations -/

/-- Settles O53: only a faulting tick and a protocol violation write a record, and neither touches `pc` or memory. -/
theorem everyStepKeepsFaultRecords : Obligations.EveryStepKeepsFaultRecords := by
  intro s t hs h
  rcases step_cases h with ⟨-, -, rfl⟩ | ⟨e, rest, -, -, he⟩ | ⟨count, -, hb⟩
  · exact faultRecordOk_onFrame hs
  · exact faultRecordOk_onEvent (faultRecordOk_congr (t := { s with inputs := rest }) hs rfl rfl rfl) he
  · exact faultRecordOk_burstStep hs hb

/-- Settles O54: a frame boundary and a step inside a frame do nothing in `PowerOn`, and of the events only `RESET` and `LOAD` end
there. -/
theorem nothingMovesBeforeStart : Obligations.NothingMovesBeforeStart := by
  intro s t hs h
  rcases step_cases h with ⟨-, -, rfl⟩ | ⟨e, rest, -, -, he⟩ | ⟨count, hp, hb⟩
  · exact fresh_onEvent (e := .frame) hs rfl
  · exact fresh_onEvent (s := { s with inputs := rest }) hs he
  · refine fresh_of_not_powerOn fun hpowerOn => ?_
    obtain ⟨-, -, -, -, hrun | ⟨-, hfaulted⟩⟩ := noHostEventInsideAFrame s t count hp h
    · exact run_ne_powerOn_of_burst hs hp (hrun.symm.trans hpowerOn)
    · simp [State.isFaulted, hpowerOn] at hfaulted

/-- Settles O59: a frame boundary, a tick of the jump and the end of a frame each stay in the loop (R91, R208). -/
theorem everyStepStaysInASelfJump : Obligations.EveryStepStaysInASelfJump := by
  intro s hs
  obtain ⟨t, ht, hloop, hpc⟩ := step_selfJump hs
  exact ⟨t, ht, hloop, hpc, isFaulted_of_active hloop.run⟩

/-- Settles O58, by induction on the number of steps from the loop's invariant. -/
theorem selfJumpIsSafeForEver : Obligations.SelfJumpIsSafeForEver :=
  fun _ k _ hinputs hrun hexec hpc hword => safeRun_of_inSelfJump k ⟨hrun, hexec, hinputs, hpc, hword⟩

end Sys2Proof.Machine

/-! The sprite draw in closed form (43_display.md section 1): the pixels a sprite hits as a list, that no pixel is hit twice, the grid and
the collision after a list of distinct hits, and the obligations of `draw` and `Dxyn`. -/

namespace Sys2Proof.Machine

/-! ### XORing a list of pixels (R153, R156) -/

/-- One hit: the pixel is XORed, and collides if it was lit. -/
def xorPixel (acc : Screen × Bool) (p : Nat × Nat) : Screen × Bool := (acc.1.flip p.1 p.2, acc.2 || acc.1.pixel p.1 p.2)

theorem pixel_xorPixel (acc : Screen × Bool) {p : Nat × Nat} (hp : p.1 < 32 ∧ p.2 < 64) (row col : Nat) :
    (xorPixel acc p).1.pixel row col = (acc.1.pixel row col ^^ decide ((row, col) = p)) := by
  have hiff : (row = p.1 ∧ col = p.2 ∧ p.1 < 32 ∧ p.2 < 64) ↔ (row, col) = p := by
    rw [Prod.ext_iff]
    exact ⟨fun h => ⟨h.1, h.2.1⟩, fun h => ⟨h.1, h.2, hp⟩⟩
  rw [xorPixel, Screen.pixel_flip]
  simp only [hiff]
  by_cases h : (row, col) = p <;> simp [h]

/-- XORing distinct pixels of the grid one after the other flips each of them once (R153). -/
theorem pixel_foldl_xorPixel {hits : List (Nat × Nat)} (hnodup : hits.Nodup) (hin : ∀ p ∈ hits, p.1 < 32 ∧ p.2 < 64)
    (acc : Screen × Bool) (row col : Nat) :
    (hits.foldl xorPixel acc).1.pixel row col = (acc.1.pixel row col ^^ decide ((row, col) ∈ hits)) := by
  induction hits generalizing acc with
  | nil => simp
  | cons p hits ih =>
    obtain ⟨hp, hrest⟩ := List.nodup_cons.1 hnodup
    obtain ⟨hpin, hrestin⟩ := List.forall_mem_cons.1 hin
    rw [List.foldl_cons, ih hrest hrestin, pixel_xorPixel acc hpin]
    by_cases h : (row, col) = p
    · simp [h, hp]
    · simp [h]

/-- The collision of distinct hits is whether one of them was lit before the first (R156). -/
theorem collision_foldl_xorPixel {hits : List (Nat × Nat)} (hnodup : hits.Nodup) (hin : ∀ p ∈ hits, p.1 < 32 ∧ p.2 < 64)
    (acc : Screen × Bool) :
    (hits.foldl xorPixel acc).2 = true ↔ acc.2 = true ∨ ∃ p ∈ hits, acc.1.pixel p.1 p.2 = true := by
  induction hits generalizing acc with
  | nil => simp
  | cons p hits ih =>
    obtain ⟨hp, hrest⟩ := List.nodup_cons.1 hnodup
    obtain ⟨hpin, hrestin⟩ := List.forall_mem_cons.1 hin
    have hlater : ∀ q ∈ hits, (xorPixel acc p).1.pixel q.1 q.2 = acc.1.pixel q.1 q.2 := by
      intro q hq
      have hne : q ≠ p := fun h => hp (h ▸ hq)
      simp [pixel_xorPixel acc hpin, hne]
    rw [List.foldl_cons, ih hrest hrestin, List.exists_mem_cons_iff]
    have hsame : (∃ q ∈ hits, (xorPixel acc p).1.pixel q.1 q.2 = true) ↔ ∃ q ∈ hits, acc.1.pixel q.1 q.2 = true :=
      exists_congr fun q => and_congr_right fun hq => by rw [hlater q hq]
    rw [hsame, xorPixel, Bool.or_eq_true, or_assoc]

/-! ### The pixels a sprite hits -/

/-- The pixel the bit at column offset `c` of a sprite row hits, if it is set and lands in the grid (R154, R155). -/
def bitHit (wraps : Bool) (row cx : Nat) (b : Byte) (c : Nat) : Option (Nat × Nat) :=
  if b.getLsbD (7 - c) then (scanCoord wraps 64 (cx + c)).map fun col => (row, col) else none

/-- The pixels a sprite row at `row` hits, left to right. -/
def rowHits (wraps : Bool) (row cx : Nat) (b : Byte) : List (Nat × Nat) := (List.range 8).filterMap (bitHit wraps row cx b)

/-- The pixels the rows of a sprite from row coordinate `y` on hit, top to bottom. -/
def spriteHits (wraps : Bool) (cx : Nat) : Nat → List Byte → List (Nat × Nat)
  | _, [] => []
  | y, b :: bs => ((scanCoord wraps 32 y).elim [] fun row => rowHits wraps row cx b) ++ spriteHits wraps cx (y + 1) bs

theorem drawBit_eq (wraps : Bool) (row cx : Nat) (b : Byte) (acc : Screen × Bool) (c : Nat) :
    drawBit wraps row cx b acc c = ((bitHit wraps row cx b c).elim acc (xorPixel acc)) := by
  unfold drawBit bitHit
  cases scanCoord wraps Config.fbWidth (cx + c) <;> cases b.getLsbD (7 - c) <;> rfl

theorem drawRow_eq (wraps : Bool) (row cx : Nat) (b : Byte) (acc : Screen × Bool) :
    drawRow wraps row cx b acc = (rowHits wraps row cx b).foldl xorPixel acc := by
  unfold drawRow rowHits
  rw [List.foldl_filterMap]
  congr 1
  funext acc c
  rw [drawBit_eq]
  cases bitHit wraps row cx b c <;> rfl

/-- The scan of R153 is the XOR of the pixels the sprite hits, one after the other. -/
theorem drawRows_eq (wraps : Bool) (cx y : Nat) (bs : List Byte) (acc : Screen × Bool) :
    drawRows wraps cx y bs acc = (spriteHits wraps cx y bs).foldl xorPixel acc := by
  induction bs generalizing y acc with
  | nil => rfl
  | cons b bs ih =>
    rw [drawRows, spriteHits, List.foldl_append]
    cases hrow : scanCoord wraps Config.fbHeight y with
    | none => simp [ih]
    | some row => simp [ih, drawRow_eq]

/-! ### Which pixels these are, and that none is hit twice -/

theorem bitHit_eq_some {wraps : Bool} {row cx c : Nat} {b : Byte} {p : Nat × Nat} :
    bitHit wraps row cx b c = some p ↔ p.1 = row ∧ b.getLsbD (7 - c) = true ∧ scanCoord wraps 64 (cx + c) = some p.2 := by
  unfold bitHit
  cases b.getLsbD (7 - c)
  · simp
  · cases scanCoord wraps 64 (cx + c) <;> simp [Prod.ext_iff, eq_comm]

/-- A set bit of a sprite row lands on column `col` (R154, R155). -/
def BitLands (wraps : Bool) (cx : Nat) (b : Byte) (col : Nat) : Prop :=
  ∃ c < 8, b.getLsbD (7 - c) = true ∧ scanCoord wraps 64 (cx + c) = some col

theorem mem_rowHits {wraps : Bool} {row cx : Nat} {b : Byte} {p : Nat × Nat} :
    p ∈ rowHits wraps row cx b ↔ p.1 = row ∧ BitLands wraps cx b p.2 := by
  simp only [BitLands, rowHits, List.mem_filterMap, List.mem_range, bitHit_eq_some]
  constructor
  · rintro ⟨c, hc, hrow, hbit⟩
    exact ⟨hrow, c, hc, hbit⟩
  · rintro ⟨hrow, c, hc, hbit⟩
    exact ⟨c, hc, hrow, hbit⟩

theorem mem_spriteHits {wraps : Bool} {cx y : Nat} {bs : List Byte} {p : Nat × Nat} :
    p ∈ spriteHits wraps cx y bs ↔
      ∃ r b, bs[r]? = some b ∧ scanCoord wraps 32 (y + r) = some p.1 ∧ BitLands wraps cx b p.2 := by
  induction bs generalizing y with
  | nil => simp [spriteHits]
  | cons b bs ih =>
    have hhead : (p ∈ (scanCoord wraps 32 y).elim [] fun row => rowHits wraps row cx b) ↔
        scanCoord wraps 32 y = some p.1 ∧ BitLands wraps cx b p.2 := by
      cases scanCoord wraps 32 y with
      | none => simp
      | some row => simp [mem_rowHits, eq_comm (a := row)]
    rw [spriteHits, List.mem_append, hhead, ih]
    conv_rhs => rw [← Nat.or_exists_add_one]
    simp [Nat.add_assoc, Nat.add_comm 1]

/-- Two coordinates less than the size apart do not land on the same place. -/
theorem scanCoord_ne {wraps : Bool} {size a a' k k' : Nat} (h : scanCoord wraps size a = some k)
    (h' : scanCoord wraps size a' = some k') (hlt : a < a') (hnear : a' < a + size) : k ≠ k' := by
  rintro rfl
  cases wraps
  · rw [scanCoord_clip] at h h'
    omega
  · rw [scanCoord_wrap, Option.some.injEq] at h h'
    have hdvd : size ∣ a' - a := (Nat.modEq_iff_dvd' hlt.le).1 (h.trans h'.symm)
    have hle := Nat.le_of_dvd (by omega) hdvd
    omega

theorem scanCoord_lt {wraps : Bool} {size a k : Nat} (hsize : 0 < size) (h : scanCoord wraps size a = some k) : k < size := by
  cases wraps
  · rw [scanCoord_clip] at h
    omega
  · rw [scanCoord_wrap, Option.some.injEq] at h
    exact h ▸ Nat.mod_lt a hsize

theorem spriteHits_inGrid {wraps : Bool} {cx y : Nat} {bs : List Byte} :
    ∀ p ∈ spriteHits wraps cx y bs, p.1 < 32 ∧ p.2 < 64 := by
  intro p hp
  obtain ⟨r, b, -, hrow, c, -, -, hcol⟩ := mem_spriteHits.1 hp
  exact ⟨scanCoord_lt (by decide) hrow, scanCoord_lt (by decide) hcol⟩

theorem nodup_rowHits (wraps : Bool) (row cx : Nat) (b : Byte) : (rowHits wraps row cx b).Nodup := by
  have hnear : (List.range 8).Pairwise fun c c' => c < c' ∧ c' < c + 64 :=
    List.pairwise_lt_range.imp_of_mem fun hc hc' hlt => ⟨hlt, by have := List.mem_range.1 hc'; omega⟩
  refine hnear.filterMap _ fun c c' hcc p hp q hq hpq => ?_
  obtain ⟨-, -, hcol⟩ := bitHit_eq_some.1 hp
  obtain ⟨-, -, hcol'⟩ := bitHit_eq_some.1 hq
  exact scanCoord_ne hcol hcol' (by omega) (by omega) (congrArg Prod.snd hpq)

/-- A sprite of at most 32 rows hits no pixel twice: two rows, and two bits of a row, land apart (R153, R155). -/
theorem nodup_spriteHits (wraps : Bool) (cx y : Nat) {bs : List Byte} (hlen : bs.length ≤ 32) :
    (spriteHits wraps cx y bs).Nodup := by
  induction bs generalizing y with
  | nil => exact List.nodup_nil
  | cons b bs ih =>
    rw [List.length_cons] at hlen
    rw [spriteHits]
    cases hrow : scanCoord wraps 32 y with
    | none => exact ih (y + 1) (by omega)
    | some row =>
      refine List.nodup_append.2 ⟨nodup_rowHits wraps row cx b, ih (y + 1) (by omega), fun p hp q hq hpq => ?_⟩
      obtain ⟨hp_row, -⟩ := mem_rowHits.1 hp
      obtain ⟨r, b', hr, hq_row, -⟩ := mem_spriteHits.1 hq
      have hlt := (List.getElem?_eq_some_iff.1 hr).1
      exact scanCoord_ne hrow hq_row (by omega) (by omega) (hp_row.symm.trans (congrArg Prod.fst hpq))

/-! ### `draw` in closed form -/

section
variable (q : Config.Quirks) (f : Screen) (x0 y0 : Byte) (sprite : List Byte)

/-- The pixels `draw` hits from its wrapped anchor. -/
def drawHits : List (Nat × Nat) := spriteHits q.drawWrapsPixels (x0.toNat % 64) (y0.toNat % 32) sprite

theorem draw_eq : draw q f x0 y0 sprite = (drawHits q x0 y0 sprite).foldl xorPixel (f, false) :=
  drawRows_eq _ _ _ _ _

/-- Inside the grid the hits are those of the closed form of R153 to R155. -/
theorem mem_drawHits {row col : Nat} (hrow : row < 32) (hcol : col < 64) :
    (row, col) ∈ drawHits q x0 y0 sprite ↔ SpriteHits q.drawWrapsPixels x0 y0 sprite row col := by
  have hplace (r c : Nat) :
      (scanCoord q.drawWrapsPixels 32 (y0.toNat % 32 + r) = some row ∧
        scanCoord q.drawWrapsPixels 64 (x0.toNat % 64 + c) = some col) ↔
      if q.drawWrapsPixels then row = (y0.toNat % 32 + r) % 32 ∧ col = (x0.toNat % 64 + c) % 64
      else row = y0.toNat % 32 + r ∧ col = x0.toNat % 64 + c := by
    cases q.drawWrapsPixels
    · simp only [scanCoord_clip, Bool.false_eq_true, if_false]
      omega
    · simp only [scanCoord_wrap, Option.some.injEq, if_true, eq_comm]
  rw [drawHits, mem_spriteHits, SpriteHits]
  constructor
  · rintro ⟨r, b, hr, hrow', c, hc, hbit, hcol'⟩
    exact ⟨r, c, b, hr, hc, hbit, (hplace r c).1 ⟨hrow', hcol'⟩⟩
  · rintro ⟨r, c, b, hr, hc, hbit, hat⟩
    obtain ⟨hrow', hcol'⟩ := (hplace r c).2 hat
    exact ⟨r, b, hr, hrow', c, hc, hbit, hcol'⟩

variable {sprite} (hlen : sprite.length ≤ 15)
include hlen

open Classical in
theorem pixel_draw {row col : Nat} (hrow : row < 32) (hcol : col < 64) :
    (draw q f x0 y0 sprite).1.pixel row col =
      (f.pixel row col ^^ decide (SpriteHits q.drawWrapsPixels x0 y0 sprite row col)) := by
  have hnodup : (drawHits q x0 y0 sprite).Nodup := nodup_spriteHits _ _ _ (by omega)
  rw [draw_eq, pixel_foldl_xorPixel hnodup spriteHits_inGrid]
  simp only [mem_drawHits q x0 y0 sprite hrow hcol]

theorem collision_draw :
    (draw q f x0 y0 sprite).2 = true ↔
      ∃ row col, row < 32 ∧ col < 64 ∧ f.pixel row col = true ∧ SpriteHits q.drawWrapsPixels x0 y0 sprite row col := by
  have hnodup : (drawHits q x0 y0 sprite).Nodup := nodup_spriteHits _ _ _ (by omega)
  rw [draw_eq, collision_foldl_xorPixel hnodup spriteHits_inGrid]
  constructor
  · rintro (h | ⟨⟨row, col⟩, hp, hlit⟩)
    · exact absurd h Bool.false_ne_true
    · obtain ⟨hrow, hcol⟩ := spriteHits_inGrid _ hp
      exact ⟨row, col, hrow, hcol, hlit, (mem_drawHits q x0 y0 sprite hrow hcol).1 hp⟩
  · rintro ⟨row, col, hrow, hcol, hlit, hhit⟩
    exact .inr ⟨(row, col), (mem_drawHits q x0 y0 sprite hrow hcol).2 hhit, hlit⟩

end

/-! ### The obligations -/

/-- Settles O33: `pixel_draw` read as a disjunction (R153, R155, R156). -/
theorem drawXorsTheVisibleSpriteBits : Obligations.DrawXorsTheVisibleSpriteBits := by
  intro q f x0 y0 sprite hlen row col hrow hcol
  rw [pixel_draw q f x0 y0 hlen hrow hcol]
  cases f.pixel row col <;> simp

/-- Settles O34 (R156). -/
theorem collisionWhenALitPixelIsHit : Obligations.CollisionWhenALitPixelIsHit :=
  fun q f x0 y0 _ hlen => collision_draw q f x0 y0 hlen

/-- Settles O35: two XORs with the same hits cancel; on the empty grid the pixels lit after the first draw are its hits (R159). -/
theorem drawingTwiceRestoresTheGrid : Obligations.DrawingTwiceRestoresTheGrid := by
  intro q f x0 y0 sprite hlen
  refine ⟨Screen.ext_pixel fun row col hrow hcol => ?_, ?_⟩
  · rw [pixel_draw q _ x0 y0 hlen hrow hcol, pixel_draw q f x0 y0 hlen hrow hcol, Bool.xor_assoc, Bool.xor_self, Bool.xor_false]
  · rintro rfl
    refine ⟨Bool.eq_false_iff.2 fun h => ?_, ?_⟩
    · obtain ⟨row, col, -, -, hlit, -⟩ := (collision_draw q Screen.blank x0 y0 hlen).1 h
      exact absurd hlit (by simp)
    · rw [collision_draw q _ x0 y0 hlen]
      refine exists_congr fun row => exists_congr fun col => and_congr_right fun hrow => and_congr_right fun hcol => ?_
      rw [pixel_draw q Screen.blank x0 y0 hlen hrow hcol]
      simp

/-- The bytes at `I` are the sprite that `Dxyn` draws (R157). -/
theorem State.sprite_eq {s : State} {sprite : List Byte}
    (h : ∀ j, j < sprite.length → sprite[j]? = some (s.mem.read (s.I.toNat + j))) : s.sprite sprite.length = sprite := by
  apply List.ext_getElem?
  intro j
  by_cases hj : j < sprite.length
  · rw [h j hj]
    simp [State.sprite, State.readBytes, hj]
  · rw [List.getElem?_eq_none (by simp [State.sprite, State.readBytes]; omega), List.getElem?_eq_none (by omega)]

/-- `draw` reads one of the quirk parameters only (R155). -/
theorem draw_quirk_congr {q q' : Config.Quirks} (h : q.drawWrapsPixels = q'.drawWrapsPixels) : draw q = draw q' := by
  unfold draw
  rw [h]

/-- Settles O36 (R157). -/
theorem drawSpriteInstruction : Obligations.DrawSpriteInstruction := by
  intro s x y n sprite q hq hn hbytes
  subst hn
  rw [draw_quirk_congr (q' := quirks) hq]
  refine ⟨fun hin => ?_, fun hne hout => exec_drw_of_outOfRange s x y hout (Nat.pos_of_ne_zero hne)⟩
  have hsprite := s.sprite_eq hbytes
  have hVF := s.advance.reg_drawSprite quirks x y VF sprite.length
  refine ⟨_, exec_drw_of_inRange s x y hin, ?_, ?_, rfl, rfl, (sameBut_drawSprite s.advance quirks x y _).of_advance⟩
  · rw [State.drawSprite_fb]
    exact congrArg (fun bytes => (draw quirks s.fb (s.reg x) (s.reg y) bytes).1) hsprite
  · rw [hVF, if_pos rfl, collisionFlag, toNat_flagByte]
    exact congrArg (fun bytes => if (draw quirks s.fb (s.reg x) (s.reg y) bytes).2 then 1 else 0) hsprite

end Sys2Proof.Machine

/-! The steps of a frame refine the atomic `FRAME` of R196 (45_scheduler_host.md section 2), and what the host sees (section 4). -/

namespace Sys2Proof.Machine

/-! ### The end of the atomic frame -/

/-- What R196 does after the loop of ticks: timers and `REFRESH`, or nothing after a fault. -/
def State.endFrame (t : State) : State := if t.run = .active then t.closeFrame else t.leaveFrame

theorem frame_of_active {s : State} (h : s.run = .active) :
    frame s = onNext (burstLoop 12 { s with drawFlag := false }) State.endFrame :=
  if_pos h

theorem frame_of_not_active {s : State} (h : s.run ≠ .active) : frame s = .next s := if_neg h

theorem endFrame_of_active {t : State} (h : t.run = .active) : t.endFrame = t.closeFrame := if_pos h

theorem endFrame_of_not_active {t : State} (h : t.run ≠ .active) : t.endFrame = t.leaveFrame := if_neg h

theorem burstLoop_of_waiting {k : Nat} {s : State} (h : s.execState ≠ .running) : burstLoop (k + 1) s = .next s := if_neg h

theorem burstLoop_of_tick {k : Nat} {s t : State} (h : s.execState = .running) (ht : tick s = .next t) :
    burstLoop (k + 1) s = if t.run = .active ∧ t.drawFlag = false then burstLoop k t else .next t := by
  rw [burstLoop, if_pos h, ht]

/-! ### Running to the end of a frame -/

/-- From inside a frame, `k` steps reach `t` between frames, and until then the machine is inside the frame with the inputs to come
untouched (R199). -/
def EndsFrameIn (k : Nat) (s t : State) : Prop :=
  runSteps k s = .next t ∧ t.phase = .between ∧ t.inputs = s.inputs ∧
    ∀ j u, j < k → runSteps j s = .next u → u.phase ≠ .between ∧ u.inputs = s.inputs

theorem endsFrameIn_one {s t : State} (h : step s = .next t) (hs : s.phase ≠ .between) (ht : t.phase = .between)
    (hinputs : t.inputs = s.inputs) : EndsFrameIn 1 s t := by
  refine ⟨runSteps_next 0 h, ht, hinputs, fun j u hj hu => ?_⟩
  obtain rfl : j = 0 := by omega
  cases hu
  exact ⟨hs, rfl⟩

theorem EndsFrameIn.step {k : Nat} {s t u : State} (hend : EndsFrameIn k t u) (h : step s = .next t) (hs : s.phase ≠ .between)
    (hinputs : t.inputs = s.inputs) : EndsFrameIn (k + 1) s u := by
  obtain ⟨hrun, hphase, hkept, hbefore⟩ := hend
  refine ⟨(runSteps_next k h).trans hrun, hphase, hkept.trans hinputs, fun j v hj hv => ?_⟩
  cases j with
  | zero => cases hv; exact ⟨hs, rfl⟩
  | succ j =>
    obtain ⟨hv_phase, hv_inputs⟩ := hbefore j v (Nat.lt_of_succ_lt_succ hj) ((runSteps_next j h).symm.trans hv)
    exact ⟨hv_phase, hv_inputs.trans hinputs⟩

section
variable {s : State} {count : Nat}

/-- When the burst goes no further, the next step is the end of the frame (R196). -/
theorem endsFrameIn_of_closeFrame (hrun : s.run = .active) (hgo : s.burstGoesOn count = false) :
    EndsFrameIn 1 (s.inPhase (.burst count)) s.closeFrame :=
  endsFrameIn_one (step_closeFrame (s := s.inPhase (.burst count)) rfl hrun hgo) nofun rfl rfl

/-- One tick of a burst, seen from the state as the atomic frame holds it. -/
theorem step_inPhase_tick {t : State} (hrun : s.run = .active) (hgo : s.burstGoesOn count = true) (ht : tick s = .next t) :
    step (s.inPhase (.burst count)) = .next ((t.inPhase (.burst count)).afterTick count) := by
  refine step_tick (s := s.inPhase (.burst count)) rfl hrun hgo ?_
  rw [tick_inPhase, ht, onNext_next]

end

/-- With `n` ticks left, the steps of the frame end where the atomic loop and its end do, after at most `n + 1` steps. -/
theorem endsFrameIn_burstLoop (n : Nat) {count : Nat} (hcount : count + n = 12) {s : State} (hrun : s.run = .active)
    (hdraw : s.drawFlag = false) :
    ∃ k t, k ≤ n + 1 ∧ EndsFrameIn k (s.inPhase (.burst count)) t ∧ onNext (burstLoop n s) State.endFrame = .next t := by
  induction n generalizing count s with
  | zero =>
    refine ⟨1, s.closeFrame, le_rfl, endsFrameIn_of_closeFrame hrun (burstGoesOn_eq_false_of_count hcount.ge), ?_⟩
    rw [burstLoop, onNext_next, endFrame_of_active hrun]
  | succ n ih =>
    by_cases hexec : s.execState = .running
    case neg =>
      refine ⟨1, s.closeFrame, by omega, endsFrameIn_of_closeFrame hrun (State.burstGoesOn_eq_false_of_waiting hexec _), ?_⟩
      rw [burstLoop_of_waiting hexec, onNext_next, endFrame_of_active hrun]
    case pos =>
      obtain ⟨t, ht⟩ := tick_answers s
      have hstep := step_inPhase_tick hrun (burstGoesOn_iff.2 ⟨by omega, hexec, hdraw⟩) ht (count := count)
      have hinputs := (tick_keeps ht).inputs
      rw [burstLoop_of_tick hexec ht]
      by_cases htrun : t.run = .active
      case neg =>
        rw [afterTick_stopped (t := t.inPhase (.burst count)) htrun] at hstep
        refine ⟨1, t.leaveFrame, by omega, endsFrameIn_one hstep nofun rfl hinputs, ?_⟩
        rw [if_neg fun h => htrun h.1, onNext_next, endFrame_of_not_active htrun]
      case pos =>
        rw [afterTick_active (t := t.inPhase (.burst count)) htrun] at hstep
        cases htdraw : t.drawFlag with
        | false =>
          obtain ⟨k, u, hk, hend, hloop⟩ := ih (count := count + 1) (by omega) htrun htdraw
          exact ⟨k + 1, u, by omega, hend.step hstep nofun hinputs, by rwa [if_pos ⟨htrun, rfl⟩]⟩
        | true =>
          have hend := endsFrameIn_of_closeFrame (count := count + 1) htrun (State.burstGoesOn_eq_false_of_drawFlag htdraw _)
          refine ⟨2, t.closeFrame, by omega, hend.step hstep nofun hinputs, ?_⟩
          rw [if_neg fun h => absurd h.2 (by decide), onNext_next, endFrame_of_active htrun]

/-- A frame boundary, an input or the passing of time, is a step to `onFrame` (R199, R200; log entry 3). -/
theorem step_frameBoundary {s : State} {rest : List Event} (hp : s.phase = .between)
    (hi : s.inputs = .frame :: rest ∨ (s.inputs = [] ∧ rest = [])) : step s = .next (onFrame { s with inputs := rest }) := by
  rcases hi with hi | ⟨hi, rfl⟩
  · exact step_event hp hi
  · rw [step_idle hp hi, ← hi]

/-- Settles O41: a machine that is not `Active` takes one step; an `Active` one enters the frame and runs the loop of ticks. -/
theorem stepsRefineTheAtomicFrame : Obligations.StepsRefineTheAtomicFrame := by
  intro s rest hp hi
  have hstep := step_frameBoundary hp hi
  by_cases hrun : s.run = .active
  case neg =>
    rw [onFrame_of_not_active (s := { s with inputs := rest }) hrun] at hstep
    exact ⟨1, _, le_rfl, by decide, runSteps_next 0 hstep, frame_of_not_active (s := { s with inputs := rest }) hrun, hp, rfl,
      fun j u hpos hlt => by omega⟩
  case pos =>
    rw [onFrame_of_active (s := { s with inputs := rest }) hrun] at hstep
    obtain ⟨k, t, hk, ⟨hsteps, hphase, hinputs, hbefore⟩, hloop⟩ :=
      endsFrameIn_burstLoop 12 (count := 0) rfl (s := { s with inputs := rest, drawFlag := false }) hrun rfl
    refine ⟨k + 1, t, by omega, by omega, (runSteps_next k hstep).trans hsteps,
      (frame_of_active (s := { s with inputs := rest }) hrun).trans hloop, hphase, hinputs, fun j u hpos hlt hu => ?_⟩
    obtain ⟨j, rfl⟩ := Nat.exists_eq_add_one_of_ne_zero hpos.ne'
    exact hbefore j u (by omega) ((runSteps_next j hstep).symm.trans hu)

/-! ### What the host sees (R207) -/

/-- In a list of rows of equal length, laid end to end, entry `j` of row `i` is number `i * n + j`. -/
theorem getElem?_flatMap_rows {α β : Type} {row : α → List β} {n : Nat} (hrow : ∀ a, (row a).length = n) (l : List α) (i : Nat)
    {j : Nat} (hj : j < n) : (l.flatMap row)[i * n + j]? = l[i]?.bind fun a => (row a)[j]? := by
  induction l generalizing i with
  | nil => simp
  | cons a l ih =>
    rw [List.flatMap_cons]
    cases i with
    | zero => rw [List.getElem?_append_left (by rw [hrow]; omega)]; simp
    | succ i =>
      have hskip : (i + 1) * n + j - (row a).length = i * n + j := by rw [hrow, Nat.add_one_mul]; omega
      rw [List.getElem?_append_right (by rw [hrow, Nat.add_one_mul]; omega), hskip, ih, List.getElem?_cons_succ]

theorem Screen.length_pixels (f : Screen) : f.pixels.length = 2048 := by
  simp [Screen.pixels, List.length_flatMap]

theorem Screen.getElem?_pixels (f : Screen) {row col : Nat} (hrow : row < 32) (hcol : col < 64) :
    f.pixels[row * 64 + col]? = some (f.pixel row col) := by
  rw [Screen.pixels, getElem?_flatMap_rows (fun r => by simp) _ _ hcol]
  simp [Screen.pixel, hrow, hcol]

/-- The view changes by a fault or by a write of the grid only. -/
theorem hostView_of_exec {i : Instr} {s t : State} (h : exec i s = .next t) (hview : t.hostView ≠ s.hostView) :
    i = .cls ∨ (∃ x y n, i = .drw x y n) ∨ t.isFaulted = true := by
  rcases exec_checked h with ⟨-, hraised⟩ | ⟨-, hfoot⟩
  · exact .inr (.inr hraised.run.2)
  · by_cases hscreen : .screen ∈ Instr.partsWritten i
    · exact (writer_of_screen hscreen).imp_right .inl
    · obtain ⟨-, -, hrefreshes⟩ := hfoot.frame.2 .schedule (not_mem_partsWritten i (by decide))
      obtain ⟨htrunc, -⟩ := hfoot.frame.2 .image (not_mem_partsWritten i (by decide))
      exact absurd (State.hostView_congr (hfoot.frame.2 .screen hscreen) hrefreshes hfoot.run htrunc) hview

/-- Settles O60: the view has four fields, and no other field occurs in it (R207). -/
theorem hostSeesOnlyItsView : Obligations.HostSeesOnlyItsView := by
  intro s t
  refine ⟨s.hostSees_between, fun _ => s.hostSees_burst, s.fb.length_pixels, fun row col => s.fb.getElem?_pixels, rfl, rfl, rfl,
    fun hphase hfb hrefreshes hrun htrunc => ?_, fun i => hostView_of_exec⟩
  simp only [State.hostSees, hphase, State.hostView_congr hfb hrefreshes hrun htrunc]

end Sys2Proof.Machine
